-- ==== Sys2Proof/Word.lean ====
section
/-! DEFINITION. The words the block moves: a byte is 8 bits and a register or a stream int32 is 32 bits
(spec 00_scope.md R6 "a byte is 8 bits; an int32 is 4 bytes", 10_state.md R11 "Registers are 32 bits wide"). -/

namespace Sys2Proof

/-- One byte of a buffer or of a stream (R6, R65: unsigned, 0 to 255). -/
abbrev Byte := BitVec 8

/-- A host-visible register (R11), a command word (R60) or the 32-bit pattern of a stream int32 (R64). -/
abbrev Word := BitVec 32

end Sys2Proof
end

