-- ==== Sys2Proof/Config.lean ====
section
/-! DEFINITION. The implementation parameters of the block (spec 00_scope.md R6) and the free values the spec
leaves open (93_implementation_defined.md U1, U2, U4, U5).

The parameters are OPEN in the spec ("a model takes each as an argument"), so they are a plain structure that
State carries and no step changes: every statement about all states is a statement about all parameters
(notes/assumptions/1.md). -/

namespace Sys2Proof

/-- The byte order of every int32 field of both stream formats (R6 `ENDIAN`, R43). -/
inductive Endian
  | little
  | big
  deriving DecidableEq, Repr

/-- The parameters fixed when the block is built (R6). -/
structure Params where
  endian : Endian
  inCap : Nat
  outCap : Nat
  histCap : Nat
  previewCap : Nat
  resetHist : Nat
  resetPreview : Nat
  deriving DecidableEq, Repr

/-- The constraints of R6 with the lower bounds of 93_implementation_defined.md section 2. -/
def Params.wf (p : Params) : Bool :=
  decide (1 ≤ p.inCap ∧ p.inCap ≤ 2 ^ 31 - 1
    ∧ 1 ≤ p.outCap ∧ p.outCap ≤ 2 ^ 32 - 1
    ∧ 4096 ≤ p.histCap ∧ p.histCap ≤ 2 ^ 31 - 1
    ∧ 20480 ≤ p.previewCap ∧ p.previewCap ≤ 2 ^ 31 - 1
    ∧ p.resetHist ≤ p.histCap
    ∧ 1 ≤ p.resetPreview ∧ p.resetPreview ≤ p.previewCap)

/-- The parameters of the state after power-on. `ENDIAN`, `RESET_HIST` and `RESET_PREVIEW` are the values R6 gives
"this hardware"; the four capacities are OPEN there and stand at the largest values R6 allows.
DESIGN CHOICE, unsafe for a claim that rests on one of the four (notes/assumptions/1.md). -/
def Config.params : Params where
  endian := .little
  inCap := 2 ^ 31 - 1
  outCap := 2 ^ 32 - 1
  histCap := 2 ^ 31 - 1
  previewCap := 2 ^ 31 - 1
  resetHist := 4096
  resetPreview := 5120

/-- The byte `IN[a]` holds after the `epoch`-th hardware reset before the host writes it: any value (R230, U4).
A free value, constant between resets because the block stores `IN` and no command writes it (R18). -/
opaque Config.inPowerOn : Nat → Nat → Byte

/-- The byte `OUT[a]` holds after the `epoch`-th hardware reset before a command writes it: any value (R230, U4). -/
opaque Config.outPowerOn : Nat → Nat → Byte

/-- The byte a host read returns where the spec says "any value" (R41, U1, U2, U5), by the number of such reads
made before: two reads need not agree. -/
opaque Config.freeByte : Nat → Byte

end Sys2Proof
end

