-- ==== Sys2Proof/Syntax.lean ====
section
/-! DEFINITION. The syntax of the block's instruction set: one constructor per row of spec/opcode_table.json.
The five commands have no operand fields (spec 30_encoding.md R61, R62); the four stream records carry theirs
(R66, R67, R69, R71). An int32 field is kept as its 32-bit pattern and read as signed with `BitVec.toInt` (R64). -/

namespace Sys2Proof

/-- The rows of spec/opcode_table.json: what the command sequencer executes. -/
inductive Instr
  /-- `CLEAR`, command word 0x00000000 (R62, R100). -/
  | clear
  /-- `HUF_PACK`, command word 0x00000001 (R62, R135). -/
  | hufPack
  /-- `HUF_UNPACK`, command word 0x00000002 (R62, R150). -/
  | hufUnpack
  /-- `LZ_PACK`, command word 0x00000003 (R62, R170). -/
  | lzPack
  /-- `LZ_UNPACK`, command word 0x00000004 (R62, R190). -/
  | lzUnpack
  /-- `HUF_SYMBOLCOUNT`, the first field of a Huffman container (R66). -/
  | hufSymbolCount (count : Word)
  /-- `HUF_TABLE_ENTRY`, one (symbolValue, frequency) entry of a Huffman container (R67). -/
  | hufTableEntry (symbol : Byte) (frequency : Word)
  /-- `HUF_PADDING_COUNT`, the last byte of a Huffman container (R69). -/
  | hufPaddingCount (padding : Byte)
  /-- `LZ_TRIPLET`, one 9-byte record of an LZ77 stream, fields in stream order (R71, conflict C3). -/
  | lzTriplet (offset : Word) (literal : Byte) (length : Word)
  deriving DecidableEq, Repr

end Sys2Proof
end

