-- ==== Sys2Proof/Machine/State.lean ====
section
/-! DEFINITION. The state of the block as plain data: the host-visible registers and buffers (spec 10_state.md R10 to
R19), the transient state of the command sequencer and of the two engines (R20 to R32), and what the model adds at the
host interface (the pending host actions, the value a host read returned, the free-value counters). A length register
whose sequence is a list (`NNODE`, `LISTLEN`, `CANDLEN`, `HLEN`, `LLEN`, a code's `len`) is that list's length
(notes/assumptions/10.md). -/

namespace Sys2Proof.Machine

/-- A byte buffer: the bytes written so far by rising address. An address that is not listed has not been written
since reset and reads as no value; what a read of it then gives is a free value (notes/assumptions/3.md). -/
abbrev Memory := List Host.Cell

/-- A register file of 256 entries indexed by byte value (R23, R27). -/
abbrev Table (α : Type) := Vector α 256

/-- The six errors a command can end with (R200). They end a command, not the machine. -/
inductive CodecError
  | illegalCommand
  | config
  | io
  | format
  | decode
  | capacity
  deriving DecidableEq, Repr

/-- The phases of the command sequencer (R21). `ERROR` holds the error that was raised, the `E` of `ErrorEntry(E)` (R204;
notes/assumptions/6.md). -/
inductive Phase
  | idle | prologue | check
  | hCount | hHeaderOut | hHeaderIn | hBuild | hCodes | hEncode | hDecode
  | lEncode | lDecode
  | epilogue | error (e : CodecError)
  deriving DecidableEq, Repr

/-- Where the header reader of `H_HEADER_IN` stands: the order in which R151, R153 and R152 read the container.
The spec gives this position no name (notes/assumptions/5.md). -/
inductive Reader
  /-- `symbolCount` is read next (R151). -/
  | symbolCount
  /-- `paddingBitCount` is read next (R153). -/
  | paddingCount
  /-- The table entries are read next (R152). -/
  | tableEntries
  deriving DecidableEq, Repr

/-- An entry of the node arena, with an explicit discriminant (R24, R123). -/
inductive Node
  | leaf (value : Byte) (freq : Nat)
  | internal (left right : Nat) (freq : Nat)
  deriving DecidableEq, Repr

/-- One access of the host (R11, R35, R41, R236) or the reset event (R230). Registers are addressed by index, buffers
by byte address. -/
inductive HostAction
  | writeReg (index : Nat) (value : Word)
  | readReg (index : Nat)
  | writeIn (addr : Nat) (value : Byte)
  | readIn (addr : Nat)
  | writeOut (addr : Nat) (value : Byte)
  | readOut (addr : Nat)
  | reset
  deriving DecidableEq, Repr

/-- Why the machine stops. No constructor: the spec stops the block nowhere ("Every command terminates for every
host-visible state", R240; "Nothing in this spec is undefined behaviour", 93_implementation_defined.md section 1), and
each of its six errors is a next state (R204; notes/assumptions/13.md). Safe: the model has no stop that the block does not have. -/
inductive Fault
  deriving DecidableEq, Repr

/-- Why an instruction has no meaning. -/
inductive Refusal
  /-- Raised by an arm of `exec` whose instruction has no meaning yet; no arm raises it. Safe. -/
  | notModelled (mnemonic : String)
  deriving DecidableEq, Repr

/-- The state of the block. -/
structure State where
  /-- The implementation parameters (R6); no step changes them. -/
  params : Params
  /-- `STATUS`, register 1 (R13). -/
  status : Word
  /-- `CFG_HIST`, register 2 (R14). -/
  cfgHist : Word
  /-- `CFG_PREVIEW`, register 3 (R15). -/
  cfgPreview : Word
  /-- `IN_LEN`, register 4 (R16). -/
  inLen : Word
  /-- `OUT_LEN`, register 5 (R17). -/
  outLen : Word
  /-- Buffer `IN` (R18). -/
  inBuf : Memory
  /-- Buffer `OUT` (R19). -/
  outBuf : Memory
  /-- `PHASE` (R21). -/
  phase : Phase
  /-- The word of the command in progress, which decides the path of `PHASE` (R98, R102). -/
  cmdWord : Word
  /-- Position inside `H_HEADER_IN`. -/
  reader : Reader
  /-- `IPOS` (R22). -/
  ipos : Nat
  /-- `OPOS` (R22). -/
  opos : Nat
  /-- `FREQ` (R23). -/
  freq : Table Nat
  /-- `NODE` (R24); `NNODE` is its length (R26). -/
  node : List Node
  /-- `LIST` (R25); `LISTLEN` is its length. -/
  list : List Nat
  /-- `NSYM` (R26). -/
  nsym : Nat
  /-- `ROOT` (R26); `none` is `NONE`. -/
  root : Option Nat
  /-- `CODE` (R27): 0 is `false`, 1 is `true`, first symbol first; the empty list is "no code". -/
  code : Table (List Bool)
  /-- `ACC` (R28). -/
  acc : Byte
  /-- `NBITS` (R28). -/
  nbits : Nat
  /-- `PBASE` (R29). -/
  pbase : Nat
  /-- `PBYTES` (R29). -/
  pbytes : Nat
  /-- `PAD` (R29). -/
  pad : Nat
  /-- `USEFUL` (R29). -/
  useful : Nat
  /-- `BITPOS` (R29). -/
  bitpos : Nat
  /-- `CAND` (R29); `CANDLEN` is its length. -/
  cand : List Bool
  /-- `HIST` (R30), oldest byte first; `HLEN` is its length. -/
  hist : List Byte
  /-- `LOOK` (R31), next byte first; `LLEN` is its length. -/
  look : List Byte
  /-- `H_MAX`, latched from `CFG_HIST` (R171). -/
  hMax : Nat
  /-- `P_MAX`, latched from `CFG_PREVIEW` (R171). -/
  pMax : Nat
  /-- `BEST_OFF` (R32). -/
  bestOff : Nat
  /-- `BEST_LEN` (R32). -/
  bestLen : Nat
  /-- `BEST_LIT` (R32). -/
  bestLit : Byte
  /-- Model's own: the host actions still to come, oldest first (notes/assumptions/4.md). -/
  host : List HostAction
  /-- Model's own: the value the last host register read returned. -/
  regRead : Word
  /-- Model's own: the value the last host buffer read returned. -/
  byteRead : Byte
  /-- Model's own: how many hardware resets came after power-on; selects the bytes `IN` and `OUT` then hold. -/
  epoch : Nat
  /-- Model's own: how many host reads have returned an unspecified value. -/
  freeReads : Nat
  deriving DecidableEq, Repr

/-- The state after power-on of a block built with parameters `p` (R37, R230). `hMax`, `pMax`, `cmdWord` and the model's
own fields are not in that table: DESIGN CHOICE (notes/assumptions/2.md). -/
def State.resetWith (p : Params) : State where
  params := p
  status := 0
  cfgHist := BitVec.ofNat 32 p.resetHist
  cfgPreview := BitVec.ofNat 32 p.resetPreview
  inLen := 0
  outLen := 0
  inBuf := []
  outBuf := []
  phase := .idle
  cmdWord := 0
  reader := .symbolCount
  ipos := 0
  opos := 0
  freq := Vector.replicate 256 0
  node := []
  list := []
  nsym := 0
  root := none
  code := Vector.replicate 256 []
  acc := 0
  nbits := 0
  pbase := 0
  pbytes := 0
  pad := 0
  useful := 0
  bitpos := 0
  cand := []
  hist := []
  look := []
  hMax := 0
  pMax := 0
  bestOff := 0
  bestLen := 0
  bestLit := 0
  host := []
  regRead := 0
  byteRead := 0
  epoch := 0
  freeReads := 0

/-- The machine right after reset (R230). -/
def State.reset : State := State.resetWith Config.params

end Sys2Proof.Machine
end

