-- ==== Sys2Proof/Machine/Flags.lean ====
section
/-! DEFINITION. The flags of the block: the fields of `STATUS` and the values its three writers give it
(spec 10_state.md R13, R34; 60_exceptions.md R200). There are no condition codes (R34). -/

namespace Sys2Proof.Machine

/-- `STATUS.DONE`, bit 0 (R13). -/
def statusDone (w : Word) : Bool := w.getLsbD 0

/-- `STATUS.ERR`, bit 1 (R13). -/
def statusErr (w : Word) : Bool := w.getLsbD 1

/-- `STATUS.ERRCODE`, bits 7:4 (R13). -/
def statusErrCode (w : Word) : Nat := (w.extractLsb' 4 4).toNat

/-- The numeric error codes (R200). -/
def CodecError.code : CodecError → Nat
  | .illegalCommand => 1
  | .config => 2
  | .io => 3
  | .format => 4
  | .decode => 5
  | .capacity => 6

/-- `STATUS.DONE <- 1`, the other bits as they are (R99). -/
def setDone (w : Word) : Word := w ||| 1

/-- `1 + 2 + 16 * code(E)`: what error entry writes to `STATUS` (R204). -/
def statusOfError (e : CodecError) : Word := BitVec.ofNat 32 (1 + 2 + 16 * e.code)

/-- The words `STATUS` can hold when the host reads it (R13, R200): 0, success, or one of the six errors. -/
def statusLegal (w : Word) : Bool :=
  w == 0 || w == 1 ||
    [CodecError.illegalCommand, .config, .io, .format, .decode, .capacity].any fun e => w == statusOfError e

end Sys2Proof.Machine
end

