-- ==== Sys2Proof/Machine/Ops.lean ====
section
/-! DEFINITION. The shared operations over buffers and registers: reading and writing a buffer byte (spec 20_memory.md
R40, R48, R49), the register-file tables, the prologue (41_archiver_contract_commands.md R97), the input check (R101),
the success epilogue (R99), error entry (60_exceptions.md R204) and the frame every data command runs in (R98). -/

namespace Sys2Proof.Machine

/-- The byte written last to an address; none if the address has not been written. -/
def Memory.read? : Memory → Nat → Option Byte
  | [], _ => none
  | (a, b) :: m, x => if a = x then some b else Memory.read? m x

/-- Store a byte, keeping the addresses strictly rising. -/
def Memory.write : Memory → Nat → Byte → Memory
  | [], x, v => [(x, v)]
  | (a, b) :: m, x, v =>
    if x < a then (x, v) :: (a, b) :: m
    else if x = a then (x, v) :: m
    else (a, b) :: Memory.write m x v

/-- The canonical form: addresses strictly rising. An address that is not listed reads as no value, so no listed byte
can equal it. -/
def Memory.wf : Memory → Bool
  | [] => true
  | [_] => true
  | (a, _) :: (b, v) :: m => decide (a < b) && Memory.wf ((b, v) :: m)

/-- Every listed address lies inside a buffer of `cap` bytes (R40). -/
def Memory.within (m : Memory) (cap : Nat) : Bool := m.all fun c => decide (c.1 < cap)

/-- The byte `IN[a]` holds: the last one the host wrote, else the unspecified byte reset left there (R41, U4). -/
def State.inByte (s : State) (a : Nat) : Byte := (Memory.read? s.inBuf a).getD (Config.inPowerOn s.epoch a)

/-- The byte `OUT[a]` holds: the last one a command wrote, else the unspecified byte reset left there (R49, U4). -/
def State.outByte (s : State) (a : Nat) : Byte := (Memory.read? s.outBuf a).getD (Config.outPowerOn s.epoch a)

/-- The input of a command: `IN[0 .. IN_LEN)` (R16). -/
def State.input (s : State) : List Byte := (List.range s.inLen.toNat).map s.inByte

/-- The output of the last command: `OUT[0 .. OUT_LEN)` (R17). -/
def State.output (s : State) : List Byte := (List.range s.outLen.toNat).map s.outByte

/-- An entry of a 256-entry register file (R7 `FREQ[v]`, `CODE[v]`). -/
def Table.get {α : Type} (t : Table α) (v : Byte) : α := t[v.toNat]'v.isLt

/-- Write one entry of a 256-entry register file (R7 `FREQ[v] <- c`). -/
def Table.set {α : Type} (t : Table α) (v : Byte) (x : α) : Table α := Vector.set t v.toNat x v.isLt

/-- The byte values in ascending order, the index order of the register files (R23). -/
def allBytes : List Byte := (List.range 256).map (BitVec.ofNat 8)

/-- The result of a piece of a command: a value, or the error raised and the state it was raised in (R7 `raise`). -/
abbrev Run (α : Type) := Except (CodecError × State) α

/-- `raise <Error>`: abandon the rest of the command (R98, R204). -/
def raise {α : Type} (e : CodecError) (s : State) : Run α := .error (e, s)

/-- A command is issued: the sequencer leaves `IDLE` holding the command word (R95, R102). -/
def State.start (w : Word) (s : State) : State := { s with phase := .prologue, cmdWord := w }

/-- The prologue of every `CMD` write (R97): `STATUS`, `OUT_LEN` and all transient state to empty. -/
def State.prologue (s : State) : State :=
  { s with
    status := 0, outLen := 0
    reader := .symbolCount, ipos := 0, opos := 0
    freq := Vector.replicate 256 0, code := Vector.replicate 256 []
    node := [], list := [], nsym := 0, root := none
    acc := 0, nbits := 0
    pbase := 0, pbytes := 0, pad := 0, useful := 0, bitpos := 0, cand := []
    hist := [], look := []
    bestOff := 0, bestLen := 0, bestLit := 0 }

/-- The success epilogue (R99). -/
def State.epilogue (s : State) : State :=
  { s with phase := .idle, outLen := BitVec.ofNat 32 s.opos, status := setDone s.status }

/-- A `raise` moves `PHASE` to `ERROR` (R102, R204). -/
def State.enterError (e : CodecError) (s : State) : State := { s with phase := .error e }

/-- What phase `ERROR` does (R204): it saves only the code, goes to no handler and leaves the bytes of `OUT` where they
are. There is no return from it: the block is idle again (R210). -/
def State.errorWrites (e : CodecError) (s : State) : State :=
  { s with outLen := 0, status := statusOfError e, phase := .idle }

/-- `ErrorEntry(E)`, the block's one way of taking an exception (R204): to `ERROR`, its writes, and to `IDLE`. -/
def State.errorEntry (e : CodecError) (s : State) : State := (s.enterError e).errorWrites e

/-- The check common to the four data commands (R101). -/
def checkInput (s : State) : Run State :=
  let s := { s with phase := .check }
  if s.params.inCap < s.inLen.toNat then raise .config s else .ok s

/-- End a piece of a command that is one step of the sequencer: go on, or move to `ERROR` (R102). -/
def settle : Run State → State
  | .ok s => s
  | .error (e, s) => s.enterError e

/-- End a data command (R98): the epilogue, or error entry. -/
def complete : Run State → State
  | .ok s => s.epilogue
  | .error (e, s) => s.errorEntry e

/-- A data command from the `CMD` write to its return (R96, R98): prologue, input check, the engine, the epilogue. -/
def dataCommand (w : Word) (engine : State → Run State) (s : State) : State :=
  complete (do
    let s ← checkInput (s.start w).prologue
    engine s)

/-- What an illegal command word does (R98, R103): the prologue, then `IllegalCommand`. -/
def illegalCommand (w : Word) (s : State) : State := ((s.start w).prologue).errorEntry .illegalCommand

end Sys2Proof.Machine
end

