-- ==== Sys2Proof/Machine/Clear.lean ====
section
/-! DEFINITION. `CLEAR` (spec 41_archiver_contract_commands.md R100): the prologue and nothing else; no input check and
no epilogue. -/

namespace Sys2Proof.Machine

/-- `CLEAR` (R98, R100). -/
def execClear (s : State) : Host.Outcome State Fault Refusal :=
  .next { (s.start 0x00000000).prologue with phase := .idle }

end Sys2Proof.Machine
end

