-- ==== Sys2Proof/WellFormed.lean ====
section
/-! DEFINITION. Which terms of the syntax an encoding exists for: the ranges that spec/opcode_table.json and
30_encoding.md give the fields of the four stream records. Commands have no fields and are always well formed. -/

namespace Sys2Proof

/-- `symbolCount` is 0 to 256 (R67 "0 ≤ n ≤ 256"). -/
def symbolCountOk (n : Word) : Bool := decide (0 ≤ n.toInt ∧ n.toInt ≤ 256)

/-- A stored frequency is at least 1 (R67 "every frequency ≥ 1"). -/
def frequencyOk (f : Word) : Bool := decide (1 ≤ f.toInt)

/-- `paddingBitCount` is 0 to 7 (R69). -/
def paddingOk (p : Byte) : Bool := decide (p.toNat < 8)

/-- The part of R71's constraint on a triplet that does not depend on what was decoded before: no negative field,
and a positive length has an offset of at least 1. -/
def tripletOk (offset length : Word) : Bool :=
  decide (0 ≤ offset.toInt ∧ 0 ≤ length.toInt ∧ (0 < length.toInt → 1 ≤ offset.toInt))

/-- The well-formed instructions. -/
def Instr.wellFormed : Instr → Bool
  | .clear => true
  | .hufPack => true
  | .hufUnpack => true
  | .lzPack => true
  | .lzUnpack => true
  | .hufSymbolCount n => symbolCountOk n
  | .hufTableEntry _ f => frequencyOk f
  | .hufPaddingCount p => paddingOk p
  | .lzTriplet o _ n => tripletOk o n

end Sys2Proof
end

