-- ==== Sys2Proof/Decode.lean ====
section
/-! DEFINITION. Decoding and encoding. A command is a 32-bit word written to `CMD` (spec 30_encoding.md R60 to R63);
a stream record is a run of bytes in `IN` (R64 to R71). Which of the two is being read is never in question: a word
comes from the `CMD` write, a record from the place in the stream the sequencer has reached, so what was fetched is
tagged by that place (`Fetched`). Decoding is total and rejects by name; the encoder follows it. -/

namespace Sys2Proof

/-- The four bytes of an int32 pattern in stream order (R64, R82): least significant byte first when `little`. -/
def int32Bytes (e : Endian) (w : Word) : List Byte :=
  let b0 := w.extractLsb' 0 8
  let b1 := w.extractLsb' 8 8
  let b2 := w.extractLsb' 16 8
  let b3 := w.extractLsb' 24 8
  match e with
  | .little => [b0, b1, b2, b3]
  | .big => [b3, b2, b1, b0]

/-- The 32-bit pattern held in four consecutive stream bytes (R64, R83). -/
def int32Pattern (e : Endian) (b0 b1 b2 b3 : Byte) : Word :=
  match e with
  | .little => BitVec.ofNat 32 (b0.toNat + 2 ^ 8 * b1.toNat + 2 ^ 16 * b2.toNat + 2 ^ 24 * b3.toNat)
  | .big => BitVec.ofNat 32 (2 ^ 24 * b0.toNat + 2 ^ 16 * b1.toNat + 2 ^ 8 * b2.toNat + b3.toNat)

/-- What has been fetched, tagged by the place it was fetched from. -/
inductive Fetched
  /-- A word written to register `CMD` (R12). -/
  | command (w : Word)
  /-- The first bytes of a Huffman container (R66). -/
  | symbolCount (bytes : List Byte)
  /-- The bytes of one table entry of a Huffman container (R67). -/
  | tableEntry (bytes : List Byte)
  /-- The last byte of a Huffman container (R69). -/
  | paddingCount (b : Byte)
  /-- The bytes of one record of an LZ77 stream (R71). -/
  | triplet (bytes : List Byte)
  deriving DecidableEq, Repr

/-- Why the decoder rejects what was fetched. -/
inductive DecodeRefusal
  /-- Bits 31:8 of a command word are not 0 (R63). -/
  | reservedBits
  /-- Bits 7:0 of a command word are above 0x04 (R63). -/
  | illegalOpcode (opcode : Byte)
  /-- Not the number of bytes the record has. -/
  | wrongLength
  /-- Bits 7:3 of `paddingBitCount` are not 0 (R69). -/
  | paddingRange
  deriving DecidableEq, Repr

/-- R61, R62, R63: the whole 32-bit word must match one of the five command words. -/
def decodeCommand (w : Word) : Except DecodeRefusal Instr :=
  if w.extractLsb' 8 24 ≠ 0 then .error .reservedBits
  else match (w.extractLsb' 0 8).toNat with
    | 0 => .ok .clear
    | 1 => .ok .hufPack
    | 2 => .ok .hufUnpack
    | 3 => .ok .lzPack
    | 4 => .ok .lzUnpack
    | _ => .error (.illegalOpcode (w.extractLsb' 0 8))

/-- R66: `symbolCount` is the int32 of the first four bytes. Its range is a check of the command that reads it (R151). -/
def decodeSymbolCount (e : Endian) (bytes : List Byte) : Except DecodeRefusal Instr :=
  match bytes with
  | [b0, b1, b2, b3] => .ok (.hufSymbolCount (int32Pattern e b0 b1 b2 b3))
  | _ => .error .wrongLength

/-- R67: `symbolValue` (one byte), then `frequency` (int32). -/
def decodeTableEntry (e : Endian) (bytes : List Byte) : Except DecodeRefusal Instr :=
  match bytes with
  | [s, b0, b1, b2, b3] => .ok (.hufTableEntry s (int32Pattern e b0 b1 b2 b3))
  | _ => .error .wrongLength

/-- R69: one byte, bits 7:3 are 0. -/
def decodePaddingCount (b : Byte) : Except DecodeRefusal Instr :=
  if b.extractLsb' 3 5 ≠ 0 then .error .paddingRange else .ok (.hufPaddingCount b)

/-- R71: `offset` (int32), `literal` (one byte), `length` (int32), in this order. -/
def decodeTriplet (e : Endian) (bytes : List Byte) : Except DecodeRefusal Instr :=
  match bytes with
  | [o0, o1, o2, o3, l, n0, n1, n2, n3] =>
    .ok (.lzTriplet (int32Pattern e o0 o1 o2 o3) l (int32Pattern e n0 n1 n2 n3))
  | _ => .error .wrongLength

/-- The decoder: total on anything fetched, rejecting by name. -/
def decode (e : Endian) : Fetched → Except DecodeRefusal Instr
  | .command w => decodeCommand w
  | .symbolCount bytes => decodeSymbolCount e bytes
  | .tableEntry bytes => decodeTableEntry e bytes
  | .paddingCount b => decodePaddingCount b
  | .triplet bytes => decodeTriplet e bytes

/-- The encoder: the word or the bytes of an instruction, at the place it is fetched from (R62, R66, R67, R69, R71). -/
def encode (e : Endian) : Instr → Fetched
  | .clear => .command 0x00000000
  | .hufPack => .command 0x00000001
  | .hufUnpack => .command 0x00000002
  | .lzPack => .command 0x00000003
  | .lzUnpack => .command 0x00000004
  | .hufSymbolCount n => .symbolCount (int32Bytes e n)
  | .hufTableEntry s f => .tableEntry (s :: int32Bytes e f)
  | .hufPaddingCount p => .paddingCount p
  | .lzTriplet o l n => .triplet (int32Bytes e o ++ l :: int32Bytes e n)

/-- The bytes something fetched occupies where it stands. A command word is a register write and has no byte order
(R45, R60); its four bytes are listed least significant first. -/
def Fetched.bytes : Fetched → List Byte
  | .command w => int32Bytes .little w
  | .symbolCount bytes => bytes
  | .tableEntry bytes => bytes
  | .paddingCount b => [b]
  | .triplet bytes => bytes

/-- The number of bytes of an instruction of the opcode table (R60, R66, R67, R69, R71). -/
def Instr.size : Instr → Nat
  | .clear => 4
  | .hufPack => 4
  | .hufUnpack => 4
  | .lzPack => 4
  | .lzUnpack => 4
  | .hufSymbolCount _ => 4
  | .hufTableEntry _ _ => 5
  | .hufPaddingCount _ => 1
  | .lzTriplet _ _ _ => 9

/-- The `n` bytes of a number in opcode-table numbering: the first byte is bits 7:0. -/
def tableBytes (n w : Nat) : List Byte :=
  (List.range n).map fun k => BitVec.ofNat 8 (w / 2 ^ (8 * k))

/-- What a row of the opcode table with `nbits` bits holds when its bits are `w`. The width tells a record from a
command but for one case: a command word and `HUF_SYMBOLCOUNT` both have 32 bits, and where the block reads decides
between them; here a legal command word is a command and any other 32-bit word a `symbolCount`
(notes/assumptions/8.md). The records are in the byte order of this hardware (R6). -/
def tableFetched (nbits w : Nat) : Option Fetched :=
  if 2 ^ nbits ≤ w then none
  else match nbits with
    | 8 => some (.paddingCount (BitVec.ofNat 8 w))
    | 32 =>
      match decodeCommand (BitVec.ofNat 32 w) with
      | .ok _ => some (.command (BitVec.ofNat 32 w))
      | .error _ => some (.symbolCount (tableBytes 4 w))
    | 40 => some (.tableEntry (tableBytes 5 w))
    | 72 => some (.triplet (tableBytes 9 w))
    | _ => none

/-- The instruction the decoder reads from a row's bits; none where it refuses. -/
def decodeTableWord (nbits w : Nat) : Option Instr :=
  match tableFetched nbits w with
  | none => none
  | some f =>
    match decode Config.params.endian f with
    | .ok i => some i
    | .error _ => none

end Sys2Proof
end

