-- ==== Sys2Proof/Machine/Operands.lean ====
section
/-! DEFINITION. The operand accesses of the engines: the binary primitives (spec 40_binary_primitives.md R80 to R87).
The only addressing mode is an absolute byte address held in a cursor or computed from one (R80). -/

namespace Sys2Proof.Machine

/-- The bytes `IN[a .. a+n)`, lowest address first (R7 `MemRead`). -/
def inBytes (s : State) (a n : Nat) : List Byte := (List.range n).map fun k => s.inByte (a + k)

/-- `OUT[OPOS] <- b ; OPOS <- OPOS + 1` (R81). -/
def State.push (b : Byte) (s : State) : State :=
  { s with outBuf := Memory.write s.outBuf s.opos b, opos := s.opos + 1 }

/-- `out_byte(b)` (R81). -/
def outByte (b : Byte) (s : State) : Run State :=
  if s.opos = s.params.outCap then raise .capacity s else .ok (s.push b)

/-- Append a run of bytes with `out_byte`. -/
def outBytes (bs : List Byte) (s : State) : Run State := bs.foldlM (fun s b => outByte b s) s

/-- `writeInt32(v)` (R82). -/
def writeInt32 (v : Int) (s : State) : Run State := outBytes (int32Bytes s.params.endian (BitVec.ofInt 32 v)) s

/-- `readInt32(a)` (R83), two's complement (R7, G1: PRESUMED, notes/assumptions/11.md). -/
def readInt32 (a : Nat) (s : State) : Run Int :=
  if s.inLen.toNat < a + 4 then raise .io s
  else .ok (int32Pattern s.params.endian (s.inByte a) (s.inByte (a + 1)) (s.inByte (a + 2)) (s.inByte (a + 3))).toInt

/-- `ACC[k] <- b` (R85). -/
def setBit (acc : Byte) (k : Nat) (b : Bool) : Byte :=
  if b then acc ||| BitVec.ofNat 8 (2 ^ k) else acc &&& ~~~ BitVec.ofNat 8 (2 ^ k)

/-- `put_bit(b)` (R85). -/
def putBit (b : Bool) (s : State) : Run State :=
  let s := { s with acc := setBit s.acc s.nbits b, nbits := s.nbits + 1 }
  if s.nbits = 8 then do
    let s ← outByte s.acc s
    .ok { s with acc := 0, nbits := 0 }
  else .ok s

/-- Append a run of bits with `put_bit`, first bit first. -/
def putBits (bits : List Bool) (s : State) : Run State := bits.foldlM (fun s b => putBit b s) s

/-- `for k in NBITS .. 7: ACC[k] <- 1` (R86). -/
def padOnes (acc : Byte) (nbits : Nat) : Byte :=
  (List.range' nbits (8 - nbits)).foldl (fun acc k => setBit acc k true) acc

/-- `flush_bits()`, with the number of padding bits it returns (R86). When its `out_byte` raises, `ACC` is left without the
pad bits (DESIGN CHOICE, notes/assumptions/7.md). -/
def flushBits (s : State) : Run (Nat × State) :=
  if s.nbits = 0 then .ok (0, s)
  else do
    let t ← outByte (padOnes s.acc s.nbits) s
    .ok (8 - s.nbits, { t with acc := 0, nbits := 0 })

/-- `get_bit(base, k)` (R87). -/
def getBit (s : State) (base k : Nat) : Bool := (s.inByte (base + k / 8)).getLsbD (k % 8)

end Sys2Proof.Machine
end

