-- ==== Sys2Proof/Machine/Huffman.lean ====
section
/-! DEFINITION. The part of the Huffman engine both commands share (spec 42_huffman_tree_and_codes.md): frequency
count, tree builder, code table generator. Each step is a function of the data the rule names, and the phase that runs
it stores the result. The order of every list here decides payload bits (R118 to R121, R129). -/

namespace Sys2Proof.Machine

/-- One turn of the counting loop (R116): `FREQ[v] <- FREQ[v] + 1`. -/
def countByte (t : Table Nat) (v : Byte) : Table Nat := t.set v (t.get v + 1)

/-- The counting loop over a run of bytes (R116). -/
def countBytes (t : Table Nat) (bytes : List Byte) : Table Nat := bytes.foldl countByte t

/-- The symbols: byte values with a positive count, ascending (R117). -/
def symbols (freq : Table Nat) : List Byte := allBytes.filter fun v => decide (0 < freq.get v)

/-- Phase `H_COUNT` (R116) and `NSYM` (R117). -/
def countPhase (s : State) : State :=
  let freq := countBytes s.freq s.input
  { s with phase := .hCount, freq := freq, nsym := (symbols freq).length }

/-- `StableSortDescending(L, key)` (R120). An insertion sort that puts an entry before those of an equal key that
stood after it is stable. -/
def sortDescending {α : Type} (key : α → Nat) (l : List α) : List α := l.insertionSort fun x y => key y ≤ key x

/-- `NODE[n].freq` of an arena entry (R24). -/
def Node.freq : Node → Nat
  | .leaf _ f => f
  | .internal _ _ f => f

/-- `NODE[n].freq` by arena index; 0 beyond the arena, which `LIST` never names. -/
def nodeFreq (node : List Node) (n : Nat) : Nat :=
  match node[n]? with
  | some x => x.freq
  | none => 0

/-- The tree builder's working data: the arena `NODE` and the work list `LIST`. -/
structure Forest where
  node : List Node
  list : List Nat
  deriving DecidableEq, Repr

/-- `MakeLeaves()` (R118). -/
def makeLeaves (freq : Table Nat) : Forest :=
  let order := sortDescending freq.get (symbols freq)
  { node := order.map fun v => .leaf v (freq.get v), list := List.range order.length }

/-- The re-sort at the top of the tree build loop (R119, R120). -/
def resort (f : Forest) : Forest := { f with list := sortDescending (nodeFreq f.node) f.list }

/-- `Merge()` (R121): the last entry becomes the right child, the second-to-last the left child, and the new node
goes to the end of the list. -/
def merge (f : Forest) : Forest :=
  match f.list.reverse with
  | r :: l :: rest =>
    { node := f.node ++ [.internal l r (nodeFreq f.node l + nodeFreq f.node r)]
      list := rest.reverse ++ [f.node.length] }
  | _ => f

/-- The tree build loop (R119), by the number of turns still allowed; one turn shortens the list by one. -/
def mergeLoop : Nat → Forest → Forest
  | 0, f => f
  | k + 1, f => if 1 < f.list.length then mergeLoop k (merge (resort f)) else f

/-- `BuildTree()` as a function of `FREQ` (R119, R128). -/
def buildForest (freq : Table Nat) : Forest :=
  let f := makeLeaves freq
  mergeLoop f.list.length f

/-- `ROOT` after the build (R119, R122). -/
def rootOf (f : Forest) : Option Nat :=
  match f.list with
  | [n] => some n
  | _ => none

/-- Phase `H_BUILD`. -/
def buildPhase (s : State) : State :=
  let f := buildForest s.freq
  { s with phase := .hBuild, node := f.node, list := f.list, root := rootOf f }

/-- `Walk(n, path)` (R124). A child is older than its parent, so the arena's size bounds the depth. -/
def walk (node : List Node) : Nat → Nat → List Bool → Table (List Bool) → Table (List Bool)
  | 0, _, _, code => code
  | k + 1, n, path, code =>
    match node[n]? with
    | some (.leaf v _) => code.set v path
    | some (.internal l r _) => walk node k r (path ++ [true]) (walk node k l (path ++ [false]) code)
    | none => code

/-- `AssignCodes()` (R124) with the single-symbol case (R125) and the zero-symbol case (R126). -/
def assignCodes (node : List Node) (root : Option Nat) (code : Table (List Bool)) : Table (List Bool) :=
  match root with
  | none => code
  | some n =>
    match node[n]? with
    | some (.leaf v _) => code.set v [false]
    | _ => walk node node.length n [] code

/-- Phase `H_CODES`. -/
def codesPhase (s : State) : State :=
  { s with phase := .hCodes, code := assignCodes s.node s.root s.code }

/-- The code table as a function of the frequency table (R128). -/
def codeTable (freq : Table Nat) : Table (List Bool) :=
  let f := buildForest freq
  assignCodes f.node (rootOf f) (Vector.replicate 256 [])

end Sys2Proof.Machine
end

