-- ==== Sys2Proof/Machine/HufPack.lean ====
section
/-! DEFINITION. `HUF_PACK` (spec 43_huffman_pack.md R135 to R140): frequency count, tree, codes, header, bit-packed
payload, trailer. -/

namespace Sys2Proof.Machine

/-- One table entry of the header (R136): `symbolValue`, then `frequency`. -/
def emitEntry (s : State) (v : Byte) : Run State := do
  let s ← outByte v s
  writeInt32 (s.freq.get v) s

/-- `EmitHeader()` (R136), phase `H_HEADER_OUT`. -/
def headerOutPhase (s : State) : Run State := do
  let s ← writeInt32 s.nsym { s with phase := .hHeaderOut }
  (symbols s.freq).foldlM emitEntry s

/-- One turn of the encode loop (R137): the code of the next input byte, first symbol first. `IPOS` (R22) moves on when
the code is put, so not in a turn that raises (DESIGN CHOICE, notes/assumptions/7.md). -/
def encodeByte (s : State) (v : Byte) : Run State := do
  let s ← putBits (s.code.get v) s
  .ok { s with ipos := s.ipos + 1 }

/-- `EmitTrailer()` (R138). -/
def emitTrailer (s : State) : Run State := do
  let (pad, s) ← flushBits s
  outByte (BitVec.ofNat 8 pad) s

/-- `EncodePayload()` and `EmitTrailer()` (R137, R138), phase `H_ENCODE`. -/
def encodePhase (s : State) : Run State := do
  let s ← s.input.foldlM encodeByte { s with phase := .hEncode }
  emitTrailer s

/-- `HufPack()` (R135). -/
def hufPackEngine (s : State) : Run State := do
  let s ← headerOutPhase (codesPhase (buildPhase (countPhase s)))
  encodePhase s

/-- `HUF_PACK` (R135). -/
def execHufPack (s : State) : Host.Outcome State Fault Refusal := .next (dataCommand 0x00000001 hufPackEngine s)

end Sys2Proof.Machine
end

