-- ==== Sys2Proof/Machine/HufUnpack.lean ====
section
/-! DEFINITION. `HUF_UNPACK` (spec 44_huffman_unpack.md R150 to R159) and the three records of the Huffman container it
reads (30_encoding.md R66, R67, R69). What a record does when it is read is one operation, used by the command's loop and
by the record's own meaning (notes/assumptions/9.md). `IPOS` holds the address of the record the header reader takes next
(R22; DEDUCED, notes/assumptions/5.md). -/

namespace Sys2Proof.Machine

/-- What `symbolCount` does when it is read (R151): the range and length checks, then `NSYM`, `PBASE`, `PBYTES`. -/
def takeSymbolCount (n : Int) (s : State) : Run State :=
  if n < 0 ∨ 256 < n then raise .format s
  else if s.inLen.toNat < 4 + 5 * n.toNat + 1 then raise .format s
  else .ok { s with
    nsym := n.toNat, pbase := 4 + 5 * n.toNat, pbytes := s.inLen.toNat - 1 - (4 + 5 * n.toNat)
    reader := .paddingCount }

/-- What `paddingBitCount` does when it is read (R153); `PAD` is written after the checks (notes/assumptions/7.md). -/
def takePaddingCount (p : Byte) (s : State) : Run State :=
  if 7 < p.toNat then raise .format s
  else if s.pbytes = 0 ∧ p.toNat ≠ 0 then raise .format s
  else .ok { s with pad := p.toNat, useful := s.pbytes * 8 - p.toNat, reader := .tableEntries }

/-- What a table entry does when it is read (R152): duplicate check, then frequency check, then `FREQ[v] <- c`. -/
def takeTableEntry (v : Byte) (c : Int) (s : State) : Run State :=
  if s.freq.get v ≠ 0 then raise .format s
  else if c < 1 then raise .format s
  else .ok { s with freq := s.freq.set v c.toNat }

/-- The cursor move of reading `symbolCount`: the table starts at address 4 (R42). -/
def passSymbolCount (s : State) : State := { s with ipos := 4 }

/-- The cursor move of reading one table entry, 5 bytes (R67). -/
def passTableEntry (s : State) : State := { s with ipos := s.ipos + 5 }

/-- `ParseHeader()` with `ParseTrailer()` (R151, R153). -/
def parseHeader (s : State) : Run State := do
  let n ← readInt32 0 s
  let s ← takeSymbolCount n (passSymbolCount s)
  takePaddingCount (s.inByte (s.inLen.toNat - 1)) s

/-- One turn of `LoadTable()` (R152). -/
def loadEntry (s : State) : Run State := do
  let c ← readInt32 (s.ipos + 1) s
  takeTableEntry (s.inByte s.ipos) c (passTableEntry s)

/-- `LoadTable()` (R152), by the number of entries still to read. -/
def loadTable : Nat → State → Run State
  | 0, s => .ok s
  | k + 1, s => do
    let s ← loadEntry s
    loadTable k s

/-- Phase `H_HEADER_IN`. -/
def headerInPhase (s : State) : Run State := do
  let s ← parseHeader { s with phase := .hHeaderIn }
  loadTable s.nsym s

/-- The byte value whose code is the candidate (R155); at most one, the codes being distinct (R127). -/
def matchCode (code : Table (List Bool)) (cand : List Bool) : Option Byte :=
  allBytes.find? fun v => code.get v == cand

/-- One turn of the decode loop (R155). `BITPOS` moves on when the bit is read, also in a turn that raises (DESIGN CHOICE,
notes/assumptions/7.md). -/
def decodeBit (s : State) : Run State :=
  let s := { s with cand := s.cand ++ [getBit s s.pbase s.bitpos], bitpos := s.bitpos + 1 }
  match matchCode s.code s.cand with
  | some v => do
    let s ← outByte v s
    .ok { s with cand := [] }
  | none => if s.cand.length = 255 then raise .decode s else .ok s

/-- The decode loop, by the number of useful bits still to read, and the check for a dangling fragment (R155, R156). -/
def decodeBits : Nat → State → Run State
  | 0, s => if s.cand = [] then .ok s else raise .decode s
  | k + 1, s => do
    let s ← decodeBit s
    decodeBits k s

/-- `DecodePayload()` (R155, R156, R157), phase `H_DECODE`. -/
def decodePhase (s : State) : Run State :=
  decodeBits s.useful { s with phase := .hDecode, cand := [], bitpos := 0 }

/-- `HufUnpack()` (R150). -/
def hufUnpackEngine (s : State) : Run State := do
  let s ← headerInPhase s
  decodePhase (codesPhase (buildPhase s))

/-- `HUF_UNPACK` (R150). -/
def execHufUnpack (s : State) : Host.Outcome State Fault Refusal := .next (dataCommand 0x00000002 hufUnpackEngine s)

/-- `HUF_SYMBOLCOUNT`: what the header reader does with it (R66, R151). -/
def execHufSymbolCount (count : Word) (s : State) : Host.Outcome State Fault Refusal :=
  .next (settle (takeSymbolCount count.toInt s))

/-- `HUF_PADDING_COUNT`: what the header reader does with it (R69, R153). -/
def execHufPaddingCount (padding : Byte) (s : State) : Host.Outcome State Fault Refusal :=
  .next (settle (takePaddingCount padding s))

/-- `HUF_TABLE_ENTRY`: what the header reader does with it (R67, R152). -/
def execHufTableEntry (symbol : Byte) (frequency : Word) (s : State) : Host.Outcome State Fault Refusal :=
  .next (settle (takeTableEntry symbol frequency.toInt s))

end Sys2Proof.Machine
end

