-- ==== Sys2Proof/Machine/LzPack.lean ====
section
/-! DEFINITION. `LZ_PACK` (spec 45_lz77_pack.md R170 to R183): sliding window, match finder, triplet coder. -/

namespace Sys2Proof.Machine

/-- A match (R32): back-reference distance, matched length, and the literal that follows the run. -/
structure Match where
  offset : Nat
  length : Nat
  literal : Byte
  deriving DecidableEq, Repr

/-- `FirstOccurrence(hist, pat)` (R175): the smallest position at which `pat` stands wholly inside `hist`. -/
def firstOccurrence (pat : List Byte) : List Byte → Option Nat
  | [] => if pat = [] then some 0 else none
  | b :: hist => if pat.isPrefixOf (b :: hist) then some 0 else (firstOccurrence pat hist).map (· + 1)

/-- `SelfReferential(hist, look, i)` (R176). -/
def selfReferential (hist look : List Byte) (i : Nat) : Bool :=
  hist.drop (hist.length - i) == look.take i && look[i]? == look[0]?

/-- The whole-pattern increments of `Extend(look, i)` (R177), by the number of turns still allowed. -/
def extendWhole (look : List Byte) (i : Nat) : Nat → Nat → Nat
  | 0, l => l
  | k + 1, l =>
    if l + i ≤ look.length - 1 ∧ (look.drop l).take i = look.take i then extendWhole look i k (l + i) else l

/-- The partial-pattern increments of `Extend(look, i)` (R177), by the number of turns still allowed. -/
def extendPartial (look : List Byte) (i : Nat) : Nat → Nat → Nat
  | 0, l => l
  | k + 1, l => if l < look.length - 1 ∧ look[l]? = look[l % i]? then extendPartial look i k (l + 1) else l

/-- `Extend(look, i)` (R177). Each turn of either loop lengthens the match, so `len(look)` turns are enough. -/
def extend (look : List Byte) (i : Nat) : Nat :=
  extendPartial look i look.length (extendWhole look i look.length i)

/-- The position the candidate of length `i` is taken at (R174 to R176): the first occurrence, or the one that ends at
the end of the history when the pattern refers to itself. -/
def occurrence (hist look : List Byte) (i : Nat) : Option Nat :=
  match firstOccurrence (look.take i) hist with
  | none => none
  | some p => if selfReferential hist look i then some (hist.length - i) else some p

/-- One turn of the search (R174, R177, R178): a candidate at least as long as the best replaces it. -/
def considerLength (hist look : List Byte) (best : Match) (i : Nat) : Match :=
  match occurrence hist look i with
  | none => best
  | some p =>
    let l := if p + i = hist.length then extend look i else i
    if best.length ≤ l then
      { offset := hist.length - p, length := l, literal := look.getD l 0 }
    else best

/-- `findMaximumMatch(hist, look)` (R174); the sequencer calls it with `look` not empty. -/
def findMaximumMatch (hist look : List Byte) : Match :=
  (List.range' 1 (min (look.length - 1) hist.length)).foldl (considerLength hist look)
    { offset := 0, length := 0, literal := look.headD 0 }

/-- `CheckWindows()` (R171): the preview register, then the history register; both are latched. -/
def checkWindows (s : State) : Run State :=
  if s.cfgPreview.toNat < 1 ∨ s.params.previewCap < s.cfgPreview.toNat then raise .config s
  else if s.params.histCap < s.cfgHist.toNat then raise .config s
  else .ok { s with hMax := s.cfgHist.toNat, pMax := s.cfgPreview.toNat }

/-- The loop of `Refill()` (R173), by the number of turns still allowed. -/
def refillLoop : Nat → State → State
  | 0, s => s
  | k + 1, s =>
    if s.look.length < s.pMax ∧ s.ipos < s.inLen.toNat then
      refillLoop k { s with look := s.look ++ [s.inByte s.ipos], ipos := s.ipos + 1 }
    else s

/-- `Refill()` (R173). -/
def refill (s : State) : State := refillLoop (s.inLen.toNat - s.ipos) s

/-- The search of one turn, its result in the best-match registers (R32, R174). -/
def searchStep (s : State) : State :=
  let m := findMaximumMatch s.hist s.look
  { s with bestOff := m.offset, bestLen := m.length, bestLit := m.literal }

/-- `Slide(m)` (R179): append, trim the front to the latched `CFG_HIST`, drop from the lookahead. -/
def slide (m : Nat) (s : State) : State :=
  let hist := s.hist ++ s.look.take m
  { s with hist := hist.drop (hist.length - s.hMax), look := s.look.drop m }

/-- `EmitTriplet(off, lit, len)` (R180), in the field order of the stream (R71). -/
def emitTriplet (offset : Nat) (literal : Byte) (length : Nat) (s : State) : Run State := do
  let s ← writeInt32 offset s
  let s ← outByte literal s
  writeInt32 length s

/-- The part of a turn after the refill (R170): search, slide, emit. -/
def encodeTriplet (s : State) : Run State :=
  let s := searchStep s
  emitTriplet s.bestOff s.bestLit s.bestLen (slide (s.bestLen + 1) s)

/-- The encode loop (R170, R181), by the number of turns still allowed; each turn but the last consumes a byte. -/
def lzPackLoop : Nat → State → Run State
  | 0, s => .ok s
  | k + 1, s =>
    let s := refill s
    if s.look = [] then .ok s
    else do
      let s ← encodeTriplet s
      lzPackLoop k s

/-- `LzPack()` (R170). -/
def lzPackEngine (s : State) : Run State := do
  let s ← checkWindows s
  lzPackLoop (s.inLen.toNat + 1) { s with phase := .lEncode }

/-- `LZ_PACK` (R170). -/
def execLzPack (s : State) : Host.Outcome State Fault Refusal := .next (dataCommand 0x00000003 lzPackEngine s)

end Sys2Proof.Machine
end

