-- ==== Sys2Proof/Machine/LzUnpack.lean ====
section
/-! DEFINITION. `LZ_UNPACK` (spec 46_lz77_unpack.md R190 to R197) and the triplet record it expands (30_encoding.md
R71). What a triplet does is one operation, used by the command's loop and by the record's own meaning
(notes/assumptions/9.md). -/

namespace Sys2Proof.Machine

/-- `CheckStreamLength()` (R191), made in phase `L_DECODE` before any record is read. -/
def checkStreamLength (s : State) : Run State :=
  let s := { s with phase := .lDecode }
  if s.inLen.toNat % 9 ≠ 0 then raise .io s else .ok s

/-- `Copy(off, len)` (R193), by the number of bytes still to copy. Each byte read may be one this loop wrote. -/
def copyBack (off : Nat) : Nat → State → Run State
  | 0, s => .ok s
  | k + 1, s => do
    let s ← outByte (s.outByte (s.opos - off)) s
    copyBack off k s

/-- What a triplet does (R190, R192, R193, R194): the check, the copy if the length is positive, the literal. -/
def expandTriplet (off : Int) (literal : Byte) (len : Int) (s : State) : Run State :=
  if len < 0 ∨ off < 0 then raise .format s
  else if 0 < len ∧ (off < 1 ∨ (s.opos : Int) < off) then raise .format s
  else do
    let s ← copyBack off.toNat len.toNat s
    outByte literal s

/-- The cursor move of reading one record, 9 bytes (R190). -/
def passTriplet (s : State) : State := { s with ipos := s.ipos + 9 }

/-- One turn of the decode loop (R190). -/
def decodeOneTriplet (s : State) : Run State := do
  let off ← readInt32 s.ipos s
  let len ← readInt32 (s.ipos + 5) s
  expandTriplet off (s.inByte (s.ipos + 4)) len (passTriplet s)

/-- The decode loop, by the number of records still to read (R190; "runs `IN_LEN / 9` iterations", R240). -/
def lzUnpackLoop : Nat → State → Run State
  | 0, s => .ok s
  | k + 1, s => do
    let s ← decodeOneTriplet s
    lzUnpackLoop k s

/-- `LzUnpack()` (R190). -/
def lzUnpackEngine (s : State) : Run State := do
  let s ← checkStreamLength s
  lzUnpackLoop (s.inLen.toNat / 9) { s with ipos := 0 }

/-- `LZ_UNPACK` (R190). -/
def execLzUnpack (s : State) : Host.Outcome State Fault Refusal := .next (dataCommand 0x00000004 lzUnpackEngine s)

/-- `LZ_TRIPLET`: what the decoder does with it (R71, R192 to R194). -/
def execLzTriplet (offset : Word) (literal : Byte) (length : Word) (s : State) : Host.Outcome State Fault Refusal :=
  .next (settle (expandTriplet offset.toInt literal length.toInt s))

end Sys2Proof.Machine
end

