-- ==== Sys2Proof/Machine/Dispatch.lean ====
section
/-! DEFINITION. The dispatch: one arm per row of the opcode table (spec 41_archiver_contract_commands.md R98). -/

namespace Sys2Proof.Machine

/-- What an instruction does. -/
def exec (i : Instr) (s : State) : Host.Outcome State Fault Refusal :=
  match i with
  | .clear => Sys2Proof.Machine.execClear s
  | .hufPack => Sys2Proof.Machine.execHufPack s
  | .hufUnpack => Sys2Proof.Machine.execHufUnpack s
  | .lzPack => Sys2Proof.Machine.execLzPack s
  | .lzUnpack => Sys2Proof.Machine.execLzUnpack s
  | .hufSymbolCount count => Sys2Proof.Machine.execHufSymbolCount count s
  | .hufTableEntry symbol frequency => Sys2Proof.Machine.execHufTableEntry symbol frequency s
  | .hufPaddingCount padding => Sys2Proof.Machine.execHufPaddingCount padding s
  | .lzTriplet offset literal length => Sys2Proof.Machine.execLzTriplet offset literal length s

end Sys2Proof.Machine
end

