-- ==== Sys2Proof/Machine/Sequencer.lean ====
section
/-! DEFINITION. The sequencer between the `CMD` write and `IDLE` (spec 10_state.md R21, 41_archiver_contract_commands.md
R102): what one step does in each phase of a command in progress. A `CMD` write runs the whole command in one step
(R96), so no step from an idle state leaves the block in one of these phases; they are the unrolled command, and the
place where the stream records are fetched, decoded and executed one by one (notes/assumptions/6.md). -/

namespace Sys2Proof.Machine

/-- Go to the next phase (R102). -/
def State.setPhase (p : Phase) (s : State) : State := { s with phase := p }

/-- Fetch and run one record: `none` is a record cut short (`IoError`, R203), a record the decoder rejects is a
`FormatError` (R205), and a decoded one runs in the state whose cursor has passed it. -/
def runRecord (fetched : Option Fetched) (pass : State → State) (s : State) : Host.Outcome State Fault Refusal :=
  match fetched with
  | none => .next (s.enterError .io)
  | some f =>
    match decode s.params.endian f with
    | .ok i => exec i (pass s)
    | .error _ => .next ((pass s).enterError .format)

/-- `PROLOGUE` (R97, R98): clear, then decode the word; an illegal one raises `IllegalCommand` (R103). -/
def prologueStep (s : State) : State :=
  match decodeCommand s.cmdWord with
  | .error _ => s.prologue.enterError .illegalCommand
  | .ok .clear => s.prologue.setPhase .idle
  | .ok _ => s.prologue.setPhase .check

/-- `CHECK` (R101, R171, R191) and the branch to the engine of the command in progress (R102). -/
def checkStep (s : State) : Run State := do
  let s ← checkInput s
  match decodeCommand s.cmdWord with
  | .ok .hufPack => .ok (s.setPhase .hCount)
  | .ok .hufUnpack => .ok (s.setPhase .hHeaderIn)
  | .ok .lzPack => do
    let s ← checkWindows s
    .ok (s.setPhase .lEncode)
  | .ok .lzUnpack => do
    let s ← checkStreamLength s
    .ok { s with ipos := 0 }
  | _ => raise .illegalCommand s

/-- `H_HEADER_IN`: the next record of the container (R151, R153, R152). -/
def headerInStep (s : State) : Host.Outcome State Fault Refusal :=
  match s.reader with
  | .symbolCount =>
    runRecord (if s.inLen.toNat < 4 then none else some (.symbolCount (inBytes s 0 4))) passSymbolCount s
  | .paddingCount => runRecord (some (.paddingCount (s.inByte (s.inLen.toNat - 1)))) id s
  | .tableEntries =>
    if s.ipos < s.pbase then
      runRecord (if s.inLen.toNat < s.ipos + 5 then none else some (.tableEntry (inBytes s s.ipos 5))) passTableEntry s
    else .next (s.setPhase .hBuild)

/-- `H_CODES`, then the branch between the two Huffman commands (R102). -/
def codesStep (s : State) : State :=
  match decodeCommand s.cmdWord with
  | .ok .hufUnpack => (codesPhase s).setPhase .hDecode
  | _ => (codesPhase s).setPhase .hHeaderOut

/-- `L_ENCODE`: one turn of the encode loop (R170). -/
def lzEncodeStep (s : State) : State :=
  let s := refill s
  if s.look = [] then s.setPhase .epilogue else settle (encodeTriplet s)

/-- `L_DECODE`: the next record of the stream (R190). -/
def lzDecodeStep (s : State) : Host.Outcome State Fault Refusal :=
  if s.ipos < s.inLen.toNat then
    runRecord (if s.inLen.toNat < s.ipos + 9 then none else some (.triplet (inBytes s s.ipos 9))) passTriplet s
  else .next (s.setPhase .epilogue)

/-- Go to the next phase, or to `ERROR` if the phase raised an error. -/
def thenPhase (p : Phase) (r : Run State) : State :=
  settle (do
    let s ← r
    .ok (s.setPhase p))

/-- One step of a command in progress, by its phase (R102). -/
def sequencerStep (s : State) : Host.Outcome State Fault Refusal :=
  match s.phase with
  | .idle => .next s
  | .prologue => .next (prologueStep s)
  | .check => .next (settle (checkStep s))
  | .hCount => .next ((countPhase s).setPhase .hBuild)
  | .hBuild => .next ((buildPhase s).setPhase .hCodes)
  | .hCodes => .next (codesStep s)
  | .hHeaderOut => .next (thenPhase .hEncode (headerOutPhase s))
  | .hEncode => .next (thenPhase .epilogue (encodePhase s))
  | .hHeaderIn => headerInStep s
  | .hDecode => .next (thenPhase .epilogue (decodePhase s))
  | .lEncode => .next (lzEncodeStep s)
  | .lDecode => lzDecodeStep s
  | .epilogue => .next s.epilogue
  | .error e => .next (s.errorWrites e)

end Sys2Proof.Machine
end

