-- ==== Sys2Proof/Machine/Fetch.lean ====
section
/-! DEFINITION. Placing an instruction where the next step fetches it. A command word is a pending `CMD` write of the
host; a stream record stands in `IN` at the place its command's reader has reached, with the command in progress (spec
41_archiver_contract_commands.md R95, R102; 44_huffman_unpack.md R151 to R153; 46_lz77_unpack.md R190). -/

namespace Sys2Proof.Machine

/-- Store a run of bytes in `IN` from an address on, as the host's byte writes do (R41). -/
def placeBytes (a : Nat) (bytes : List Byte) (s : State) : State :=
  { s with inBuf := (bytes.zipIdx a).foldl (fun m c => Memory.write m c.2 c.1) s.inBuf }

/-- The number of bytes a container with the `symbolCount` in `bytes` has at least (R66), so that placing one alone does
not make a well-formed count fail its length check. -/
def containerFloor (e : Endian) (bytes : List Byte) : Nat :=
  match decodeSymbolCount e bytes with
  | .ok (.hufSymbolCount n) => if symbolCountOk n then 4 + 5 * n.toNat + 1 else 5
  | _ => 5

/-- Make a fetched instruction the next thing the machine runs. -/
def placeFetched (f : Fetched) (s : State) : State :=
  match f with
  | .command w => { s with phase := .idle, host := .writeReg 0 w :: s.host }
  | .symbolCount bytes =>
    { placeBytes 0 bytes s with
      phase := .hHeaderIn, cmdWord := 0x00000002, reader := .symbolCount
      inLen := BitVec.ofNat 32 (containerFloor s.params.endian bytes) }
  | .paddingCount b =>
    { placeBytes 5 [b] s with
      phase := .hHeaderIn, cmdWord := 0x00000002, reader := .paddingCount, inLen := 6, ipos := 4
      nsym := 0, pbase := 4, pbytes := 1 }
  | .tableEntry bytes =>
    { placeBytes 4 bytes s with
      phase := .hHeaderIn, cmdWord := 0x00000002, reader := .tableEntries, inLen := 10, ipos := 4
      nsym := 1, pbase := 9, pbytes := 0 }
  | .triplet bytes =>
    { placeBytes 0 bytes s with phase := .lDecode, cmdWord := 0x00000004, inLen := 9, ipos := 0 }

end Sys2Proof.Machine
end

