-- ==== Sys2Proof/Machine/HostAccess.lean ====
section
/-! DEFINITION. The host interface: what one host access or the reset event does (spec 10_state.md R11 to R19, R35;
20_memory.md R41; 70_reset_and_hazards.md R230, R236). The host is the block's only outside world: there are no
interrupts, no other agents and no privilege levels (60_exceptions.md R212, R213). -/

namespace Sys2Proof.Machine

/-- A host read of a register (R11, R12, R35): `CMD` and every reserved index read 0. -/
def State.register (s : State) : Nat → Word
  | 1 => s.status
  | 2 => s.cfgHist
  | 3 => s.cfgPreview
  | 4 => s.inLen
  | 5 => s.outLen
  | _ => 0

/-- A host write of a register other than `CMD` (R11, R35): a read-only or reserved one is not changed. -/
def State.writeRegister (index : Nat) (v : Word) (s : State) : State :=
  match index with
  | 2 => { s with cfgHist := v }
  | 3 => { s with cfgPreview := v }
  | 4 => { s with inLen := v }
  | _ => s

/-- A host read the spec gives no value: a free value, a fresh one each time (R41, U1, U2, U5). -/
def State.readUnspecified (s : State) : State :=
  { s with byteRead := Config.freeByte s.freeReads, freeReads := s.freeReads + 1 }

/-- A host read of `IN[a]` (R18, R41). -/
def State.hostReadIn (a : Nat) (s : State) : State :=
  if a < s.params.inCap then
    match Memory.read? s.inBuf a with
    | some b => { s with byteRead := b }
    | none => s.readUnspecified
  else s.readUnspecified

/-- A host read of `OUT[a]` (R19, R41): only `OUT[0 .. OUT_LEN)` has a value. -/
def State.hostReadOut (a : Nat) (s : State) : State :=
  if a < s.outLen.toNat then { s with byteRead := s.outByte a } else s.readUnspecified

/-- A host write of `IN[a]` (R18, R41): refused beyond the buffer. -/
def State.hostWriteIn (a : Nat) (b : Byte) (s : State) : State :=
  if a < s.params.inCap then { s with inBuf := Memory.write s.inBuf a b } else s

/-- The reset event (R230, U4): the reset values, buffers unspecified anew; the host keeps what it has read and what
it is still going to do (DESIGN CHOICE, notes/assumptions/12.md). -/
def State.hardReset (s : State) : State :=
  { State.resetWith s.params with
    host := s.host, regRead := s.regRead, byteRead := s.byteRead, epoch := s.epoch + 1, freeReads := s.freeReads }

/-- A write of `CMD` (R12, R95, R96): the whole command, in one step. -/
def issue (w : Word) (s : State) : Host.Outcome State Fault Refusal :=
  match decodeCommand w with
  | .ok i => exec i s
  | .error _ => .next (illegalCommand w s)

/-- One host action. -/
def hostAction (a : HostAction) (s : State) : Host.Outcome State Fault Refusal :=
  match a with
  | .writeReg 0 w => issue w s
  | .writeReg index w => .next (s.writeRegister index w)
  | .readReg index => .next { s with regRead := s.register index }
  | .writeIn addr b => .next (s.hostWriteIn addr b)
  | .readIn addr => .next (s.hostReadIn addr)
  | .writeOut _ _ => .next s
  | .readOut addr => .next (s.hostReadOut addr)
  | .reset => .next s.hardReset

/-- One step of an idle block: the next host action; with none pending the block stays idle
(notes/assumptions/13.md). -/
def hostStep (s : State) : Host.Outcome State Fault Refusal :=
  match s.host with
  | [] => .next s
  | a :: rest => hostAction a { s with host := rest }

end Sys2Proof.Machine
end

