-- ==== Sys2Proof/Machine/Step.lean ====
section
/-! DEFINITION. The step: an idle block takes the next host action, a command in progress takes its next phase (spec
20_memory.md R49, "a single interleaving that alternates host acts and one whole command runs"). -/

namespace Sys2Proof.Machine

/-- One step of the machine. -/
def step (s : State) : Host.Outcome State Fault Refusal :=
  if s.phase = .idle then hostStep s else sequencerStep s

/-- The state whose very next step runs the instruction a row of the opcode table holds (notes/assumptions/8.md). -/
def State.withFetchWord (s : State) (nbits w : Nat) : State :=
  match tableFetched nbits w with
  | none => s
  | some f => placeFetched f s

end Sys2Proof.Machine
end

