-- ==== Sys2Proof/Safety.lean ====
section
/-! DEFINITION. What the statements are said in: the invariant of the block, how a command ends, what no command writes,
and the spec's own functional summaries on byte sequences (43_huffman_pack.md R141, 45_lz77_pack.md R184, 46_lz77_unpack.md
R190 to R194, and the layouts of 20_memory.md R42). The summaries are written from those rules, not from the machine's
loops, so that a statement which compares the two says something. -/

namespace Sys2Proof

/-- The five commands (R62). -/
def Instr.isCommand : Instr → Bool
  | .clear | .hufPack | .hufUnpack | .lzPack | .lzUnpack => true
  | .hufSymbolCount _ | .hufTableEntry _ _ | .hufPaddingCount _ | .lzTriplet _ _ _ => false

/-- The four data commands (R98). -/
def Instr.isData : Instr → Bool
  | .hufPack | .hufUnpack | .lzPack | .lzUnpack => true
  | .clear | .hufSymbolCount _ | .hufTableEntry _ _ | .hufPaddingCount _ | .lzTriplet _ _ _ => false

/-- Which errors each command can end with (R200, column "raised by"). -/
def Instr.mayRaise : Instr → List Machine.CodecError
  | .hufPack => [.config, .capacity]
  | .hufUnpack => [.config, .io, .format, .decode, .capacity]
  | .lzPack => [.config, .capacity]
  | .lzUnpack => [.config, .io, .format, .capacity]
  | .clear | .hufSymbolCount _ | .hufTableEntry _ _ | .hufPaddingCount _ | .lzTriplet _ _ _ => []

/-- The path of `PHASE` of each command from `PROLOGUE` on, when nothing is raised (R102, the table). -/
def Instr.phasePath : Instr → List Machine.Phase
  | .clear => [.prologue, .idle]
  | .hufPack => [.prologue, .check, .hCount, .hBuild, .hCodes, .hHeaderOut, .hEncode, .epilogue, .idle]
  | .hufUnpack => [.prologue, .check, .hHeaderIn, .hBuild, .hCodes, .hDecode, .epilogue, .idle]
  | .lzPack => [.prologue, .check, .lEncode, .epilogue, .idle]
  | .lzUnpack => [.prologue, .check, .lDecode, .epilogue, .idle]
  | .hufSymbolCount _ | .hufTableEntry _ _ | .hufPaddingCount _ | .lzTriplet _ _ _ => []

end Sys2Proof

namespace Sys2Proof.Machine

/-! ### The invariant -/

/-- What holds between any two steps of the block. -/
structure Inv (s : State) : Prop where
  /-- The parameters are ones a block can be built with (R6). -/
  params : s.params.wf = true
  /-- `IN` and `OUT` keep their canonical form and list no byte beyond their capacity (R40). -/
  inBuf : Memory.wf s.inBuf = true ∧ Memory.within s.inBuf s.params.inCap = true
  outBuf : Memory.wf s.outBuf = true ∧ Memory.within s.outBuf s.params.outCap = true
  /-- `OPOS` is 0 to `OUT_CAP` (R22) and `OUT_LEN` never passes the buffer. -/
  opos : s.opos ≤ s.params.outCap
  outLen : s.outLen.toNat ≤ s.params.outCap
  /-- `STATUS` holds one of the words of R200. -/
  status : statusLegal s.status = true
  /-- After an error there is no valid output (R17, R204). -/
  noPartial : statusErr s.status = true → s.outLen = 0
  /-- Past its prologue a command in progress has `STATUS` and `OUT_LEN` at 0 (R97), until error entry or the epilogue. -/
  running : s.phase ≠ .idle → s.phase ≠ .prologue → s.status = 0 ∧ s.outLen = 0
  /-- In the phases before the payload is packed and in that one, `NBITS` is below 8 (R28). A raise by the `out_byte` of
  `put_bit` (R85) leaves the eighth bit counted. -/
  packer : s.phase ≠ .idle → s.phase ≠ .prologue → (∀ e, s.phase ≠ .error e) → s.nbits < 8
  /-- The bytes below `OPOS` and below `OUT_LEN` were written by the command (R19, R22). -/
  written : ∀ a, a < s.opos ∨ a < s.outLen.toNat → (Memory.read? s.outBuf a).isSome = true

/-! ### How a command ends -/

/-- The `STATUS` word of each error (R200, the table's last column). -/
def errorWord : CodecError → Word
  | .illegalCommand => 0x00000013
  | .config => 0x00000023
  | .io => 0x00000033
  | .format => 0x00000043
  | .decode => 0x00000053
  | .capacity => 0x00000063

/-- What no command writes (R36): the parameters, the configuration registers, `IN_LEN`, `IN`, and the host's side. -/
structure Kept (s t : State) : Prop where
  params : t.params = s.params
  cfgHist : t.cfgHist = s.cfgHist
  cfgPreview : t.cfgPreview = s.cfgPreview
  inLen : t.inLen = s.inLen
  inBuf : t.inBuf = s.inBuf
  host : t.host = s.host
  regRead : t.regRead = s.regRead
  byteRead : t.byteRead = s.byteRead
  epoch : t.epoch = s.epoch
  freeReads : t.freeReads = s.freeReads

/-- The command runs and succeeds with output `out`: `STATUS = 0x00000001`, `OUT_LEN` and `OUT[0 .. OUT_LEN)` are the
output (R99), `IN` and the configuration are as they were, and no byte of `OUT` at or beyond `OUT_LEN` was stored to
(R19). -/
def Succeeds (i : Instr) (s : State) (out : List Byte) : Prop :=
  ∃ t, exec i s = .next t ∧ t.phase = .idle ∧ t.status = 0x00000001 ∧ t.outLen.toNat = out.length ∧ t.output = out
    ∧ Kept s t ∧ ∀ a, out.length ≤ a → Memory.read? t.outBuf a = Memory.read? s.outBuf a

/-- The command runs and ends with error `e` (R204): its `STATUS` word, `OUT_LEN = 0`, `IN` and the configuration as
they were. -/
def Fails (i : Instr) (s : State) (e : CodecError) : Prop :=
  ∃ t, exec i s = .next t ∧ t.phase = .idle ∧ t.status = errorWord e ∧ t.outLen = 0 ∧ Kept s t

/-- The record raises `e`: `PHASE` moves to `ERROR` with nothing stored to `OUT` below `OPOS`, and the next step makes
error entry (R102, R204). What is left in transient state is not said (U3). -/
def Traps (i : Instr) (s : State) (e : CodecError) : Prop :=
  ∃ t u, exec i s = .next t ∧ t.phase = .error e ∧ step t = .next u
    ∧ u.phase = .idle ∧ u.status = errorWord e ∧ u.outLen = 0 ∧ Kept s u
    ∧ ∀ a, a < s.opos → Memory.read? u.outBuf a = Memory.read? s.outBuf a

/-! ### The Huffman container -/

/-- The frequency table and the code table of an empty engine (R97). -/
def noCounts : Table Nat := Vector.replicate 256 0

/-- The code stream of a byte sequence (R68, R137): each byte's code, first symbol first. -/
def payloadBits (code : Table (List Bool)) (bytes : List Byte) : List Bool := bytes.flatMap code.get

/-- A byte from eight bits, bit 0 first (R44). -/
def byteOfBits (bits : List Bool) : Byte :=
  BitVec.ofNat 8 (((List.range 8).map fun j => if bits.getD j false then 2 ^ j else 0).sum)

/-- A bit sequence whose length is a multiple of 8 cut into bytes (R44, R68). -/
def packBits (bits : List Bool) : List Byte :=
  (List.range (bits.length / 8)).map fun k => byteOfBits ((bits.drop (8 * k)).take 8)

/-- `HufEncode(B)` (R141). -/
def hufEncode (e : Endian) (bytes : List Byte) : List Byte :=
  let freq := countBytes noCounts bytes
  let bits := payloadBits (codeTable freq) bytes
  let pad := (8 - bits.length % 8) % 8
  int32Bytes e (BitVec.ofNat 32 (symbols freq).length)
    ++ (symbols freq).flatMap (fun v => v :: int32Bytes e (BitVec.ofNat 32 (freq.get v)))
    ++ packBits (bits ++ List.replicate pad true)
    ++ [BitVec.ofNat 8 pad]

/-- The int32 in the four bytes of `IN` at `a` (R64). -/
def int32At (s : State) (a : Nat) : Int :=
  (int32Pattern s.params.endian (s.inByte a) (s.inByte (a + 1)) (s.inByte (a + 2)) (s.inByte (a + 3))).toInt

/-- The fields of the container in `IN[0 .. IN_LEN)` (R42). -/
def containerCount (s : State) : Int := int32At s 0
def entrySymbol (s : State) (k : Nat) : Byte := s.inByte (4 + 5 * k)
def entryFrequency (s : State) (k : Nat) : Int := int32At s (5 + 5 * k)
def containerPadding (s : State) : Nat := (s.inByte (s.inLen.toNat - 1)).toNat

/-- The container passes every check on its header, table and trailer (R151, R152, R153; R205's list negated). -/
def containerOk (s : State) : Bool :=
  decide (0 ≤ containerCount s ∧ containerCount s ≤ 256
    ∧ 4 + 5 * (containerCount s).toNat + 1 ≤ s.inLen.toNat
    ∧ containerPadding s < 8
    ∧ (s.inLen.toNat = 4 + 5 * (containerCount s).toNat + 1 → containerPadding s = 0)
    ∧ (∀ k, k < (containerCount s).toNat → 1 ≤ entryFrequency s k)
    ∧ (∀ k, k < (containerCount s).toNat → ∀ j, j < k → entrySymbol s j ≠ entrySymbol s k))

/-- The frequency table the container stores (R67, R152). -/
def containerTable (s : State) : Table Nat :=
  (List.range (containerCount s).toNat).foldl
    (fun t k => t.set (entrySymbol s k) (entryFrequency s k).toNat) noCounts

/-- The meaningful payload bits of the container, in order (R44, R69, R153). -/
def containerBits (s : State) : List Bool :=
  let base := 4 + 5 * (containerCount s).toNat
  (List.range ((s.inLen.toNat - 1 - base) * 8 - containerPadding s)).map fun k =>
    (s.inByte (base + k / 8)).getLsbD (k % 8)

/-- Every byte of the sequence is a symbol of the table (R117). -/
def allSymbols (freq : Table Nat) (bytes : List Byte) : Prop := ∀ v ∈ bytes, 0 < freq.get v

/-! ### The LZ77 stream -/

/-- The triplets of `LzEncode(B, H_MAX, P_MAX)` from position `pos` on (R184), by the number still allowed. -/
def lzTripletsFrom (hMax pMax : Nat) (bytes : List Byte) : Nat → Nat → List Match
  | 0, _ => []
  | k + 1, pos =>
    if pos < bytes.length then
      let m := findMaximumMatch ((bytes.take pos).drop (pos - hMax)) ((bytes.drop pos).take pMax)
      m :: lzTripletsFrom hMax pMax bytes k (pos + m.length + 1)
    else []

/-- The triplets of `LzEncode(B, H_MAX, P_MAX)` (R184); each consumes at least one byte. -/
def lzTriplets (hMax pMax : Nat) (bytes : List Byte) : List Match := lzTripletsFrom hMax pMax bytes bytes.length 0

/-- The 9 bytes of a triplet (R71). -/
def tripletBytes (e : Endian) (m : Match) : List Byte :=
  int32Bytes e (BitVec.ofNat 32 m.offset) ++ m.literal :: int32Bytes e (BitVec.ofNat 32 m.length)

/-- `LzEncode(B, H_MAX, P_MAX)` (R184). -/
def lzEncode (e : Endian) (hMax pMax : Nat) (bytes : List Byte) : List Byte :=
  (lzTriplets hMax pMax bytes).flatMap (tripletBytes e)

/-- The window registers are legal for `LZ_PACK` (R14, R15, R171). -/
def windowsOk (s : State) : Bool :=
  decide (1 ≤ s.cfgPreview.toNat ∧ s.cfgPreview.toNat ≤ s.params.previewCap ∧ s.cfgHist.toNat ≤ s.params.histCap)

/-- `n` times the byte `off` places before the end (R193). -/
def copyOut (off : Nat) : Nat → List Byte → List Byte
  | 0, out => out
  | k + 1, out => copyOut off k (out ++ [out.getD (out.length - off) 0])

/-- The output a run of triplets stands for, after `out` (R182 (f), R190): the back-referenced span, then the literal. -/
def expandAll : List Match → List Byte → List Byte
  | [], out => out
  | m :: ms, out => expandAll ms (copyOut m.offset m.length out ++ [m.literal])

/-- A triplet record as it stands in a stream: the three fields, read (R71). -/
structure RawTriplet where
  offset : Int
  literal : Byte
  length : Int
  deriving DecidableEq, Repr

/-- The triplets of the stream in `IN[0 .. IN_LEN)` (R42). -/
def streamTriplets (s : State) : List RawTriplet :=
  (List.range (s.inLen.toNat / 9)).map fun k =>
    { offset := int32At s (9 * k), literal := s.inByte (9 * k + 4), length := int32At s (9 * k + 5) }

/-- R192: the record is refused. -/
def tripletBad (t : RawTriplet) (decoded : Nat) : Bool :=
  decide (t.length < 0 ∨ t.offset < 0 ∨ (0 < t.length ∧ (t.offset < 1 ∨ (decoded : Int) < t.offset)))

/-- What decoding a stream into a buffer of `cap` bytes gives (R190 to R194, R209 item 5). -/
def expandStream (cap : Nat) : List RawTriplet → List Byte → Except CodecError (List Byte)
  | [], out => .ok out
  | t :: ts, out =>
    if tripletBad t out.length then .error .format
    else if cap < out.length + t.length.toNat + 1 then .error .capacity
    else expandStream cap ts (copyOut t.offset.toNat t.length.toNat out ++ [t.literal])

/-- A candidate of the match search (R174, R177): its length at `i`, given where it was found. -/
def candidateLength (hist look : List Byte) (i p : Nat) : Nat := if p + i = hist.length then extend look i else i

end Sys2Proof.Machine
end

