-- ==== Sys2Proof/Certificates/Slice0/Obligations.lean ====
section
/-! DEFINITION. The statements for the provers, each from numbered rules of the spec. How a command ends is said with
`Succeeds` and `Fails` of Sys2Proof/Safety.lean, which hold the answer of `exec`, the flags, the result and the frame. -/

open Sys2Proof Sys2Proof.Machine

/-! ### Reset and the host interface -/

/-- R37, R230: the reset values, for every choice of the parameters, and the two window registers of this hardware. -/
def Obligations.ResetHoldsTheSpecValues : Prop :=
  (∀ p : Params, p.wf = true →
    (State.resetWith p).status = 0 ∧ (State.resetWith p).outLen = 0 ∧ (State.resetWith p).inLen = 0
      ∧ (State.resetWith p).cfgHist.toNat = p.resetHist ∧ (State.resetWith p).cfgPreview.toNat = p.resetPreview
      ∧ (State.resetWith p).register 0 = 0 ∧ (State.resetWith p).phase = .idle
      ∧ (State.resetWith p).ipos = 0 ∧ (State.resetWith p).opos = 0
      ∧ (State.resetWith p).nsym = 0 ∧ (State.resetWith p).node = [] ∧ (State.resetWith p).list = []
      ∧ (State.resetWith p).root = none
      ∧ (∀ v, (State.resetWith p).freq.get v = 0 ∧ (State.resetWith p).code.get v = [])
      ∧ (State.resetWith p).acc = 0 ∧ (State.resetWith p).nbits = 0
      ∧ (State.resetWith p).pbase = 0 ∧ (State.resetWith p).pbytes = 0 ∧ (State.resetWith p).pad = 0
      ∧ (State.resetWith p).useful = 0 ∧ (State.resetWith p).bitpos = 0 ∧ (State.resetWith p).cand = []
      ∧ (State.resetWith p).hist = [] ∧ (State.resetWith p).look = []
      ∧ (State.resetWith p).bestOff = 0 ∧ (State.resetWith p).bestLen = 0 ∧ (State.resetWith p).bestLit = 0
      ∧ (∀ a, Memory.read? (State.resetWith p).inBuf a = none ∧ Memory.read? (State.resetWith p).outBuf a = none))
    ∧ State.reset.cfgHist = 4096 ∧ State.reset.cfgPreview = 5120

/-- The invariant holds after reset, for every legal choice of the parameters (R6, R37). -/
def Obligations.ResetMeetsTheInvariant : Prop :=
  (∀ p : Params, p.wf = true → Inv (State.resetWith p)) ∧ Inv State.reset

/-- R230: the reset event brings the registers to their reset values, forgets both buffers and keeps the parameters.
That `IN` is forgotten and that the host's pending actions stay is the model's choice (notes/assumptions/12.md). -/
def Obligations.HardwareResetEvent : Prop :=
  ∀ (s : State) (rest : List HostAction), s.params.wf = true → s.phase = .idle → s.host = .reset :: rest →
    ∃ t, step s = .next t ∧ t.params = s.params ∧ t.host = rest ∧ t.phase = .idle
      ∧ t.register 0 = 0 ∧ t.status = 0 ∧ t.outLen = 0 ∧ t.inLen = 0
      ∧ t.cfgHist.toNat = s.params.resetHist ∧ t.cfgPreview.toNat = s.params.resetPreview
      ∧ t.ipos = 0 ∧ t.opos = 0 ∧ t.nsym = 0 ∧ t.node = [] ∧ t.list = [] ∧ t.root = none
      ∧ (∀ v, t.freq.get v = 0 ∧ t.code.get v = []) ∧ t.acc = 0 ∧ t.nbits = 0
      ∧ t.pbase = 0 ∧ t.pbytes = 0 ∧ t.pad = 0 ∧ t.useful = 0 ∧ t.bitpos = 0 ∧ t.cand = []
      ∧ t.hist = [] ∧ t.look = [] ∧ t.bestOff = 0 ∧ t.bestLen = 0 ∧ t.bestLit = 0
      ∧ ∀ a, Memory.read? t.inBuf a = none ∧ Memory.read? t.outBuf a = none

/-- R11, R12, R35: what a host read of each register index returns, and that it changes nothing else. -/
def Obligations.HostReadsRegisters : Prop :=
  ∀ (s : State) (rest : List HostAction) (index : Nat), s.phase = .idle → s.host = .readReg index :: rest →
    step s = .next { s with
      host := rest
      regRead := if index = 1 then s.status else if index = 2 then s.cfgHist else if index = 3 then s.cfgPreview
        else if index = 4 then s.inLen else if index = 5 then s.outLen else 0 }

/-- R11, R14, R15, R16, R35: a host write other than to `CMD` stores into the three read/write registers and does
nothing at a read-only or reserved index. -/
def Obligations.HostWritesRegisters : Prop :=
  ∀ (s : State) (rest : List HostAction) (index : Nat) (w : Word), s.phase = .idle → index ≠ 0 →
    s.host = .writeReg index w :: rest →
    step s = .next { s with
      host := rest
      cfgHist := if index = 2 then w else s.cfgHist
      cfgPreview := if index = 3 then w else s.cfgPreview
      inLen := if index = 4 then w else s.inLen }

/-- R18, R41: a host write of `IN[a]` stores that byte and no other, and nothing when the address is beyond the buffer;
a later host read of a byte that was written returns it. -/
def Obligations.HostAccessesInput : Prop :=
  (∀ (s : State) (rest : List HostAction) (a : Nat) (b : Byte), s.phase = .idle → s.host = .writeIn a b :: rest →
    ∃ t, step s = .next t ∧ t = { s with host := rest, inBuf := t.inBuf }
      ∧ ∀ x, Memory.read? t.inBuf x
          = if x = a ∧ a < s.params.inCap then some b else Memory.read? s.inBuf x)
  ∧ (∀ (s : State) (rest : List HostAction) (a : Nat) (b : Byte), s.phase = .idle → s.host = .readIn a :: rest →
      a < s.params.inCap → Memory.read? s.inBuf a = some b →
      step s = .next { s with host := rest, byteRead := b })

/-- R19, R35, R41: a host read of `OUT[a]` below `OUT_LEN` returns the byte the command wrote there; a host write of
`OUT` changes nothing. -/
def Obligations.HostAccessesOutput : Prop :=
  (∀ (s : State) (rest : List HostAction) (a : Nat) (b : Byte), s.phase = .idle → s.host = .readOut a :: rest →
    a < s.outLen.toNat → Memory.read? s.outBuf a = some b →
    step s = .next { s with host := rest, byteRead := b })
  ∧ (∀ (s : State) (rest : List HostAction) (a : Nat) (b : Byte), s.phase = .idle → s.host = .writeOut a b :: rest →
      step s = .next { s with host := rest })

/-- R41 with U1, U2 and U5 of 93_implementation_defined.md: where the spec gives a host read no value, the read returns
a fresh free value and changes nothing else of the block. That it is fresh at each read is the model's choice
(notes/assumptions/3.md). -/
def Obligations.HostReadsWithoutValueAreFree : Prop :=
  ∀ (s : State) (rest : List HostAction) (a : Nat), s.phase = .idle →
    ((s.host = .readOut a :: rest ∧ s.outLen.toNat ≤ a)
      ∨ (s.host = .readIn a :: rest ∧ (s.params.inCap ≤ a ∨ Memory.read? s.inBuf a = none))) →
    step s = .next { s with
      host := rest, byteRead := Config.freeByte s.freeReads, freeReads := s.freeReads + 1 }

/-! ### The step -/

/-- R12, R95, R98: a host write of a legal command word runs that command, in the state whose host queue has moved on. -/
def Obligations.StepRunsTheCommandWritten : Prop :=
  ∀ (s : State) (rest : List HostAction) (w : Word) (i : Instr), s.phase = .idle → s.host = .writeReg 0 w :: rest →
    decode s.params.endian (.command w) = .ok i →
    step s = exec i { s with host := rest }

/-- R22, R151, R152, R153, R190: a command in progress fetches the stream record at its place, moves the cursor past it
and runs it. The order of the fetches in `H_HEADER_IN` is kept in the model's own field `reader`
(notes/assumptions/5.md). -/
def Obligations.StepRunsTheStreamRecord : Prop :=
  (∀ (s : State) (i : Instr), s.phase = .hHeaderIn → s.reader = .symbolCount → 4 ≤ s.inLen.toNat →
    decode s.params.endian (.symbolCount (inBytes s 0 4)) = .ok i →
    step s = exec i { s with ipos := 4 })
  ∧ (∀ (s : State) (i : Instr), s.phase = .hHeaderIn → s.reader = .paddingCount →
    decode s.params.endian (.paddingCount (s.inByte (s.inLen.toNat - 1))) = .ok i →
    step s = exec i s)
  ∧ (∀ (s : State) (i : Instr), s.phase = .hHeaderIn → s.reader = .tableEntries → s.ipos < s.pbase →
    s.ipos + 5 ≤ s.inLen.toNat →
    decode s.params.endian (.tableEntry (inBytes s s.ipos 5)) = .ok i →
    step s = exec i { s with ipos := s.ipos + 5 })
  ∧ (∀ (s : State) (i : Instr), s.phase = .lDecode → s.ipos + 9 ≤ s.inLen.toNat →
    decode s.params.endian (.triplet (inBytes s s.ipos 9)) = .ok i →
    step s = exec i { s with ipos := s.ipos + 9 })

/-- R96, R240: every step answers a next state, and a step of an idle block ends idle, so no command is ever seen in
progress. -/
def Obligations.StepsAnswerAndCommandsAreAtomic : Prop :=
  (∀ s : State, ∃ t, step s = .next t) ∧ (∀ s t : State, s.phase = .idle → step s = .next t → t.phase = .idle)

/-- R102 with R96: the phases of R102, taken one step each from the `CMD` write on, reach exactly the state the atomic
command answers, for every command word, legal or not. On the way a step goes on to the next phase of the command's path,
stays in one of the three phases that are loops over records, or moves to `ERROR`; an illegal word goes from `PROLOGUE` to
`ERROR`; and `ERROR` makes error entry (R204) and goes to `IDLE`. That a phase, a record or a triplet is a step of its own,
and that `ERROR` holds the error raised, is the model's choice (notes/assumptions/6.md). -/
def Obligations.PhaseStepsReachTheCommandsResult : Prop :=
  (∀ (w : Word) (s : State), s.phase = .idle →
    ∃ k, Host.Core.run Sys2Proof.core k (s.start w) = issue w s)
  ∧ (∀ (s t : State) (i : Instr), decodeCommand s.cmdWord = .ok i → s.phase ∈ i.phasePath → s.phase ≠ .idle →
      step s = .next t →
      t.cmdWord = s.cmdWord
        ∧ ([s.phase, t.phase] <:+: i.phasePath
          ∨ (t.phase = s.phase ∧ s.phase ∈ [Phase.hHeaderIn, .lEncode, .lDecode])
          ∨ ∃ e, t.phase = .error e))
  ∧ (∀ s t : State, (∀ i, decodeCommand s.cmdWord ≠ .ok i) → s.phase = .prologue → step s = .next t →
      t.phase = .error .illegalCommand)
  ∧ ∀ (s t : State) (e : CodecError), s.phase = .error e → step s = .next t →
      t.phase = .idle ∧ t.status = errorWord e ∧ t.outLen = 0 ∧ t.outBuf = s.outBuf ∧ Kept s t

/-- R13, R17, R19: `STATUS`, `OUT_LEN` and `OUT` change only by a command or by reset: no other host action touches them. -/
def Obligations.OnlyCommandsChangeTheResult : Prop :=
  ∀ s t : State, s.phase = .idle → step s = .next t →
    (∀ w rest, s.host ≠ .writeReg 0 w :: rest) → (∀ rest, s.host ≠ .reset :: rest) →
    t.status = s.status ∧ t.outLen = s.outLen ∧ t.outBuf = s.outBuf

/-- R14, R15, R16, R18, R36: no command, in one step or phase by phase, writes the configuration registers, `IN_LEN` or
`IN`; only a host access to them or reset does. -/
def Obligations.OnlyTheHostChangesTheOperands : Prop :=
  ∀ s t : State, step s = .next t →
    (s.phase = .idle → ∀ rest, s.host ≠ .reset :: rest
      ∧ (∀ w, s.host ≠ .writeReg 2 w :: rest) ∧ (∀ w, s.host ≠ .writeReg 3 w :: rest)
      ∧ (∀ w, s.host ≠ .writeReg 4 w :: rest) ∧ (∀ a b, s.host ≠ .writeIn a b :: rest)) →
    t.params = s.params ∧ t.cfgHist = s.cfgHist ∧ t.cfgPreview = s.cfgPreview ∧ t.inLen = s.inLen
      ∧ t.inBuf = s.inBuf

/-- Every step keeps the invariant, from every state that meets it (R6, R13, R17, R19, R22, R28, R40). -/
def Obligations.StepKeepsTheInvariant : Prop :=
  ∀ s t : State, Inv s → step s = .next t → Inv t

/-- R13: the relation of the `STATUS` fields the host can rely on. -/
def Obligations.StatusFieldsAgree : Prop :=
  ∀ s : State, Inv s →
    (statusErr s.status = true → statusDone s.status = true ∧ statusErrCode s.status ≠ 0)
      ∧ (statusErr s.status = false → statusErrCode s.status = 0)
      ∧ statusErrCode s.status ≤ 6 ∧ s.status.extractLsb' 2 2 = 0 ∧ s.status.extractLsb' 8 24 = 0

/-! ### Encodings -/

/-- Decoding what the encoder gives for a well-formed instruction gives it back, with every operand, in both byte
orders (R62, R64, R66, R67, R69, R71). -/
def Obligations.DecodeOfEncodeIsTheInstruction : Prop :=
  ∀ (e : Endian) (i : Instr), i.wellFormed = true → decode e (encode e i) = .ok i

/-- Whatever decodes is the encoding of what it decodes to: no word or record has two readings (R62, R63, R64). -/
def Obligations.EncodeOfDecodeIsTheWord : Prop :=
  ∀ (e : Endian) (f : Fetched) (i : Instr), decode e f = .ok i → encode e i = f

/-- R62, R63: a word decodes to a command exactly when it is one of the five command words. -/
def Obligations.ExactlyFiveLegalCommandWords : Prop :=
  ∀ (w : Word) (i : Instr), decodeCommand w = .ok i ↔
    (w = 0x00000000 ∧ i = .clear) ∨ (w = 0x00000001 ∧ i = .hufPack) ∨ (w = 0x00000002 ∧ i = .hufUnpack)
      ∨ (w = 0x00000003 ∧ i = .lzPack) ∨ (w = 0x00000004 ∧ i = .lzUnpack)

/-- Words and records written out from 30_encoding.md decode to what they stand for. -/
def Obligations.WrittenOutEncodingsDecode : Prop :=
  decode .little (.command 0b00000000000000000000000000000011) = .ok .lzPack
    ∧ decode .little (.symbolCount [0x05, 0x00, 0x00, 0x00]) = .ok (.hufSymbolCount 5)
    ∧ decode .big (.tableEntry [0x41, 0x00, 0x00, 0x00, 0x05]) = .ok (.hufTableEntry 0x41 5)
    ∧ decode .little (.paddingCount 0b00000110) = .ok (.hufPaddingCount 6)
    ∧ decode .little (.triplet [0x02, 0x00, 0x00, 0x00, 0x42, 0x03, 0x00, 0x00, 0x00]) = .ok (.lzTriplet 2 0x42 3)

/-- R64: an int32 field is four bytes whose pattern is the sum R64 writes, and writing is the inverse of reading, in
both byte orders and both ways. -/
def Obligations.Int32FieldsAreInverse : Prop :=
  (∀ (e : Endian) (b0 b1 b2 b3 : Byte), int32Bytes e (int32Pattern e b0 b1 b2 b3) = [b0, b1, b2, b3])
  ∧ (∀ (w : Word), ∃ b0 b1 b2 b3 : Byte, int32Bytes .little w = [b0, b1, b2, b3] ∧ int32Bytes .big w = [b3, b2, b1, b0]
      ∧ w.toNat = b0.toNat + 2 ^ 8 * b1.toNat + 2 ^ 16 * b2.toNat + 2 ^ 24 * b3.toNat)

/-! ### Clear, illegal words, and what every command has in common -/

/-- R97, R100: `CLEAR` completes in every state: `STATUS` and `OUT_LEN` are 0, all transient state is empty, and the
configuration, `IN_LEN`, `IN` and the bytes of `OUT` are unchanged. -/
def Obligations.ClearEmptiesAndKeeps : Prop :=
  ∀ s : State, ∃ t, exec .clear s = .next t ∧ t.phase = .idle ∧ t.status = 0 ∧ t.outLen = 0
    ∧ t.ipos = 0 ∧ t.opos = 0 ∧ (∀ v, t.freq.get v = 0 ∧ t.code.get v = [])
    ∧ t.node = [] ∧ t.list = [] ∧ t.nsym = 0 ∧ t.root = none ∧ t.acc = 0 ∧ t.nbits = 0
    ∧ t.pbase = 0 ∧ t.pbytes = 0 ∧ t.pad = 0 ∧ t.useful = 0 ∧ t.bitpos = 0 ∧ t.cand = []
    ∧ t.hist = [] ∧ t.look = [] ∧ t.bestOff = 0 ∧ t.bestLen = 0 ∧ t.bestLit = 0
    ∧ Kept s t ∧ t.outBuf = s.outBuf

/-- R63, R103: every word other than the five leaves `STATUS = 0x00000013` and `OUT_LEN = 0` and changes neither the
operands nor the bytes of `OUT`; `IN_LEN` is not checked. -/
def Obligations.IllegalWordsEndInIllegalCommand : Prop :=
  ∀ (s : State) (rest : List HostAction) (w : Word), s.phase = .idle → s.host = .writeReg 0 w :: rest →
    w ≠ 0 → w ≠ 1 → w ≠ 2 → w ≠ 3 → w ≠ 4 →
    ∃ t, step s = .next t ∧ t.phase = .idle ∧ t.status = 0x00000013 ∧ t.outLen = 0
      ∧ Kept { s with host := rest } t ∧ t.outBuf = s.outBuf

/-- R101, R202 (a), R209: a data command with `IN_LEN > IN_CAP` ends in `ConfigError` before any other check and stores
nothing to `OUT`. -/
def Obligations.OverlongInputIsAConfigError : Prop :=
  ∀ (s : State) (i : Instr), i.isData = true → s.params.inCap < s.inLen.toNat →
    Fails i s .config ∧ ∀ t, exec i s = .next t → t.outBuf = s.outBuf

/-- R13, R96, R200, R204: every command ends idle; `STATUS` is 0 after `CLEAR`, and else success or one of the errors
R200 lists for the command, with `OUT_LEN = 0` after an error; no command writes its operands (R36). -/
def Obligations.CommandsEndWithAStatusOfTheirOwn : Prop :=
  ∀ (s : State) (i : Instr), i.isCommand = true →
    ∃ t, exec i s = .next t ∧ t.phase = .idle ∧ Kept s t
      ∧ ((i = .clear ∧ t.status = 0 ∧ t.outLen = 0) ∨ (i ≠ .clear ∧ t.status = 0x00000001)
        ∨ ∃ e ∈ i.mayRaise, t.status = errorWord e ∧ t.outLen = 0)

/-- R106: the result of a command is a function of the input, `IN_LEN` and, for `LZ_PACK`, the window registers: two
blocks that agree on those, whatever else they hold, end with the same `STATUS`, `OUT_LEN` and output. -/
def Obligations.ResultDependsOnTheOperandsOnly : Prop :=
  ∀ (s u : State) (i : Instr), i.isCommand = true → s.params = u.params → s.inLen = u.inLen → s.input = u.input →
    (i = .lzPack → s.cfgHist = u.cfgHist ∧ s.cfgPreview = u.cfgPreview) →
    ∃ t v, exec i s = .next t ∧ exec i u = .next v ∧ t.status = v.status ∧ t.outLen = v.outLen ∧ t.output = v.output

/-! ### Binary primitives -/

/-- R81: `out_byte` appends one byte at `OPOS`, and raises `CapacityError` when the buffer is full. -/
def Obligations.OutByteAppendsOrRaises : Prop :=
  ∀ (s : State) (b : Byte),
    (s.opos = s.params.outCap → outByte b s = .error (.capacity, s))
    ∧ (s.opos ≠ s.params.outCap → ∃ t, outByte b s = .ok t ∧ t = { s with outBuf := t.outBuf, opos := s.opos + 1 }
        ∧ ∀ a, Memory.read? t.outBuf a = if a = s.opos then some b else Memory.read? s.outBuf a)

/-- R82: `writeInt32` of a value in the int32 range appends the four bytes of its pattern, in the byte order of the
block, when they fit, and raises `CapacityError` when they do not. -/
def Obligations.WriteInt32AppendsFourBytes : Prop :=
  (∀ (s : State) (v : Int), s.opos ≤ s.params.outCap → s.params.outCap < s.opos + 4 →
    ∃ t, writeInt32 v s = .error (.capacity, t))
  ∧ ∀ (s : State) (v : Int), -2 ^ 31 ≤ v → v < 2 ^ 31 → s.opos + 4 ≤ s.params.outCap →
    ∃ t, writeInt32 v s = .ok t ∧ t = { s with outBuf := t.outBuf, opos := s.opos + 4 }
      ∧ (∀ a, a < s.opos ∨ s.opos + 4 ≤ a → Memory.read? t.outBuf a = Memory.read? s.outBuf a)
      ∧ ∃ b0 b1 b2 b3 : Byte,
          (b0.toNat + 2 ^ 8 * b1.toNat + 2 ^ 16 * b2.toNat + 2 ^ 24 * b3.toNat : Int) = v % 2 ^ 32
          ∧ [Memory.read? t.outBuf s.opos, Memory.read? t.outBuf (s.opos + 1),
              Memory.read? t.outBuf (s.opos + 2), Memory.read? t.outBuf (s.opos + 3)]
            = match s.params.endian with
              | .little => [some b0, some b1, some b2, some b3]
              | .big => [some b3, some b2, some b1, some b0]

/-- R83 with the two's complement of R7: `readInt32` raises `IoError` when fewer than four bytes remain, and otherwise
gives the signed value of the four bytes at any address, in either byte order. -/
def Obligations.ReadInt32ReadsSignedOrRaises : Prop :=
  ∀ (s : State) (a : Nat),
    (s.inLen.toNat < a + 4 → readInt32 a s = .error (.io, s))
    ∧ (a + 4 ≤ s.inLen.toNat → ∃ w : Nat, w < 2 ^ 32
        ∧ w = (match s.params.endian with
          | .little => (s.inByte a).toNat + 2 ^ 8 * (s.inByte (a + 1)).toNat + 2 ^ 16 * (s.inByte (a + 2)).toNat
              + 2 ^ 24 * (s.inByte (a + 3)).toNat
          | .big => 2 ^ 24 * (s.inByte a).toNat + 2 ^ 16 * (s.inByte (a + 1)).toNat + 2 ^ 8 * (s.inByte (a + 2)).toNat
              + (s.inByte (a + 3)).toNat)
        ∧ readInt32 a s = .ok (if w < 2 ^ 31 then (w : Int) else (w : Int) - 2 ^ 32))

/-- R85, R86, R88: from an empty packer, `T` bits and a flush append `ceil(T/8)` bytes whose bit `k` (least significant
first) is the `k`-th bit put, and 1 beyond the last; the padding count is what is missing to the byte boundary. -/
def Obligations.PackedBitsReadBack : Prop :=
  ∀ (s : State) (bits : List Bool), s.acc = 0 → s.nbits = 0 → s.opos + (bits.length + 7) / 8 ≤ s.params.outCap →
    ∃ t, (putBits bits s).bind flushBits = .ok ((8 - bits.length % 8) % 8, t)
      ∧ t = { s with outBuf := t.outBuf, opos := s.opos + (bits.length + 7) / 8 }
      ∧ (∀ k, k < 8 * ((bits.length + 7) / 8) → ∃ b, Memory.read? t.outBuf (s.opos + k / 8) = some b
          ∧ b.getLsbD (k % 8) = bits.getD k true)
      ∧ ∀ a, a < s.opos ∨ s.opos + (bits.length + 7) / 8 ≤ a →
          Memory.read? t.outBuf a = Memory.read? s.outBuf a

/-! ### The Huffman tree and codes -/

/-- R116, R117: the frequency count is the number of occurrences of each byte value, and the symbols are the byte
values that occur, ascending. -/
def Obligations.FrequencyCountCountsOccurrences : Prop :=
  ∀ bytes : List Byte,
    (∀ v, (countBytes noCounts bytes).get v = bytes.count v)
    ∧ (∀ v, v ∈ symbols (countBytes noCounts bytes) ↔ v ∈ bytes)
    ∧ (symbols (countBytes noCounts bytes)).Pairwise (fun v w => v.toNat < w.toNat)

/-- R120: the sort is a permutation, descending, and stable, for entries of any kind; and the first re-sort of the tree
build changes nothing. -/
def Obligations.SortIsStableAndDescending : Prop :=
  (∀ (α : Type) (key : α → Nat) (l : List α),
    (sortDescending key l).Perm l
    ∧ (sortDescending key l).Pairwise (fun x y => key y ≤ key x)
    ∧ ∀ c, (sortDescending key l).filter (fun x => key x == c) = l.filter (fun x => key x == c))
  ∧ ∀ freq : Table Nat, resort (makeLeaves freq) = makeLeaves freq

/-- R24, R119, R121, R122: the built tree. With no symbol it is empty; else it has `2·NSYM − 1` nodes, its root is the
last one and carries the sum of all counts, every internal node's frequency is the sum of its two children's, and every
node but the root is a child of exactly one node, which is younger. -/
def Obligations.TreeIsStrictBinaryWithOneRoot : Prop :=
  ∀ freq : Table Nat,
    ((symbols freq).length = 0 → (buildForest freq).node = [] ∧ rootOf (buildForest freq) = none)
    ∧ (1 ≤ (symbols freq).length →
      (buildForest freq).node.length = 2 * (symbols freq).length - 1
      ∧ rootOf (buildForest freq) = some (2 * (symbols freq).length - 2)
      ∧ nodeFreq (buildForest freq).node (2 * (symbols freq).length - 2) = ((symbols freq).map freq.get).sum
      ∧ (∀ m l r f : Nat, (buildForest freq).node[m]? = some (Node.internal l r f) →
          l < m ∧ r < m ∧ l ≠ r
          ∧ f = nodeFreq (buildForest freq).node l + nodeFreq (buildForest freq).node r)
      ∧ ∀ k, k < 2 * (symbols freq).length - 2 →
          ∃ m l r f : Nat, (buildForest freq).node[m]? = some (Node.internal l r f) ∧ (k = l ∨ k = r)
            ∧ ∀ m' l' r' f' : Nat, (buildForest freq).node[m']? = some (Node.internal l' r' f') → (k = l' ∨ k = r') → m' = m)

/-- R125, R126, R127: exactly the symbols have codes; no code is longer than `max(1, NSYM − 1)`; with at least two
symbols no code is a prefix of another's and every long enough bit sequence begins with a code; a single symbol has the
code `"0"`. -/
def Obligations.CodeTableIsPrefixFreeAndComplete : Prop :=
  ∀ freq : Table Nat,
    (∀ v, (codeTable freq).get v ≠ [] ↔ 0 < freq.get v)
    ∧ (∀ v, ((codeTable freq).get v).length ≤ max 1 ((symbols freq).length - 1))
    ∧ (∀ v w, 0 < freq.get v → 0 < freq.get w → v ≠ w → ¬ (codeTable freq).get v <+: (codeTable freq).get w)
    ∧ (2 ≤ (symbols freq).length → ∀ bits : List Bool, (symbols freq).length - 1 ≤ bits.length →
        ∃ v, 0 < freq.get v ∧ (codeTable freq).get v <+: bits)
    ∧ (∀ v, symbols freq = [v] → (codeTable freq).get v = [false])

/-! ### HUF_PACK -/

/-- R135, R141: `HUF_PACK` succeeds with the container `HufEncode(IN[0 .. IN_LEN))` when it fits in `OUT`. -/
def Obligations.HufPackWritesTheContainer : Prop :=
  ∀ s : State, s.params.wf = true → s.inLen.toNat ≤ s.params.inCap →
    (hufEncode s.params.endian s.input).length ≤ s.params.outCap →
    Succeeds .hufPack s (hufEncode s.params.endian s.input)

/-- R135, R207: `HUF_PACK` ends in `CapacityError` when the container does not fit. -/
def Obligations.HufPackWithoutRoomIsACapacityError : Prop :=
  ∀ s : State, s.params.wf = true → s.inLen.toNat ≤ s.params.inCap →
    s.params.outCap < (hufEncode s.params.endian s.input).length →
    Fails .hufPack s .capacity

/-- R139: the length of the container, and that its last byte is the padding count, 0 to 7, that makes the payload
whole bytes. -/
def Obligations.ContainerLengthAndPadding : Prop :=
  ∀ (e : Endian) (bytes : List Byte) (freq : Table Nat) (total : Nat), freq = countBytes noCounts bytes →
    total = ((symbols freq).map fun v => freq.get v * ((codeTable freq).get v).length).sum →
    (hufEncode e bytes).length = 4 + 5 * (symbols freq).length + (total + 7) / 8 + 1
    ∧ ∃ p : Byte, (hufEncode e bytes).getLast? = some p ∧ p.toNat < 8
      ∧ p.toNat = 8 * ((total + 7) / 8) - total

/-! ### HUF_UNPACK -/

/-- R151, R203 (a): fewer than four bytes end in `IoError`. -/
def Obligations.HufUnpackOfAStubIsAnIoError : Prop :=
  ∀ s : State, s.inLen.toNat ≤ s.params.inCap → s.inLen.toNat < 4 → Fails .hufUnpack s .io

/-- R151, R152, R153, R205: a container of at least four bytes that fails one of the header, table or trailer checks
ends in `FormatError`. -/
def Obligations.HufUnpackOfABadHeaderIsAFormatError : Prop :=
  ∀ s : State, s.inLen.toNat ≤ s.params.inCap → 4 ≤ s.inLen.toNat → containerOk s = false →
    Fails .hufUnpack s .format

/-- R150, R154, R155, R157, R158: a container that passes the checks and whose meaningful bits are the codes of `out`, in
the code table rebuilt from the stored frequencies, decodes to `out`; neither the padding bits nor the stored counts are
compared with it. -/
def Obligations.HufUnpackDecodesThePayload : Prop :=
  ∀ (s : State) (out : List Byte), s.params.wf = true → s.inLen.toNat ≤ s.params.inCap → 4 ≤ s.inLen.toNat →
    containerOk s = true → allSymbols (containerTable s) out →
    containerBits s = payloadBits (codeTable (containerTable s)) out → out.length ≤ s.params.outCap →
    Succeeds .hufUnpack s out

/-- R155, R156, R206: when the meaningful bits are the codes of no byte sequence, and no `OUT_CAP + 1` bytes decode
before that shows, the command ends in `DecodeError`. -/
def Obligations.HufUnpackOfStrayBitsIsADecodeError : Prop :=
  ∀ s : State, s.params.wf = true → s.inLen.toNat ≤ s.params.inCap → 4 ≤ s.inLen.toNat → containerOk s = true →
    (∀ out, allSymbols (containerTable s) out →
      containerBits s ≠ payloadBits (codeTable (containerTable s)) out) →
    (∀ out, allSymbols (containerTable s) out → out.length = s.params.outCap + 1 →
      ¬ payloadBits (codeTable (containerTable s)) out <+: containerBits s) →
    Fails .hufUnpack s .decode

/-- R155, R207, R209: when `OUT_CAP + 1` bytes decode from the front of the payload, the command ends in `CapacityError`,
whatever follows them. -/
def Obligations.HufUnpackWithoutRoomIsACapacityError : Prop :=
  ∀ (s : State) (out : List Byte), s.params.wf = true → s.inLen.toNat ≤ s.params.inCap → 4 ≤ s.inLen.toNat →
    containerOk s = true → allSymbols (containerTable s) out → out.length = s.params.outCap + 1 →
    payloadBits (codeTable (containerTable s)) out <+: containerBits s →
    Fails .hufUnpack s .capacity

/-- R160: what `HUF_PACK` writes, `HUF_UNPACK` turns back into the input, for every input that fits, the empty one and
those of a single symbol included. -/
def Obligations.HuffmanRoundTrip : Prop :=
  ∀ s : State, s.params.wf = true → s.inLen.toNat ≤ s.params.inCap → s.inLen.toNat ≤ s.params.outCap →
    (hufEncode s.params.endian s.input).length ≤ s.params.outCap →
    (hufEncode s.params.endian s.input).length ≤ s.params.inCap →
    ∃ t, exec .hufPack s = .next t ∧ t.status = 0x00000001
      ∧ ∀ u : State, u.params = s.params → u.input = t.output → Succeeds .hufUnpack u s.input

/-! ### The records of the container -/

/-- R151: what `HUF_SYMBOLCOUNT` does. In range and with room for the table and the trailer it sets `NSYM`, `PBASE` and
`PBYTES`; otherwise it raises `FormatError`, which stores nothing (R204). The field `reader` is the model's own (notes/assumptions/5.md). -/
def Obligations.SymbolCountRecordSetsTheLayout : Prop :=
  ∀ (s : State) (n : Word),
    ((0 ≤ n.toInt ∧ n.toInt ≤ 256 ∧ 4 + 5 * n.toNat + 1 ≤ s.inLen.toNat) →
      exec (.hufSymbolCount n) s = .next { s with
        nsym := n.toNat, pbase := 4 + 5 * n.toNat, pbytes := s.inLen.toNat - 1 - (4 + 5 * n.toNat)
        reader := .paddingCount })
    ∧ (¬ (0 ≤ n.toInt ∧ n.toInt ≤ 256 ∧ 4 + 5 * n.toNat + 1 ≤ s.inLen.toNat) →
      Traps (.hufSymbolCount n) s .format ∧ ∀ t, exec (.hufSymbolCount n) s = .next t → t.outBuf = s.outBuf)

/-- R153: what `HUF_PADDING_COUNT` does. Below 8, and 0 when there is no payload, it sets `PAD` and `USEFUL`; otherwise
it raises `FormatError`, which stores nothing (R204). The field `reader` is the model's own (notes/assumptions/5.md). -/
def Obligations.PaddingCountRecordSetsTheUsefulBits : Prop :=
  ∀ (s : State) (p : Byte),
    ((p.toNat < 8 ∧ (s.pbytes = 0 → p = 0)) →
      exec (.hufPaddingCount p) s = .next { s with
        pad := p.toNat, useful := s.pbytes * 8 - p.toNat, reader := .tableEntries })
    ∧ (¬ (p.toNat < 8 ∧ (s.pbytes = 0 → p = 0)) →
      Traps (.hufPaddingCount p) s .format ∧ ∀ t, exec (.hufPaddingCount p) s = .next t → t.outBuf = s.outBuf)

/-- R152: what `HUF_TABLE_ENTRY` does. The first entry of a byte value with a frequency of at least 1 sets `FREQ` there
and nowhere else; a repeated byte value or a smaller frequency raises `FormatError`, which stores nothing (R204). -/
def Obligations.TableEntryRecordSetsOneFrequency : Prop :=
  ∀ (s : State) (v : Byte) (f : Word),
    ((s.freq.get v = 0 ∧ 1 ≤ f.toInt) →
      ∃ t, exec (.hufTableEntry v f) s = .next t ∧ t = { s with freq := t.freq }
        ∧ ∀ x, t.freq.get x = if x = v then f.toNat else s.freq.get x)
    ∧ (¬ (s.freq.get v = 0 ∧ 1 ≤ f.toInt) →
      Traps (.hufTableEntry v f) s .format ∧ ∀ t, exec (.hufTableEntry v f) s = .next t → t.outBuf = s.outBuf)

/-! ### LZ_PACK -/

/-- R171, R202 (b): illegal window registers end `LZ_PACK` in `ConfigError`, and nothing is stored to `OUT`. -/
def Obligations.LzPackWithBadWindowsIsAConfigError : Prop :=
  ∀ s : State, s.inLen.toNat ≤ s.params.inCap →
    (s.cfgPreview.toNat < 1 ∨ s.params.previewCap < s.cfgPreview.toNat ∨ s.params.histCap < s.cfgHist.toNat) →
    Fails .lzPack s .config ∧ ∀ t, exec .lzPack s = .next t → t.outBuf = s.outBuf

/-- R170, R184: `LZ_PACK` succeeds with `LzEncode(IN[0 .. IN_LEN), CFG_HIST, CFG_PREVIEW)` when it fits in `OUT`. -/
def Obligations.LzPackWritesTheTriplets : Prop :=
  ∀ s : State, s.params.wf = true → s.inLen.toNat ≤ s.params.inCap → windowsOk s = true →
    (lzEncode s.params.endian s.cfgHist.toNat s.cfgPreview.toNat s.input).length ≤ s.params.outCap →
    Succeeds .lzPack s (lzEncode s.params.endian s.cfgHist.toNat s.cfgPreview.toNat s.input)

/-- R170, R207: `LZ_PACK` ends in `CapacityError` when the stream does not fit. -/
def Obligations.LzPackWithoutRoomIsACapacityError : Prop :=
  ∀ s : State, s.params.wf = true → s.inLen.toNat ≤ s.params.inCap → windowsOk s = true →
    s.params.outCap < (lzEncode s.params.endian s.cfgHist.toNat s.cfgPreview.toNat s.input).length →
    Fails .lzPack s .capacity

/-- R175: the first occurrence is an occurrence, wholly inside the history, and no position before it is one; none means
there is none, and then no longer pattern that begins with it occurs either. -/
def Obligations.FirstOccurrenceIsTheSmallest : Prop :=
  ∀ (pat hist : List Byte), pat ≠ [] →
    (∀ p, firstOccurrence pat hist = some p →
      p + pat.length ≤ hist.length ∧ (hist.drop p).take pat.length = pat
      ∧ ∀ q, q < p → (hist.drop q).take pat.length ≠ pat)
    ∧ (firstOccurrence pat hist = none → (∀ q, (hist.drop q).take pat.length ≠ pat)
        ∧ ∀ more, firstOccurrence (pat ++ more) hist = none)

/-- R177: the extended length is the largest one, at most `K − 1`, over which the lookahead has period `i`. -/
def Obligations.ExtensionIsTheLongestRepetition : Prop :=
  ∀ (look : List Byte) (i : Nat), 1 ≤ i → i ≤ look.length - 1 →
    i ≤ extend look i ∧ extend look i ≤ look.length - 1
    ∧ (∀ t, i ≤ t → t < extend look i → look[t]? = look[t - i]?)
    ∧ (extend look i = look.length - 1 ∨ look[extend look i]? ≠ look[extend look i - i]?)

/-- R174: the match is decodable: its length leaves a literal in the lookahead, length and offset are 0 together, and
the matched bytes are those `offset` places back, in the history or in the lookahead itself. -/
def Obligations.MatchCanBeDecoded : Prop :=
  ∀ (hist look : List Byte) (m : Match), look ≠ [] → m = findMaximumMatch hist look →
    m.length ≤ look.length - 1 ∧ look[m.length]? = some m.literal
    ∧ (m.length = 0 ↔ m.offset = 0) ∧ m.offset ≤ hist.length
    ∧ ∀ t, t < m.length → look[t]? = (hist ++ look)[hist.length - m.offset + t]?

/-- R174, R178: no candidate of the search is longer than the match, and among the candidates of its length it is the
one of the largest `i`. -/
def Obligations.MatchIsTheLongestLatestCandidate : Prop :=
  ∀ (hist look : List Byte) (m : Match), look ≠ [] → m = findMaximumMatch hist look →
    (∀ i p, 1 ≤ i → i ≤ min (look.length - 1) hist.length → occurrence hist look i = some p →
      candidateLength hist look i p ≤ m.length)
    ∧ (0 < m.length → ∃ i p, 1 ≤ i ∧ i ≤ min (look.length - 1) hist.length ∧ occurrence hist look i = some p
        ∧ candidateLength hist look i p = m.length ∧ m.offset = hist.length - p
        ∧ ∀ j q, i < j → j ≤ min (look.length - 1) hist.length → occurrence hist look j = some q →
            candidateLength hist look j q < m.length)

/-- R182: the triplets of an encoding, with a lookahead of at least one byte: they consume the input exactly; lengths,
offsets and literals are in their ranges; expanding them gives the input back. -/
def Obligations.TripletsReconstructTheInput : Prop :=
  ∀ (hMax pMax : Nat) (bytes : List Byte) (ms : List Match), 1 ≤ pMax → ms = lzTriplets hMax pMax bytes →
    (ms.map fun m => m.length + 1).sum = bytes.length
    ∧ (∀ k m, ms[k]? = some m →
        m.length ≤ pMax - 1
        ∧ m.offset ≤ min hMax ((ms.take k).map fun m => m.length + 1).sum
        ∧ (m.length = 0 ↔ m.offset = 0)
        ∧ bytes[((ms.take k).map fun m => m.length + 1).sum + m.length]? = some m.literal)
    ∧ expandAll ms [] = bytes

/-! ### LZ_UNPACK -/

/-- R191, R203 (b): a stream that is not a whole number of records ends in `IoError`, whatever is in it, and nothing is
stored to `OUT`. -/
def Obligations.LzUnpackOfACutStreamIsAnIoError : Prop :=
  ∀ s : State, s.inLen.toNat ≤ s.params.inCap → s.inLen.toNat % 9 ≠ 0 →
    Fails .lzUnpack s .io ∧ ∀ t, exec .lzUnpack s = .next t → t.outBuf = s.outBuf

/-- R190, R192, R193, R194, R195: a stream of whole records all of which are valid and fit expands to its output,
whatever the window registers hold. -/
def Obligations.LzUnpackExpandsTheStream : Prop :=
  ∀ (s : State) (out : List Byte), s.params.wf = true → s.inLen.toNat ≤ s.params.inCap → s.inLen.toNat % 9 = 0 →
    expandStream s.params.outCap (streamTriplets s) [] = .ok out →
    Succeeds .lzUnpack s out

/-- R192, R205, R207, R209: the first record that is refused or does not fit ends the command, with `FormatError` or
`CapacityError`. -/
def Obligations.LzUnpackEndsAtTheFirstBadRecord : Prop :=
  ∀ (s : State) (e : CodecError), s.params.wf = true → s.inLen.toNat ≤ s.params.inCap → s.inLen.toNat % 9 = 0 →
    expandStream s.params.outCap (streamTriplets s) [] = .error e →
    Fails .lzUnpack s e

/-- R192, R193, R194: what `LZ_TRIPLET` does where its back-reference is inside the decoded output and it fits: it appends
`length` bytes, each the byte `offset` places before it, then the literal, and changes nothing else. -/
def Obligations.TripletRecordCopiesAndAppends : Prop :=
  ∀ (s : State) (o : Word) (l : Byte) (n : Word), 0 ≤ o.toInt → 0 ≤ n.toInt →
    (0 < n.toInt → 1 ≤ o.toNat ∧ o.toNat ≤ s.opos) → s.opos + n.toNat + 1 ≤ s.params.outCap →
    ∃ t, exec (.lzTriplet o l n) s = .next t
      ∧ t = { s with outBuf := t.outBuf, opos := s.opos + n.toNat + 1 }
      ∧ (∀ j, j < n.toNat → Memory.read? t.outBuf (s.opos + j) = some (t.outByte (s.opos + j - o.toNat)))
      ∧ Memory.read? t.outBuf (s.opos + n.toNat) = some l
      ∧ ∀ a, a < s.opos ∨ s.opos + n.toNat + 1 ≤ a → Memory.read? t.outBuf a = Memory.read? s.outBuf a

/-- R192, R204, R205, R207: where `LZ_TRIPLET` traps: a negative field or a back-reference outside the decoded output
raises `FormatError` and stores nothing, and a triplet that does not fit raises `CapacityError`. -/
def Obligations.TripletRecordTraps : Prop :=
  (∀ (s : State) (o : Word) (l : Byte) (n : Word),
    (n.toInt < 0 ∨ o.toInt < 0 ∨ (0 < n.toInt ∧ (o.toInt < 1 ∨ (s.opos : Int) < o.toInt))) →
    Traps (.lzTriplet o l n) s .format ∧ ∀ t, exec (.lzTriplet o l n) s = .next t → t.outBuf = s.outBuf)
  ∧ ∀ (s : State) (o : Word) (l : Byte) (n : Word), 0 ≤ o.toInt → 0 ≤ n.toInt →
      (0 < n.toInt → 1 ≤ o.toNat ∧ o.toNat ≤ s.opos) →
      s.opos ≤ s.params.outCap → s.params.outCap < s.opos + n.toNat + 1 → Traps (.lzTriplet o l n) s .capacity

/-- R196: what `LZ_PACK` writes with any legal window registers, `LZ_UNPACK` turns back into the input, for every input
that fits, the empty one included. -/
def Obligations.Lz77RoundTrip : Prop :=
  ∀ s : State, s.params.wf = true → s.inLen.toNat ≤ s.params.inCap → s.inLen.toNat ≤ s.params.outCap →
    windowsOk s = true →
    (lzEncode s.params.endian s.cfgHist.toNat s.cfgPreview.toNat s.input).length ≤ s.params.outCap →
    (lzEncode s.params.endian s.cfgHist.toNat s.cfgPreview.toNat s.input).length ≤ s.params.inCap →
    ∃ t, exec .lzPack s = .next t ∧ t.status = 0x00000001
      ∧ ∀ u : State, u.params = s.params → u.input = t.output → Succeeds .lzUnpack u s.input
end

