-- ==== Sys2Proof/Laws/Memory.lean ====
section
/-! SUPPORT. The laws of the byte buffers and of the register-file tables: read after write, the canonical form and the
capacity bound are kept by every write. -/

namespace Sys2Proof.Machine

@[simp] theorem Memory.read?_nil (a : Nat) : Memory.read? [] a = none := rfl

/-- The byte written reads back, and every other address reads as before. -/
theorem Memory.read?_write (m : Memory) (a : Nat) (b : Byte) (x : Nat) :
    Memory.read? (Memory.write m a b) x = if x = a then some b else Memory.read? m x := by
  induction m with
  | nil => simp only [Memory.write, Memory.read?, eq_comm]
  | cons c m ih =>
    obtain ⟨y, v⟩ := c
    simp only [Memory.write]
    split
    · simp only [Memory.read?, eq_comm]
    · split
      · subst_vars
        by_cases hx : x = y <;> simp [Memory.read?, hx, eq_comm]
      · simp only [Memory.read?, ih]
        by_cases hy : y = x
        · subst hy; simp [show ¬ y = a by omega]
        · simp [hy]

@[simp] theorem Memory.read?_write_same (m : Memory) (a : Nat) (b : Byte) :
    Memory.read? (Memory.write m a b) a = some b := by simp [Memory.read?_write]

theorem Memory.read?_write_ne (m : Memory) {a x : Nat} (b : Byte) (h : x ≠ a) :
    Memory.read? (Memory.write m a b) x = Memory.read? m x := by simp [Memory.read?_write, h]

/-- The canonical form says that the addresses are strictly rising. -/
theorem Memory.wf_iff_pairwise (m : Memory) : Memory.wf m = true ↔ m.Pairwise (fun c d => c.1 < d.1) := by
  induction m with
  | nil => simp [Memory.wf]
  | cons c m ih =>
    cases m with
    | nil => simp [Memory.wf]
    | cons d m =>
      simp only [Memory.wf, Bool.and_eq_true, decide_eq_true_eq, ih]
      constructor
      · rintro ⟨h, hp⟩
        refine List.pairwise_cons.mpr ⟨?_, hp⟩
        intro e he
        rcases List.mem_cons.mp he with rfl | he
        · exact h
        · exact lt_trans h (List.rel_of_pairwise_cons hp he)
      · intro hp
        exact ⟨List.rel_of_pairwise_cons hp (by simp), (List.pairwise_cons.mp hp).2⟩

/-- The addresses after a write are those before it and the one written. -/
theorem Memory.mem_write {m : Memory} {a : Nat} {b : Byte} {c : Host.Cell} (h : c ∈ Memory.write m a b) :
    c = (a, b) ∨ c ∈ m := by
  induction m with
  | nil => simpa [Memory.write] using h
  | cons d m ih =>
    obtain ⟨y, v⟩ := d
    simp only [Memory.write] at h
    split at h
    · simpa using h
    · split at h
      · rcases List.mem_cons.mp h with h | h
        · exact .inl h
        · exact .inr (List.mem_cons_of_mem _ h)
      · rcases List.mem_cons.mp h with h | h
        · exact .inr (h ▸ List.mem_cons_self ..)
        · exact (ih h).imp_right (List.mem_cons_of_mem _)

/-- Every write keeps the canonical form. -/
theorem Memory.write_keeps_wf {m : Memory} (a : Nat) (b : Byte) (h : Memory.wf m = true) :
    Memory.wf (Memory.write m a b) = true := by
  rw [Memory.wf_iff_pairwise] at h ⊢
  induction m with
  | nil => simp [Memory.write]
  | cons d m ih =>
    obtain ⟨y, v⟩ := d
    obtain ⟨hd, hm⟩ := List.pairwise_cons.mp h
    simp only [Memory.write]
    split
    · next hlt =>
      refine List.pairwise_cons.mpr ⟨?_, h⟩
      intro c hc
      rcases List.mem_cons.mp hc with rfl | hc
      · exact hlt
      · exact lt_trans hlt (hd c hc)
    · split
      · next heq => exact List.pairwise_cons.mpr ⟨fun c hc => heq ▸ hd c hc, hm⟩
      · refine List.pairwise_cons.mpr ⟨?_, ih hm⟩
        intro c hc
        rcases Memory.mem_write hc with rfl | hc
        · simp only; omega
        · exact hd c hc

/-- A write inside the buffer keeps every listed address inside it. -/
theorem Memory.write_keeps_within {m : Memory} {cap a : Nat} (b : Byte) (h : Memory.within m cap = true) (ha : a < cap) :
    Memory.within (Memory.write m a b) cap = true := by
  simp only [Memory.within, List.all_eq_true, decide_eq_true_eq] at h ⊢
  intro c hc
  rcases Memory.mem_write hc with rfl | hc
  · exact ha
  · exact h c hc

/-- A byte that has been written is not forgotten by a later write. -/
theorem Memory.isSome_write {m : Memory} {x : Nat} (a : Nat) (b : Byte) (h : (Memory.read? m x).isSome = true) :
    (Memory.read? (Memory.write m a b) x).isSome = true := by
  rw [Memory.read?_write]; split <;> simp [h]

@[simp] theorem Table.get_set_same {α : Type} (t : Table α) (v : Byte) (x : α) : (t.set v x).get v = x := by
  simp [Table.get, Table.set]

theorem Table.get_set_ne {α : Type} (t : Table α) {v w : Byte} (x : α) (h : w ≠ v) : (t.set v x).get w = t.get w := by
  have h' : v.toNat ≠ w.toNat := fun hn => h (BitVec.eq_of_toNat_eq hn.symm)
  simp [Table.get, Table.set, h']

/-- An entry after a write to a register file. -/
theorem Table.get_set {α : Type} (t : Table α) (v w : Byte) (x : α) :
    (t.set v x).get w = if w = v then x else t.get w := by
  by_cases h : w = v
  · subst h; simp
  · simp [h, Table.get_set_ne]

@[simp] theorem Table.get_replicate {α : Type} (x : α) (v : Byte) : Table.get (Vector.replicate 256 x) v = x := by
  simp [Table.get]

/-- The byte values, ascending, with none missing. -/
theorem mem_allBytes (v : Byte) : v ∈ allBytes := by
  refine List.mem_map.mpr ⟨v.toNat, List.mem_range.mpr v.isLt, ?_⟩
  simp

theorem mem_symbols {freq : Table Nat} {v : Byte} : v ∈ symbols freq ↔ 0 < freq.get v := by
  simp [symbols, mem_allBytes]

end Sys2Proof.Machine
end

