-- ==== Sys2Proof/Laws/State.lean ====
section
/-! SUPPORT. One lemma per field of State and named update, so that no later proof unfolds a record update. -/

namespace Sys2Proof.Machine

/-! ### start: The issue of a command (R95) sets the phase and the latched word. -/

@[simp] theorem State.start_params (w : Word) (s : State) : (s.start w).params = s.params := rfl
@[simp] theorem State.start_status (w : Word) (s : State) : (s.start w).status = s.status := rfl
@[simp] theorem State.start_cfgHist (w : Word) (s : State) : (s.start w).cfgHist = s.cfgHist := rfl
@[simp] theorem State.start_cfgPreview (w : Word) (s : State) : (s.start w).cfgPreview = s.cfgPreview := rfl
@[simp] theorem State.start_inLen (w : Word) (s : State) : (s.start w).inLen = s.inLen := rfl
@[simp] theorem State.start_outLen (w : Word) (s : State) : (s.start w).outLen = s.outLen := rfl
@[simp] theorem State.start_inBuf (w : Word) (s : State) : (s.start w).inBuf = s.inBuf := rfl
@[simp] theorem State.start_outBuf (w : Word) (s : State) : (s.start w).outBuf = s.outBuf := rfl
@[simp] theorem State.start_phase (w : Word) (s : State) : (s.start w).phase = .prologue := rfl
@[simp] theorem State.start_cmdWord (w : Word) (s : State) : (s.start w).cmdWord = w := rfl
@[simp] theorem State.start_reader (w : Word) (s : State) : (s.start w).reader = s.reader := rfl
@[simp] theorem State.start_ipos (w : Word) (s : State) : (s.start w).ipos = s.ipos := rfl
@[simp] theorem State.start_opos (w : Word) (s : State) : (s.start w).opos = s.opos := rfl
@[simp] theorem State.start_freq (w : Word) (s : State) : (s.start w).freq = s.freq := rfl
@[simp] theorem State.start_node (w : Word) (s : State) : (s.start w).node = s.node := rfl
@[simp] theorem State.start_list (w : Word) (s : State) : (s.start w).list = s.list := rfl
@[simp] theorem State.start_nsym (w : Word) (s : State) : (s.start w).nsym = s.nsym := rfl
@[simp] theorem State.start_root (w : Word) (s : State) : (s.start w).root = s.root := rfl
@[simp] theorem State.start_code (w : Word) (s : State) : (s.start w).code = s.code := rfl
@[simp] theorem State.start_acc (w : Word) (s : State) : (s.start w).acc = s.acc := rfl
@[simp] theorem State.start_nbits (w : Word) (s : State) : (s.start w).nbits = s.nbits := rfl
@[simp] theorem State.start_pbase (w : Word) (s : State) : (s.start w).pbase = s.pbase := rfl
@[simp] theorem State.start_pbytes (w : Word) (s : State) : (s.start w).pbytes = s.pbytes := rfl
@[simp] theorem State.start_pad (w : Word) (s : State) : (s.start w).pad = s.pad := rfl
@[simp] theorem State.start_useful (w : Word) (s : State) : (s.start w).useful = s.useful := rfl
@[simp] theorem State.start_bitpos (w : Word) (s : State) : (s.start w).bitpos = s.bitpos := rfl
@[simp] theorem State.start_cand (w : Word) (s : State) : (s.start w).cand = s.cand := rfl
@[simp] theorem State.start_hist (w : Word) (s : State) : (s.start w).hist = s.hist := rfl
@[simp] theorem State.start_look (w : Word) (s : State) : (s.start w).look = s.look := rfl
@[simp] theorem State.start_hMax (w : Word) (s : State) : (s.start w).hMax = s.hMax := rfl
@[simp] theorem State.start_pMax (w : Word) (s : State) : (s.start w).pMax = s.pMax := rfl
@[simp] theorem State.start_bestOff (w : Word) (s : State) : (s.start w).bestOff = s.bestOff := rfl
@[simp] theorem State.start_bestLen (w : Word) (s : State) : (s.start w).bestLen = s.bestLen := rfl
@[simp] theorem State.start_bestLit (w : Word) (s : State) : (s.start w).bestLit = s.bestLit := rfl
@[simp] theorem State.start_host (w : Word) (s : State) : (s.start w).host = s.host := rfl
@[simp] theorem State.start_regRead (w : Word) (s : State) : (s.start w).regRead = s.regRead := rfl
@[simp] theorem State.start_byteRead (w : Word) (s : State) : (s.start w).byteRead = s.byteRead := rfl
@[simp] theorem State.start_epoch (w : Word) (s : State) : (s.start w).epoch = s.epoch := rfl
@[simp] theorem State.start_freeReads (w : Word) (s : State) : (s.start w).freeReads = s.freeReads := rfl

/-! ### prologue: The prologue (R97) empties the transient state and keeps what the host set. -/

@[simp] theorem State.prologue_params (s : State) : s.prologue.params = s.params := rfl
@[simp] theorem State.prologue_status (s : State) : s.prologue.status = 0 := rfl
@[simp] theorem State.prologue_cfgHist (s : State) : s.prologue.cfgHist = s.cfgHist := rfl
@[simp] theorem State.prologue_cfgPreview (s : State) : s.prologue.cfgPreview = s.cfgPreview := rfl
@[simp] theorem State.prologue_inLen (s : State) : s.prologue.inLen = s.inLen := rfl
@[simp] theorem State.prologue_outLen (s : State) : s.prologue.outLen = 0 := rfl
@[simp] theorem State.prologue_inBuf (s : State) : s.prologue.inBuf = s.inBuf := rfl
@[simp] theorem State.prologue_outBuf (s : State) : s.prologue.outBuf = s.outBuf := rfl
@[simp] theorem State.prologue_phase (s : State) : s.prologue.phase = s.phase := rfl
@[simp] theorem State.prologue_cmdWord (s : State) : s.prologue.cmdWord = s.cmdWord := rfl
@[simp] theorem State.prologue_reader (s : State) : s.prologue.reader = .symbolCount := rfl
@[simp] theorem State.prologue_ipos (s : State) : s.prologue.ipos = 0 := rfl
@[simp] theorem State.prologue_opos (s : State) : s.prologue.opos = 0 := rfl
@[simp] theorem State.prologue_freq (s : State) : s.prologue.freq = Vector.replicate 256 0 := rfl
@[simp] theorem State.prologue_node (s : State) : s.prologue.node = [] := rfl
@[simp] theorem State.prologue_list (s : State) : s.prologue.list = [] := rfl
@[simp] theorem State.prologue_nsym (s : State) : s.prologue.nsym = 0 := rfl
@[simp] theorem State.prologue_root (s : State) : s.prologue.root = none := rfl
@[simp] theorem State.prologue_code (s : State) : s.prologue.code = Vector.replicate 256 [] := rfl
@[simp] theorem State.prologue_acc (s : State) : s.prologue.acc = 0 := rfl
@[simp] theorem State.prologue_nbits (s : State) : s.prologue.nbits = 0 := rfl
@[simp] theorem State.prologue_pbase (s : State) : s.prologue.pbase = 0 := rfl
@[simp] theorem State.prologue_pbytes (s : State) : s.prologue.pbytes = 0 := rfl
@[simp] theorem State.prologue_pad (s : State) : s.prologue.pad = 0 := rfl
@[simp] theorem State.prologue_useful (s : State) : s.prologue.useful = 0 := rfl
@[simp] theorem State.prologue_bitpos (s : State) : s.prologue.bitpos = 0 := rfl
@[simp] theorem State.prologue_cand (s : State) : s.prologue.cand = [] := rfl
@[simp] theorem State.prologue_hist (s : State) : s.prologue.hist = [] := rfl
@[simp] theorem State.prologue_look (s : State) : s.prologue.look = [] := rfl
@[simp] theorem State.prologue_hMax (s : State) : s.prologue.hMax = s.hMax := rfl
@[simp] theorem State.prologue_pMax (s : State) : s.prologue.pMax = s.pMax := rfl
@[simp] theorem State.prologue_bestOff (s : State) : s.prologue.bestOff = 0 := rfl
@[simp] theorem State.prologue_bestLen (s : State) : s.prologue.bestLen = 0 := rfl
@[simp] theorem State.prologue_bestLit (s : State) : s.prologue.bestLit = 0 := rfl
@[simp] theorem State.prologue_host (s : State) : s.prologue.host = s.host := rfl
@[simp] theorem State.prologue_regRead (s : State) : s.prologue.regRead = s.regRead := rfl
@[simp] theorem State.prologue_byteRead (s : State) : s.prologue.byteRead = s.byteRead := rfl
@[simp] theorem State.prologue_epoch (s : State) : s.prologue.epoch = s.epoch := rfl
@[simp] theorem State.prologue_freeReads (s : State) : s.prologue.freeReads = s.freeReads := rfl

/-! ### epilogue: The success epilogue (R99). -/

@[simp] theorem State.epilogue_params (s : State) : s.epilogue.params = s.params := rfl
@[simp] theorem State.epilogue_status (s : State) : s.epilogue.status = setDone s.status := rfl
@[simp] theorem State.epilogue_cfgHist (s : State) : s.epilogue.cfgHist = s.cfgHist := rfl
@[simp] theorem State.epilogue_cfgPreview (s : State) : s.epilogue.cfgPreview = s.cfgPreview := rfl
@[simp] theorem State.epilogue_inLen (s : State) : s.epilogue.inLen = s.inLen := rfl
@[simp] theorem State.epilogue_outLen (s : State) : s.epilogue.outLen = BitVec.ofNat 32 s.opos := rfl
@[simp] theorem State.epilogue_inBuf (s : State) : s.epilogue.inBuf = s.inBuf := rfl
@[simp] theorem State.epilogue_outBuf (s : State) : s.epilogue.outBuf = s.outBuf := rfl
@[simp] theorem State.epilogue_phase (s : State) : s.epilogue.phase = .idle := rfl
@[simp] theorem State.epilogue_cmdWord (s : State) : s.epilogue.cmdWord = s.cmdWord := rfl
@[simp] theorem State.epilogue_reader (s : State) : s.epilogue.reader = s.reader := rfl
@[simp] theorem State.epilogue_ipos (s : State) : s.epilogue.ipos = s.ipos := rfl
@[simp] theorem State.epilogue_opos (s : State) : s.epilogue.opos = s.opos := rfl
@[simp] theorem State.epilogue_freq (s : State) : s.epilogue.freq = s.freq := rfl
@[simp] theorem State.epilogue_node (s : State) : s.epilogue.node = s.node := rfl
@[simp] theorem State.epilogue_list (s : State) : s.epilogue.list = s.list := rfl
@[simp] theorem State.epilogue_nsym (s : State) : s.epilogue.nsym = s.nsym := rfl
@[simp] theorem State.epilogue_root (s : State) : s.epilogue.root = s.root := rfl
@[simp] theorem State.epilogue_code (s : State) : s.epilogue.code = s.code := rfl
@[simp] theorem State.epilogue_acc (s : State) : s.epilogue.acc = s.acc := rfl
@[simp] theorem State.epilogue_nbits (s : State) : s.epilogue.nbits = s.nbits := rfl
@[simp] theorem State.epilogue_pbase (s : State) : s.epilogue.pbase = s.pbase := rfl
@[simp] theorem State.epilogue_pbytes (s : State) : s.epilogue.pbytes = s.pbytes := rfl
@[simp] theorem State.epilogue_pad (s : State) : s.epilogue.pad = s.pad := rfl
@[simp] theorem State.epilogue_useful (s : State) : s.epilogue.useful = s.useful := rfl
@[simp] theorem State.epilogue_bitpos (s : State) : s.epilogue.bitpos = s.bitpos := rfl
@[simp] theorem State.epilogue_cand (s : State) : s.epilogue.cand = s.cand := rfl
@[simp] theorem State.epilogue_hist (s : State) : s.epilogue.hist = s.hist := rfl
@[simp] theorem State.epilogue_look (s : State) : s.epilogue.look = s.look := rfl
@[simp] theorem State.epilogue_hMax (s : State) : s.epilogue.hMax = s.hMax := rfl
@[simp] theorem State.epilogue_pMax (s : State) : s.epilogue.pMax = s.pMax := rfl
@[simp] theorem State.epilogue_bestOff (s : State) : s.epilogue.bestOff = s.bestOff := rfl
@[simp] theorem State.epilogue_bestLen (s : State) : s.epilogue.bestLen = s.bestLen := rfl
@[simp] theorem State.epilogue_bestLit (s : State) : s.epilogue.bestLit = s.bestLit := rfl
@[simp] theorem State.epilogue_host (s : State) : s.epilogue.host = s.host := rfl
@[simp] theorem State.epilogue_regRead (s : State) : s.epilogue.regRead = s.regRead := rfl
@[simp] theorem State.epilogue_byteRead (s : State) : s.epilogue.byteRead = s.byteRead := rfl
@[simp] theorem State.epilogue_epoch (s : State) : s.epilogue.epoch = s.epoch := rfl
@[simp] theorem State.epilogue_freeReads (s : State) : s.epilogue.freeReads = s.freeReads := rfl

/-! ### enterError: A raise (R102) changes the phase and nothing else. -/

@[simp] theorem State.enterError_params (e : CodecError) (s : State) : (s.enterError e).params = s.params := rfl
@[simp] theorem State.enterError_status (e : CodecError) (s : State) : (s.enterError e).status = s.status := rfl
@[simp] theorem State.enterError_cfgHist (e : CodecError) (s : State) : (s.enterError e).cfgHist = s.cfgHist := rfl
@[simp] theorem State.enterError_cfgPreview (e : CodecError) (s : State) : (s.enterError e).cfgPreview = s.cfgPreview := rfl
@[simp] theorem State.enterError_inLen (e : CodecError) (s : State) : (s.enterError e).inLen = s.inLen := rfl
@[simp] theorem State.enterError_outLen (e : CodecError) (s : State) : (s.enterError e).outLen = s.outLen := rfl
@[simp] theorem State.enterError_inBuf (e : CodecError) (s : State) : (s.enterError e).inBuf = s.inBuf := rfl
@[simp] theorem State.enterError_outBuf (e : CodecError) (s : State) : (s.enterError e).outBuf = s.outBuf := rfl
@[simp] theorem State.enterError_phase (e : CodecError) (s : State) : (s.enterError e).phase = .error e := rfl
@[simp] theorem State.enterError_cmdWord (e : CodecError) (s : State) : (s.enterError e).cmdWord = s.cmdWord := rfl
@[simp] theorem State.enterError_reader (e : CodecError) (s : State) : (s.enterError e).reader = s.reader := rfl
@[simp] theorem State.enterError_ipos (e : CodecError) (s : State) : (s.enterError e).ipos = s.ipos := rfl
@[simp] theorem State.enterError_opos (e : CodecError) (s : State) : (s.enterError e).opos = s.opos := rfl
@[simp] theorem State.enterError_freq (e : CodecError) (s : State) : (s.enterError e).freq = s.freq := rfl
@[simp] theorem State.enterError_node (e : CodecError) (s : State) : (s.enterError e).node = s.node := rfl
@[simp] theorem State.enterError_list (e : CodecError) (s : State) : (s.enterError e).list = s.list := rfl
@[simp] theorem State.enterError_nsym (e : CodecError) (s : State) : (s.enterError e).nsym = s.nsym := rfl
@[simp] theorem State.enterError_root (e : CodecError) (s : State) : (s.enterError e).root = s.root := rfl
@[simp] theorem State.enterError_code (e : CodecError) (s : State) : (s.enterError e).code = s.code := rfl
@[simp] theorem State.enterError_acc (e : CodecError) (s : State) : (s.enterError e).acc = s.acc := rfl
@[simp] theorem State.enterError_nbits (e : CodecError) (s : State) : (s.enterError e).nbits = s.nbits := rfl
@[simp] theorem State.enterError_pbase (e : CodecError) (s : State) : (s.enterError e).pbase = s.pbase := rfl
@[simp] theorem State.enterError_pbytes (e : CodecError) (s : State) : (s.enterError e).pbytes = s.pbytes := rfl
@[simp] theorem State.enterError_pad (e : CodecError) (s : State) : (s.enterError e).pad = s.pad := rfl
@[simp] theorem State.enterError_useful (e : CodecError) (s : State) : (s.enterError e).useful = s.useful := rfl
@[simp] theorem State.enterError_bitpos (e : CodecError) (s : State) : (s.enterError e).bitpos = s.bitpos := rfl
@[simp] theorem State.enterError_cand (e : CodecError) (s : State) : (s.enterError e).cand = s.cand := rfl
@[simp] theorem State.enterError_hist (e : CodecError) (s : State) : (s.enterError e).hist = s.hist := rfl
@[simp] theorem State.enterError_look (e : CodecError) (s : State) : (s.enterError e).look = s.look := rfl
@[simp] theorem State.enterError_hMax (e : CodecError) (s : State) : (s.enterError e).hMax = s.hMax := rfl
@[simp] theorem State.enterError_pMax (e : CodecError) (s : State) : (s.enterError e).pMax = s.pMax := rfl
@[simp] theorem State.enterError_bestOff (e : CodecError) (s : State) : (s.enterError e).bestOff = s.bestOff := rfl
@[simp] theorem State.enterError_bestLen (e : CodecError) (s : State) : (s.enterError e).bestLen = s.bestLen := rfl
@[simp] theorem State.enterError_bestLit (e : CodecError) (s : State) : (s.enterError e).bestLit = s.bestLit := rfl
@[simp] theorem State.enterError_host (e : CodecError) (s : State) : (s.enterError e).host = s.host := rfl
@[simp] theorem State.enterError_regRead (e : CodecError) (s : State) : (s.enterError e).regRead = s.regRead := rfl
@[simp] theorem State.enterError_byteRead (e : CodecError) (s : State) : (s.enterError e).byteRead = s.byteRead := rfl
@[simp] theorem State.enterError_epoch (e : CodecError) (s : State) : (s.enterError e).epoch = s.epoch := rfl
@[simp] theorem State.enterError_freeReads (e : CodecError) (s : State) : (s.enterError e).freeReads = s.freeReads := rfl

/-! ### errorWrites: Phase `ERROR` (R204) changes the phase, `OUT_LEN` and `STATUS` and nothing else. -/

@[simp] theorem State.errorWrites_params (e : CodecError) (s : State) : (s.errorWrites e).params = s.params := rfl
@[simp] theorem State.errorWrites_status (e : CodecError) (s : State) : (s.errorWrites e).status = statusOfError e := rfl
@[simp] theorem State.errorWrites_cfgHist (e : CodecError) (s : State) : (s.errorWrites e).cfgHist = s.cfgHist := rfl
@[simp] theorem State.errorWrites_cfgPreview (e : CodecError) (s : State) : (s.errorWrites e).cfgPreview = s.cfgPreview := rfl
@[simp] theorem State.errorWrites_inLen (e : CodecError) (s : State) : (s.errorWrites e).inLen = s.inLen := rfl
@[simp] theorem State.errorWrites_outLen (e : CodecError) (s : State) : (s.errorWrites e).outLen = 0 := rfl
@[simp] theorem State.errorWrites_inBuf (e : CodecError) (s : State) : (s.errorWrites e).inBuf = s.inBuf := rfl
@[simp] theorem State.errorWrites_outBuf (e : CodecError) (s : State) : (s.errorWrites e).outBuf = s.outBuf := rfl
@[simp] theorem State.errorWrites_phase (e : CodecError) (s : State) : (s.errorWrites e).phase = .idle := rfl
@[simp] theorem State.errorWrites_cmdWord (e : CodecError) (s : State) : (s.errorWrites e).cmdWord = s.cmdWord := rfl
@[simp] theorem State.errorWrites_reader (e : CodecError) (s : State) : (s.errorWrites e).reader = s.reader := rfl
@[simp] theorem State.errorWrites_ipos (e : CodecError) (s : State) : (s.errorWrites e).ipos = s.ipos := rfl
@[simp] theorem State.errorWrites_opos (e : CodecError) (s : State) : (s.errorWrites e).opos = s.opos := rfl
@[simp] theorem State.errorWrites_freq (e : CodecError) (s : State) : (s.errorWrites e).freq = s.freq := rfl
@[simp] theorem State.errorWrites_node (e : CodecError) (s : State) : (s.errorWrites e).node = s.node := rfl
@[simp] theorem State.errorWrites_list (e : CodecError) (s : State) : (s.errorWrites e).list = s.list := rfl
@[simp] theorem State.errorWrites_nsym (e : CodecError) (s : State) : (s.errorWrites e).nsym = s.nsym := rfl
@[simp] theorem State.errorWrites_root (e : CodecError) (s : State) : (s.errorWrites e).root = s.root := rfl
@[simp] theorem State.errorWrites_code (e : CodecError) (s : State) : (s.errorWrites e).code = s.code := rfl
@[simp] theorem State.errorWrites_acc (e : CodecError) (s : State) : (s.errorWrites e).acc = s.acc := rfl
@[simp] theorem State.errorWrites_nbits (e : CodecError) (s : State) : (s.errorWrites e).nbits = s.nbits := rfl
@[simp] theorem State.errorWrites_pbase (e : CodecError) (s : State) : (s.errorWrites e).pbase = s.pbase := rfl
@[simp] theorem State.errorWrites_pbytes (e : CodecError) (s : State) : (s.errorWrites e).pbytes = s.pbytes := rfl
@[simp] theorem State.errorWrites_pad (e : CodecError) (s : State) : (s.errorWrites e).pad = s.pad := rfl
@[simp] theorem State.errorWrites_useful (e : CodecError) (s : State) : (s.errorWrites e).useful = s.useful := rfl
@[simp] theorem State.errorWrites_bitpos (e : CodecError) (s : State) : (s.errorWrites e).bitpos = s.bitpos := rfl
@[simp] theorem State.errorWrites_cand (e : CodecError) (s : State) : (s.errorWrites e).cand = s.cand := rfl
@[simp] theorem State.errorWrites_hist (e : CodecError) (s : State) : (s.errorWrites e).hist = s.hist := rfl
@[simp] theorem State.errorWrites_look (e : CodecError) (s : State) : (s.errorWrites e).look = s.look := rfl
@[simp] theorem State.errorWrites_hMax (e : CodecError) (s : State) : (s.errorWrites e).hMax = s.hMax := rfl
@[simp] theorem State.errorWrites_pMax (e : CodecError) (s : State) : (s.errorWrites e).pMax = s.pMax := rfl
@[simp] theorem State.errorWrites_bestOff (e : CodecError) (s : State) : (s.errorWrites e).bestOff = s.bestOff := rfl
@[simp] theorem State.errorWrites_bestLen (e : CodecError) (s : State) : (s.errorWrites e).bestLen = s.bestLen := rfl
@[simp] theorem State.errorWrites_bestLit (e : CodecError) (s : State) : (s.errorWrites e).bestLit = s.bestLit := rfl
@[simp] theorem State.errorWrites_host (e : CodecError) (s : State) : (s.errorWrites e).host = s.host := rfl
@[simp] theorem State.errorWrites_regRead (e : CodecError) (s : State) : (s.errorWrites e).regRead = s.regRead := rfl
@[simp] theorem State.errorWrites_byteRead (e : CodecError) (s : State) : (s.errorWrites e).byteRead = s.byteRead := rfl
@[simp] theorem State.errorWrites_epoch (e : CodecError) (s : State) : (s.errorWrites e).epoch = s.epoch := rfl
@[simp] theorem State.errorWrites_freeReads (e : CodecError) (s : State) : (s.errorWrites e).freeReads = s.freeReads := rfl

/-! ### errorEntry: Error entry (R204) changes the phase, `OUT_LEN` and `STATUS` and nothing else. -/

@[simp] theorem State.errorEntry_params (e : CodecError) (s : State) : (s.errorEntry e).params = s.params := rfl
@[simp] theorem State.errorEntry_status (e : CodecError) (s : State) : (s.errorEntry e).status = statusOfError e := rfl
@[simp] theorem State.errorEntry_cfgHist (e : CodecError) (s : State) : (s.errorEntry e).cfgHist = s.cfgHist := rfl
@[simp] theorem State.errorEntry_cfgPreview (e : CodecError) (s : State) : (s.errorEntry e).cfgPreview = s.cfgPreview := rfl
@[simp] theorem State.errorEntry_inLen (e : CodecError) (s : State) : (s.errorEntry e).inLen = s.inLen := rfl
@[simp] theorem State.errorEntry_outLen (e : CodecError) (s : State) : (s.errorEntry e).outLen = 0 := rfl
@[simp] theorem State.errorEntry_inBuf (e : CodecError) (s : State) : (s.errorEntry e).inBuf = s.inBuf := rfl
@[simp] theorem State.errorEntry_outBuf (e : CodecError) (s : State) : (s.errorEntry e).outBuf = s.outBuf := rfl
@[simp] theorem State.errorEntry_phase (e : CodecError) (s : State) : (s.errorEntry e).phase = .idle := rfl
@[simp] theorem State.errorEntry_cmdWord (e : CodecError) (s : State) : (s.errorEntry e).cmdWord = s.cmdWord := rfl
@[simp] theorem State.errorEntry_reader (e : CodecError) (s : State) : (s.errorEntry e).reader = s.reader := rfl
@[simp] theorem State.errorEntry_ipos (e : CodecError) (s : State) : (s.errorEntry e).ipos = s.ipos := rfl
@[simp] theorem State.errorEntry_opos (e : CodecError) (s : State) : (s.errorEntry e).opos = s.opos := rfl
@[simp] theorem State.errorEntry_freq (e : CodecError) (s : State) : (s.errorEntry e).freq = s.freq := rfl
@[simp] theorem State.errorEntry_node (e : CodecError) (s : State) : (s.errorEntry e).node = s.node := rfl
@[simp] theorem State.errorEntry_list (e : CodecError) (s : State) : (s.errorEntry e).list = s.list := rfl
@[simp] theorem State.errorEntry_nsym (e : CodecError) (s : State) : (s.errorEntry e).nsym = s.nsym := rfl
@[simp] theorem State.errorEntry_root (e : CodecError) (s : State) : (s.errorEntry e).root = s.root := rfl
@[simp] theorem State.errorEntry_code (e : CodecError) (s : State) : (s.errorEntry e).code = s.code := rfl
@[simp] theorem State.errorEntry_acc (e : CodecError) (s : State) : (s.errorEntry e).acc = s.acc := rfl
@[simp] theorem State.errorEntry_nbits (e : CodecError) (s : State) : (s.errorEntry e).nbits = s.nbits := rfl
@[simp] theorem State.errorEntry_pbase (e : CodecError) (s : State) : (s.errorEntry e).pbase = s.pbase := rfl
@[simp] theorem State.errorEntry_pbytes (e : CodecError) (s : State) : (s.errorEntry e).pbytes = s.pbytes := rfl
@[simp] theorem State.errorEntry_pad (e : CodecError) (s : State) : (s.errorEntry e).pad = s.pad := rfl
@[simp] theorem State.errorEntry_useful (e : CodecError) (s : State) : (s.errorEntry e).useful = s.useful := rfl
@[simp] theorem State.errorEntry_bitpos (e : CodecError) (s : State) : (s.errorEntry e).bitpos = s.bitpos := rfl
@[simp] theorem State.errorEntry_cand (e : CodecError) (s : State) : (s.errorEntry e).cand = s.cand := rfl
@[simp] theorem State.errorEntry_hist (e : CodecError) (s : State) : (s.errorEntry e).hist = s.hist := rfl
@[simp] theorem State.errorEntry_look (e : CodecError) (s : State) : (s.errorEntry e).look = s.look := rfl
@[simp] theorem State.errorEntry_hMax (e : CodecError) (s : State) : (s.errorEntry e).hMax = s.hMax := rfl
@[simp] theorem State.errorEntry_pMax (e : CodecError) (s : State) : (s.errorEntry e).pMax = s.pMax := rfl
@[simp] theorem State.errorEntry_bestOff (e : CodecError) (s : State) : (s.errorEntry e).bestOff = s.bestOff := rfl
@[simp] theorem State.errorEntry_bestLen (e : CodecError) (s : State) : (s.errorEntry e).bestLen = s.bestLen := rfl
@[simp] theorem State.errorEntry_bestLit (e : CodecError) (s : State) : (s.errorEntry e).bestLit = s.bestLit := rfl
@[simp] theorem State.errorEntry_host (e : CodecError) (s : State) : (s.errorEntry e).host = s.host := rfl
@[simp] theorem State.errorEntry_regRead (e : CodecError) (s : State) : (s.errorEntry e).regRead = s.regRead := rfl
@[simp] theorem State.errorEntry_byteRead (e : CodecError) (s : State) : (s.errorEntry e).byteRead = s.byteRead := rfl
@[simp] theorem State.errorEntry_epoch (e : CodecError) (s : State) : (s.errorEntry e).epoch = s.epoch := rfl
@[simp] theorem State.errorEntry_freeReads (e : CodecError) (s : State) : (s.errorEntry e).freeReads = s.freeReads := rfl

/-! ### push: Appending a byte (R81) changes `OUT` and `OPOS` and nothing else. -/

@[simp] theorem State.push_params (b : Byte) (s : State) : (s.push b).params = s.params := rfl
@[simp] theorem State.push_status (b : Byte) (s : State) : (s.push b).status = s.status := rfl
@[simp] theorem State.push_cfgHist (b : Byte) (s : State) : (s.push b).cfgHist = s.cfgHist := rfl
@[simp] theorem State.push_cfgPreview (b : Byte) (s : State) : (s.push b).cfgPreview = s.cfgPreview := rfl
@[simp] theorem State.push_inLen (b : Byte) (s : State) : (s.push b).inLen = s.inLen := rfl
@[simp] theorem State.push_outLen (b : Byte) (s : State) : (s.push b).outLen = s.outLen := rfl
@[simp] theorem State.push_inBuf (b : Byte) (s : State) : (s.push b).inBuf = s.inBuf := rfl
@[simp] theorem State.push_outBuf (b : Byte) (s : State) : (s.push b).outBuf = Memory.write s.outBuf s.opos b := rfl
@[simp] theorem State.push_phase (b : Byte) (s : State) : (s.push b).phase = s.phase := rfl
@[simp] theorem State.push_cmdWord (b : Byte) (s : State) : (s.push b).cmdWord = s.cmdWord := rfl
@[simp] theorem State.push_reader (b : Byte) (s : State) : (s.push b).reader = s.reader := rfl
@[simp] theorem State.push_ipos (b : Byte) (s : State) : (s.push b).ipos = s.ipos := rfl
@[simp] theorem State.push_opos (b : Byte) (s : State) : (s.push b).opos = s.opos + 1 := rfl
@[simp] theorem State.push_freq (b : Byte) (s : State) : (s.push b).freq = s.freq := rfl
@[simp] theorem State.push_node (b : Byte) (s : State) : (s.push b).node = s.node := rfl
@[simp] theorem State.push_list (b : Byte) (s : State) : (s.push b).list = s.list := rfl
@[simp] theorem State.push_nsym (b : Byte) (s : State) : (s.push b).nsym = s.nsym := rfl
@[simp] theorem State.push_root (b : Byte) (s : State) : (s.push b).root = s.root := rfl
@[simp] theorem State.push_code (b : Byte) (s : State) : (s.push b).code = s.code := rfl
@[simp] theorem State.push_acc (b : Byte) (s : State) : (s.push b).acc = s.acc := rfl
@[simp] theorem State.push_nbits (b : Byte) (s : State) : (s.push b).nbits = s.nbits := rfl
@[simp] theorem State.push_pbase (b : Byte) (s : State) : (s.push b).pbase = s.pbase := rfl
@[simp] theorem State.push_pbytes (b : Byte) (s : State) : (s.push b).pbytes = s.pbytes := rfl
@[simp] theorem State.push_pad (b : Byte) (s : State) : (s.push b).pad = s.pad := rfl
@[simp] theorem State.push_useful (b : Byte) (s : State) : (s.push b).useful = s.useful := rfl
@[simp] theorem State.push_bitpos (b : Byte) (s : State) : (s.push b).bitpos = s.bitpos := rfl
@[simp] theorem State.push_cand (b : Byte) (s : State) : (s.push b).cand = s.cand := rfl
@[simp] theorem State.push_hist (b : Byte) (s : State) : (s.push b).hist = s.hist := rfl
@[simp] theorem State.push_look (b : Byte) (s : State) : (s.push b).look = s.look := rfl
@[simp] theorem State.push_hMax (b : Byte) (s : State) : (s.push b).hMax = s.hMax := rfl
@[simp] theorem State.push_pMax (b : Byte) (s : State) : (s.push b).pMax = s.pMax := rfl
@[simp] theorem State.push_bestOff (b : Byte) (s : State) : (s.push b).bestOff = s.bestOff := rfl
@[simp] theorem State.push_bestLen (b : Byte) (s : State) : (s.push b).bestLen = s.bestLen := rfl
@[simp] theorem State.push_bestLit (b : Byte) (s : State) : (s.push b).bestLit = s.bestLit := rfl
@[simp] theorem State.push_host (b : Byte) (s : State) : (s.push b).host = s.host := rfl
@[simp] theorem State.push_regRead (b : Byte) (s : State) : (s.push b).regRead = s.regRead := rfl
@[simp] theorem State.push_byteRead (b : Byte) (s : State) : (s.push b).byteRead = s.byteRead := rfl
@[simp] theorem State.push_epoch (b : Byte) (s : State) : (s.push b).epoch = s.epoch := rfl
@[simp] theorem State.push_freeReads (b : Byte) (s : State) : (s.push b).freeReads = s.freeReads := rfl

/-! ### setPhase: Going to the next phase (R102). -/

@[simp] theorem State.setPhase_params (p : Phase) (s : State) : (s.setPhase p).params = s.params := rfl
@[simp] theorem State.setPhase_status (p : Phase) (s : State) : (s.setPhase p).status = s.status := rfl
@[simp] theorem State.setPhase_cfgHist (p : Phase) (s : State) : (s.setPhase p).cfgHist = s.cfgHist := rfl
@[simp] theorem State.setPhase_cfgPreview (p : Phase) (s : State) : (s.setPhase p).cfgPreview = s.cfgPreview := rfl
@[simp] theorem State.setPhase_inLen (p : Phase) (s : State) : (s.setPhase p).inLen = s.inLen := rfl
@[simp] theorem State.setPhase_outLen (p : Phase) (s : State) : (s.setPhase p).outLen = s.outLen := rfl
@[simp] theorem State.setPhase_inBuf (p : Phase) (s : State) : (s.setPhase p).inBuf = s.inBuf := rfl
@[simp] theorem State.setPhase_outBuf (p : Phase) (s : State) : (s.setPhase p).outBuf = s.outBuf := rfl
@[simp] theorem State.setPhase_phase (p : Phase) (s : State) : (s.setPhase p).phase = p := rfl
@[simp] theorem State.setPhase_cmdWord (p : Phase) (s : State) : (s.setPhase p).cmdWord = s.cmdWord := rfl
@[simp] theorem State.setPhase_reader (p : Phase) (s : State) : (s.setPhase p).reader = s.reader := rfl
@[simp] theorem State.setPhase_ipos (p : Phase) (s : State) : (s.setPhase p).ipos = s.ipos := rfl
@[simp] theorem State.setPhase_opos (p : Phase) (s : State) : (s.setPhase p).opos = s.opos := rfl
@[simp] theorem State.setPhase_freq (p : Phase) (s : State) : (s.setPhase p).freq = s.freq := rfl
@[simp] theorem State.setPhase_node (p : Phase) (s : State) : (s.setPhase p).node = s.node := rfl
@[simp] theorem State.setPhase_list (p : Phase) (s : State) : (s.setPhase p).list = s.list := rfl
@[simp] theorem State.setPhase_nsym (p : Phase) (s : State) : (s.setPhase p).nsym = s.nsym := rfl
@[simp] theorem State.setPhase_root (p : Phase) (s : State) : (s.setPhase p).root = s.root := rfl
@[simp] theorem State.setPhase_code (p : Phase) (s : State) : (s.setPhase p).code = s.code := rfl
@[simp] theorem State.setPhase_acc (p : Phase) (s : State) : (s.setPhase p).acc = s.acc := rfl
@[simp] theorem State.setPhase_nbits (p : Phase) (s : State) : (s.setPhase p).nbits = s.nbits := rfl
@[simp] theorem State.setPhase_pbase (p : Phase) (s : State) : (s.setPhase p).pbase = s.pbase := rfl
@[simp] theorem State.setPhase_pbytes (p : Phase) (s : State) : (s.setPhase p).pbytes = s.pbytes := rfl
@[simp] theorem State.setPhase_pad (p : Phase) (s : State) : (s.setPhase p).pad = s.pad := rfl
@[simp] theorem State.setPhase_useful (p : Phase) (s : State) : (s.setPhase p).useful = s.useful := rfl
@[simp] theorem State.setPhase_bitpos (p : Phase) (s : State) : (s.setPhase p).bitpos = s.bitpos := rfl
@[simp] theorem State.setPhase_cand (p : Phase) (s : State) : (s.setPhase p).cand = s.cand := rfl
@[simp] theorem State.setPhase_hist (p : Phase) (s : State) : (s.setPhase p).hist = s.hist := rfl
@[simp] theorem State.setPhase_look (p : Phase) (s : State) : (s.setPhase p).look = s.look := rfl
@[simp] theorem State.setPhase_hMax (p : Phase) (s : State) : (s.setPhase p).hMax = s.hMax := rfl
@[simp] theorem State.setPhase_pMax (p : Phase) (s : State) : (s.setPhase p).pMax = s.pMax := rfl
@[simp] theorem State.setPhase_bestOff (p : Phase) (s : State) : (s.setPhase p).bestOff = s.bestOff := rfl
@[simp] theorem State.setPhase_bestLen (p : Phase) (s : State) : (s.setPhase p).bestLen = s.bestLen := rfl
@[simp] theorem State.setPhase_bestLit (p : Phase) (s : State) : (s.setPhase p).bestLit = s.bestLit := rfl
@[simp] theorem State.setPhase_host (p : Phase) (s : State) : (s.setPhase p).host = s.host := rfl
@[simp] theorem State.setPhase_regRead (p : Phase) (s : State) : (s.setPhase p).regRead = s.regRead := rfl
@[simp] theorem State.setPhase_byteRead (p : Phase) (s : State) : (s.setPhase p).byteRead = s.byteRead := rfl
@[simp] theorem State.setPhase_epoch (p : Phase) (s : State) : (s.setPhase p).epoch = s.epoch := rfl
@[simp] theorem State.setPhase_freeReads (p : Phase) (s : State) : (s.setPhase p).freeReads = s.freeReads := rfl

/-! ### The computed views -/

theorem State.inByte_congr {s t : State} (hb : t.inBuf = s.inBuf) (he : t.epoch = s.epoch) (a : Nat) :
    t.inByte a = s.inByte a := by simp only [State.inByte, hb, he]

/-- The input of a command is a function of `IN`, its power-on bytes and `IN_LEN`. -/
theorem State.input_congr {s t : State} (hb : t.inBuf = s.inBuf) (he : t.epoch = s.epoch) (hl : t.inLen = s.inLen) :
    t.input = s.input := by
  have h : t.inByte = s.inByte := funext (State.inByte_congr hb he)
  simp only [State.input, h, hl]

@[simp] theorem State.input_length (s : State) : s.input.length = s.inLen.toNat := by simp [State.input]

@[simp] theorem State.output_length (s : State) : s.output.length = s.outLen.toNat := by simp [State.output]

@[simp] theorem State.prologue_input (s : State) : s.prologue.input = s.input := State.input_congr rfl rfl rfl

@[simp] theorem State.start_input (w : Word) (s : State) : (s.start w).input = s.input := State.input_congr rfl rfl rfl

@[simp] theorem State.push_input (b : Byte) (s : State) : (s.push b).input = s.input := State.input_congr rfl rfl rfl

/-- A byte of `OUT` that was written reads as itself. -/
theorem State.outByte_of_read {s : State} {a : Nat} {b : Byte} (h : Memory.read? s.outBuf a = some b) :
    s.outByte a = b := by simp [State.outByte, h]

/-- A byte of `IN` that was written reads as itself. -/
theorem State.inByte_of_read {s : State} {a : Nat} {b : Byte} (h : Memory.read? s.inBuf a = some b) :
    s.inByte a = b := by simp [State.inByte, h]

end Sys2Proof.Machine
end

