-- ==== Sys2Proof/Laws/Ops.lean ====
section
/-! SUPPORT. One lemma for each shared operation that says everything it can do, so that a proof about a command cites it
instead of unfolding the operation; and how a sequence of operations is taken apart. -/

namespace Sys2Proof.Machine

/-! ### Runs -/

/-- A sequence succeeds exactly when its first part does and its rest does from there. -/
theorem Run.bind_ok {α β : Type} {x : Run α} {f : α → Run β} {b : β} :
    (x >>= f) = .ok b ↔ ∃ a, x = .ok a ∧ f a = .ok b := by
  cases x with
  | error e => exact ⟨fun h => (by cases h), fun ⟨_, h, _⟩ => (by cases h)⟩
  | ok a =>
    constructor
    · exact fun h => ⟨a, rfl, h⟩
    · rintro ⟨a', h, h'⟩
      cases h
      exact h'

/-- A sequence raises what its first part raises, or what its rest raises. -/
theorem Run.bind_error {α β : Type} {x : Run α} {f : α → Run β} {e : CodecError × State} :
    (x >>= f) = .error e ↔ x = .error e ∨ ∃ a, x = .ok a ∧ f a = .error e := by
  cases x with
  | error e' =>
    constructor
    · exact fun h => .inl (by cases h; rfl)
    · rintro (h | ⟨_, h, _⟩)
      · cases h; rfl
      · cases h
  | ok a =>
    constructor
    · exact fun h => .inr ⟨a, rfl, h⟩
    · rintro (h | ⟨a', h, h'⟩)
      · cases h
      · cases h; exact h'

@[simp] theorem settle_ok (s : State) : settle (.ok s) = s := rfl

@[simp] theorem settle_error (e : CodecError) (s : State) : settle (.error (e, s)) = s.enterError e := rfl

@[simp] theorem settle_raise (e : CodecError) (s : State) : settle (raise e s) = s.enterError e := rfl

@[simp] theorem complete_ok (s : State) : complete (.ok s) = s.epilogue := rfl

@[simp] theorem complete_error (e : CodecError) (s : State) : complete (.error (e, s)) = s.errorEntry e := rfl

@[simp] theorem complete_raise (e : CodecError) (s : State) : complete (raise e s) = s.errorEntry e := rfl

/-- Error entry leaves the `STATUS` word R200 tabulates. -/
@[simp] theorem statusOfError_eq (e : CodecError) : statusOfError e = errorWord e := by cases e <;> rfl

/-! ### The input check and the frame of a data command -/

theorem checkInput_ok {s : State} (h : s.inLen.toNat ≤ s.params.inCap) :
    checkInput s = .ok (s.setPhase .check) := by
  simp [checkInput, State.setPhase, Nat.not_lt.mpr h]

theorem checkInput_error {s : State} (h : s.params.inCap < s.inLen.toNat) :
    checkInput s = .error (.config, s.setPhase .check) := by
  simp [checkInput, State.setPhase, raise, h]

/-- A data command whose input fits runs its engine in the emptied state (R97, R98, R101). -/
theorem dataCommand_of_fits {s : State} (w : Word) (engine : State → Run State)
    (h : s.inLen.toNat ≤ s.params.inCap) :
    dataCommand w engine s = complete (engine ((s.start w).prologue.setPhase .check)) := by
  have hc : checkInput (s.start w).prologue = .ok ((s.start w).prologue.setPhase .check) := checkInput_ok (by simpa using h)
  simp only [dataCommand, hc]
  rfl

/-- A data command whose input does not fit ends in `ConfigError` (R101). -/
theorem dataCommand_of_overlong {s : State} (w : Word) (engine : State → Run State)
    (h : s.params.inCap < s.inLen.toNat) :
    dataCommand w engine s = ((s.start w).prologue.setPhase .check).errorEntry .config := by
  have hc : checkInput (s.start w).prologue = .error (.config, (s.start w).prologue.setPhase .check) :=
    checkInput_error (by simpa using h)
  simp only [dataCommand, hc]
  rfl

/-! ### Appending to `OUT` -/

theorem outByte_ok_iff {b : Byte} {s t : State} :
    outByte b s = .ok t ↔ s.opos ≠ s.params.outCap ∧ t = s.push b := by
  unfold outByte raise
  split <;> simp_all [eq_comm]

theorem outByte_error_iff {b : Byte} {s : State} {r : CodecError × State} :
    outByte b s = .error r ↔ s.opos = s.params.outCap ∧ r = (.capacity, s) := by
  unfold outByte raise
  split <;> simp_all [eq_comm]

/-- Append a run of bytes without looking at the capacity: what `outBytes` leaves when they fit. -/
def State.pushAll (bs : List Byte) (s : State) : State := bs.foldl (fun s b => s.push b) s

@[simp] theorem State.pushAll_nil (s : State) : s.pushAll [] = s := rfl

@[simp] theorem State.pushAll_cons (b : Byte) (bs : List Byte) (s : State) :
    s.pushAll (b :: bs) = (s.push b).pushAll bs := rfl

theorem State.pushAll_append (as bs : List Byte) (s : State) :
    s.pushAll (as ++ bs) = (s.pushAll as).pushAll bs := by simp [State.pushAll]

/-- Appending a run changes `OUT` and `OPOS` and nothing else. -/
theorem State.pushAll_frame (bs : List Byte) (s : State) :
    s.pushAll bs = { s with outBuf := (s.pushAll bs).outBuf, opos := s.opos + bs.length } := by
  induction bs generalizing s with
  | nil => rfl
  | cons b bs ih =>
    rw [State.pushAll_cons, ih (s.push b)]
    simp only [State.push, List.length_cons, Nat.add_assoc, Nat.add_comm 1]

@[simp] theorem State.pushAll_opos (bs : List Byte) (s : State) : (s.pushAll bs).opos = s.opos + bs.length := by
  rw [State.pushAll_frame]

@[simp] theorem State.pushAll_params (bs : List Byte) (s : State) : (s.pushAll bs).params = s.params := by
  rw [State.pushAll_frame]

/-- The bytes of `OUT` after a run was appended: the run from `OPOS` on, and every other byte as before. -/
theorem State.pushAll_read (bs : List Byte) (s : State) (a : Nat) :
    Memory.read? (s.pushAll bs).outBuf a
      = if s.opos ≤ a ∧ a < s.opos + bs.length then bs[a - s.opos]? else Memory.read? s.outBuf a := by
  induction bs generalizing s with
  | nil => simp [show ¬ (s.opos ≤ a ∧ a < s.opos) by omega]
  | cons b bs ih =>
    rw [State.pushAll_cons, ih]
    simp only [State.push_opos, State.push_outBuf, Memory.read?_write, List.length_cons]
    by_cases h0 : a = s.opos
    · subst h0; simp
    · by_cases h1 : s.opos + 1 ≤ a ∧ a < s.opos + 1 + bs.length
      · obtain ⟨k, rfl⟩ : ∃ k, a = s.opos + 1 + k := ⟨a - (s.opos + 1), by omega⟩
        simp only [h1, and_self, if_true]
        rw [if_pos (by omega), show s.opos + 1 + k - (s.opos + 1) = k by omega,
          show s.opos + 1 + k - s.opos = k + 1 by omega, List.getElem?_cons_succ]
      · rw [if_neg h1, if_neg h0, if_neg (by omega)]

/-- A run that fits is appended. -/
theorem outBytes_ok {bs : List Byte} {s : State} (h : s.opos + bs.length ≤ s.params.outCap) :
    outBytes bs s = .ok (s.pushAll bs) := by
  induction bs generalizing s with
  | nil => rfl
  | cons b bs ih =>
    simp only [List.length_cons] at h
    have hb : outByte b s = .ok (s.push b) := outByte_ok_iff.mpr ⟨by omega, rfl⟩
    have hr : outBytes bs (s.push b) = .ok ((s.push b).pushAll bs) := ih (by simp; omega)
    simp only [outBytes, List.foldlM_cons, hb] at hr ⊢
    exact hr

/-- A run that does not fit ends in `CapacityError`, with the buffer full and the bytes that fit appended. -/
theorem outBytes_error {bs : List Byte} {s : State} (h0 : s.opos ≤ s.params.outCap)
    (h : s.params.outCap < s.opos + bs.length) :
    outBytes bs s = .error (.capacity, s.pushAll (bs.take (s.params.outCap - s.opos))) := by
  induction bs generalizing s with
  | nil => simp at h; omega
  | cons b bs ih =>
    simp only [List.length_cons] at h
    by_cases hf : s.opos = s.params.outCap
    · have hb : outByte b s = .error (.capacity, s) := outByte_error_iff.mpr ⟨hf, rfl⟩
      simp only [outBytes, List.foldlM_cons, hb, hf]
      simp only [Nat.sub_self, List.take_zero, State.pushAll_nil]
      rfl
    · have hb : outByte b s = .ok (s.push b) := outByte_ok_iff.mpr ⟨hf, rfl⟩
      have hr := ih (s := s.push b) (by simp; omega) (by simp; omega)
      simp only [State.push_params, State.push_opos] at hr
      rw [show s.params.outCap - s.opos = (s.params.outCap - (s.opos + 1)) + 1 by omega, List.take_succ_cons,
        State.pushAll_cons]
      simp only [outBytes, List.foldlM_cons, hb] at hr ⊢
      exact hr

@[simp] theorem int32Bytes_length (e : Endian) (w : Word) : (int32Bytes e w).length = 4 := by cases e <;> rfl

/-- The pattern the encoders write for a non-negative value (R64 "w = v"). -/
theorem ofInt_natCast (n : Nat) : BitVec.ofInt 32 (n : Int) = BitVec.ofNat 32 n := BitVec.ofInt_natCast 32 n

/-! ### Reading the input -/

theorem readInt32_ok {a : Nat} {s : State} (h : a + 4 ≤ s.inLen.toNat) : readInt32 a s = .ok (int32At s a) := by
  simp [readInt32, int32At, Nat.not_lt.mpr h]

theorem readInt32_error {a : Nat} {s : State} (h : s.inLen.toNat < a + 4) : readInt32 a s = .error (.io, s) := by
  simp [readInt32, raise, h]

theorem int32Pattern_cases (e : Endian) (b0 b1 b2 b3 : Byte) :
    int32Pattern e b0 b1 b2 b3 = match e with
      | .little => int32Pattern .little b0 b1 b2 b3
      | .big => int32Pattern .little b3 b2 b1 b0 := by
  cases e
  · rfl
  · simp only [int32Pattern]
    congr 1
    omega

/-! ### The records -/

/-- Each record either goes on or is a `FormatError`; none of its checks writes anything first (R151). -/
theorem takeSymbolCount_spec (n : Int) (s : State) :
    takeSymbolCount n s = .error (.format, s) ∨
      (0 ≤ n ∧ n ≤ 256 ∧ 4 + 5 * n.toNat + 1 ≤ s.inLen.toNat ∧ takeSymbolCount n s = .ok { s with
        nsym := n.toNat, pbase := 4 + 5 * n.toNat, pbytes := s.inLen.toNat - 1 - (4 + 5 * n.toNat)
        reader := .paddingCount }) := by
  unfold takeSymbolCount raise
  split
  · exact .inl rfl
  · split
    · exact .inl rfl
    · exact .inr ⟨by omega, by omega, by omega, rfl⟩

/-- R153. -/
theorem takePaddingCount_spec (p : Byte) (s : State) :
    takePaddingCount p s = .error (.format, s) ∨
      (p.toNat < 8 ∧ (s.pbytes = 0 → p.toNat = 0) ∧ takePaddingCount p s = .ok { s with
        pad := p.toNat, useful := s.pbytes * 8 - p.toNat, reader := .tableEntries }) := by
  unfold takePaddingCount raise
  split
  · exact .inl rfl
  · split
    · exact .inl rfl
    · exact .inr ⟨by omega, by tauto, rfl⟩

/-- R152. -/
theorem takeTableEntry_spec (v : Byte) (c : Int) (s : State) :
    takeTableEntry v c s = .error (.format, s) ∨
      (s.freq.get v = 0 ∧ 1 ≤ c ∧ takeTableEntry v c s = .ok { s with freq := s.freq.set v c.toNat }) := by
  unfold takeTableEntry raise
  split
  · exact .inl rfl
  · split
    · exact .inl rfl
    · exact .inr ⟨by tauto, by omega, rfl⟩

/-- The back-reference check of a triplet (R192): refused, or the copy and the literal. -/
theorem expandTriplet_spec (off : Int) (l : Byte) (len : Int) (s : State) :
    (tripletBad ⟨off, l, len⟩ s.opos = true ∧ expandTriplet off l len s = .error (.format, s)) ∨
      (tripletBad ⟨off, l, len⟩ s.opos = false ∧
        expandTriplet off l len s = (copyBack off.toNat len.toNat s >>= fun t => outByte l t)) := by
  unfold expandTriplet raise tripletBad
  split
  · next h => exact .inl ⟨by simp only [decide_eq_true_eq]; tauto, rfl⟩
  · split
    · next h => exact .inl ⟨by simp only [decide_eq_true_eq]; tauto, rfl⟩
    · exact .inr ⟨by simp only [decide_eq_false_iff_not]; tauto, rfl⟩

end Sys2Proof.Machine
end

