-- ==== Sys2Proof/Laws/Engines.lean ====
section
/-! SUPPORT. The operations of the engines: the bit packer, the back-reference copy, the lookahead refill, the counting
loop, and the tree builder's merge. -/

namespace Sys2Proof.Machine

/-! ### The bit packer -/

/-- Setting one bit of the partial byte changes that bit only (R85). -/
theorem getLsbD_setBit (acc : Byte) (k j : Nat) (b : Bool) (hk : k < 8) :
    (setBit acc k b).getLsbD j = if j = k then b else acc.getLsbD j := by
  by_cases hj : j < 8
  · have h2 : ∀ i < 8, ∀ n < 8, (BitVec.ofNat 8 (2 ^ i)).getLsbD n = decide (n = i) := by decide
    unfold setBit
    cases b <;>
      simp only [Bool.false_eq_true, if_true, if_false, BitVec.getLsbD_or, BitVec.getLsbD_and, BitVec.getLsbD_not,
        h2 k hk j hj, hj, decide_true, Bool.true_and] <;>
      by_cases h : j = k <;> simp [h]
  · have h3 : j ≠ k := by omega
    unfold setBit
    cases b <;> simp [h3, BitVec.getLsbD_of_ge _ j (by omega : 8 ≤ j)]

theorem putBit_of_lt {b : Bool} {s : State} (h : s.nbits < 7) :
    putBit b s = .ok { s with acc := setBit s.acc s.nbits b, nbits := s.nbits + 1 } := by
  simp [putBit, show s.nbits ≠ 7 by omega]

/-- The eighth bit emits the byte (R85). -/
theorem putBit_of_seven {b : Bool} {s : State} (h : s.nbits = 7) (hr : s.opos ≠ s.params.outCap) :
    putBit b s = .ok { s.push (setBit s.acc 7 b) with acc := 0, nbits := 0 } := by
  simp only [putBit, h]
  simp only [outByte, hr, if_false]
  rfl

theorem flushBits_of_zero {s : State} (h : s.nbits = 0) : flushBits s = .ok (0, s) := by simp [flushBits, h]

/-- A partial byte is padded and emitted (R86). -/
theorem flushBits_of_pos {s : State} (h : s.nbits ≠ 0) (hr : s.opos ≠ s.params.outCap) :
    flushBits s = .ok (8 - s.nbits, { s.push (padOnes s.acc s.nbits) with acc := 0, nbits := 0 }) := by
  simp only [flushBits, h, if_false, outByte, hr]
  rfl

/-- Padding sets the bits from `NBITS` on and no other (R86). -/
theorem getLsbD_padOnes (acc : Byte) (n j : Nat) (hj : j < 8) :
    (padOnes acc n).getLsbD j = if n ≤ j then true else acc.getLsbD j := by
  have key : ∀ (m n : Nat) (acc : Byte), n + m = 8 →
      ((List.range' n m).foldl (fun acc k => setBit acc k true) acc).getLsbD j
        = if n ≤ j then true else acc.getLsbD j := by
    intro m
    induction m with
    | zero => intro n acc h; simp [show ¬ n ≤ j by omega]
    | succ m ih =>
      intro n acc h
      rw [List.range'_succ, List.foldl_cons, ih (n + 1) _ (by omega), getLsbD_setBit _ _ _ _ (by omega)]
      by_cases h1 : j = n
      · simp [h1]
      · by_cases h2 : n ≤ j
        · simp [h2, show n + 1 ≤ j by omega]
        · simp [h2, h1, show ¬ n + 1 ≤ j by omega]
  by_cases hn : n ≤ 8
  · exact key (8 - n) n acc (by omega)
  · simp [padOnes, show 8 - n = 0 by omega, show ¬ n ≤ j by omega]

/-! ### The back-reference copy -/

/-- A copy that fits appends as many bytes as it is long and changes nothing else (R193). -/
theorem copyBack_ok (off : Nat) {k : Nat} {s : State} (h : s.opos + k ≤ s.params.outCap) :
    ∃ bs : List Byte, bs.length = k ∧ copyBack off k s = .ok (s.pushAll bs) := by
  induction k generalizing s with
  | zero => exact ⟨[], rfl, rfl⟩
  | succ k ih =>
    obtain ⟨bs, hl, hc⟩ := ih (s := s.push (s.outByte (s.opos - off))) (by simp; omega)
    refine ⟨s.outByte (s.opos - off) :: bs, by simp [hl], ?_⟩
    have hb : outByte (s.outByte (s.opos - off)) s = .ok (s.push (s.outByte (s.opos - off))) :=
      outByte_ok_iff.mpr ⟨by omega, rfl⟩
    simp only [copyBack, hb, State.pushAll_cons]
    exact hc

/-- A copy only ever ends in `CapacityError` (R193). -/
theorem copyBack_error {off k : Nat} {s : State} {r : CodecError × State} (h : copyBack off k s = .error r) :
    r.1 = .capacity := by
  induction k generalizing s with
  | zero => cases h
  | succ k ih =>
    rcases Run.bind_error.mp h with h | ⟨t, _, h⟩
    · exact (outByte_error_iff.mp h).2 ▸ rfl
    · exact ih h

/-! ### The lookahead -/

theorem State.input_drop {s : State} {i : Nat} (h : i < s.inLen.toNat) :
    s.input.drop i = s.inByte i :: s.input.drop (i + 1) := by
  rw [List.drop_eq_getElem_cons (by simpa using h)]
  simp [State.input]

/-- `Refill()` takes what fits and remains (R173), for any number of turns that is enough. -/
theorem refillLoop_spec (k : Nat) (s : State) (h : s.inLen.toNat - s.ipos ≤ k) :
    refillLoop k s = { s with
      look := s.look ++ (s.input.drop s.ipos).take (s.pMax - s.look.length)
      ipos := s.ipos + min (s.pMax - s.look.length) (s.inLen.toNat - s.ipos) } := by
  induction k generalizing s with
  | zero =>
    have h0 : s.inLen.toNat - s.ipos = 0 := by omega
    have hd : s.input.drop s.ipos = [] := List.drop_eq_nil_of_le (by simp; omega)
    simp [refillLoop, hd, h0]
  | succ k ih =>
    simp only [refillLoop]
    split
    · next hc =>
      rw [ih]
      · have hi : s.input.drop s.ipos = s.inByte s.ipos :: s.input.drop (s.ipos + 1) := State.input_drop hc.2
        obtain ⟨d, hd⟩ : ∃ d, s.pMax - s.look.length = d + 1 := ⟨s.pMax - s.look.length - 1, by omega⟩
        have hd' : s.pMax - (s.look.length + 1) = d := by omega
        have hinp : ({ s with look := s.look ++ [s.inByte s.ipos], ipos := s.ipos + 1 } : State).input = s.input :=
          State.input_congr rfl rfl rfl
        simp only [hinp, List.length_append, List.length_singleton, hd, hd', hi, List.take_succ_cons,
          List.append_assoc, List.singleton_append]
        congr 1
        omega
      · simp only; omega
    · next hc =>
      rcases Nat.lt_or_ge s.look.length s.pMax with h1 | h1
      · have h2 : s.inLen.toNat ≤ s.ipos := by
          by_contra h3
          exact hc ⟨h1, by omega⟩
        have hd : s.input.drop s.ipos = [] := List.drop_eq_nil_of_le (by simp; omega)
        simp [hd, show s.inLen.toNat - s.ipos = 0 by omega]
      · simp [show s.pMax - s.look.length = 0 by omega]

theorem refill_spec (s : State) :
    refill s = { s with
      look := s.look ++ (s.input.drop s.ipos).take (s.pMax - s.look.length)
      ipos := s.ipos + min (s.pMax - s.look.length) (s.inLen.toNat - s.ipos) } :=
  refillLoop_spec _ s le_rfl

/-! ### Frequencies and the tree -/

theorem get_countByte (t : Table Nat) (v w : Byte) :
    (countByte t v).get w = t.get w + if w = v then 1 else 0 := by
  rw [countByte, Table.get_set]
  split <;> simp_all

/-- The sort is a permutation (R120). -/
theorem sortDescending_perm {α : Type} (key : α → Nat) (l : List α) : (sortDescending key l).Perm l :=
  List.perm_insertionSort _ l

@[simp] theorem sortDescending_length {α : Type} (key : α → Nat) (l : List α) :
    (sortDescending key l).length = l.length := (sortDescending_perm key l).length_eq

/-- One turn of the tree build loop adds a node and shortens the list by one (R119, R121). -/
theorem merge_lengths {f : Forest} (h : 2 ≤ f.list.length) :
    (merge f).node.length = f.node.length + 1 ∧ (merge f).list.length + 1 = f.list.length := by
  have hr : f.list.reverse.length = f.list.length := List.length_reverse
  unfold merge
  split
  · next r l rest heq => rw [heq] at hr; simp at hr ⊢; omega
  · next hno =>
    rcases hl : f.list.reverse with _ | ⟨r, _ | ⟨l, rest⟩⟩
    · rw [hl] at hr; simp at hr; omega
    · rw [hl] at hr; simp at hr; omega
    · exact absurd hl (hno r l rest)

end Sys2Proof.Machine
end

