-- ==== Sys2Proof/Laws/PerInstr.lean ====
section
/-! SUPPORT. Statements for all instructions, one lemma per constructor. `EncodedSize`: the encoding of an instruction is
as long as its row of the opcode table says (R60, R66, R67, R69, R71). -/

namespace Sys2Proof.Laws.EncodedSize

/-- In either byte order the encoding occupies the instruction's number of bytes. -/
def Statement (i : Instr) : Prop := ∀ e : Endian, (encode e i).bytes.length = i.size

theorem clear : Statement .clear := fun _ => rfl

theorem hufPack : Statement .hufPack := fun _ => rfl

theorem hufUnpack : Statement .hufUnpack := fun _ => rfl

theorem lzPack : Statement .lzPack := fun _ => rfl

theorem lzUnpack : Statement .lzUnpack := fun _ => rfl

theorem hufSymbolCount (count : Word) : Statement (.hufSymbolCount count) := fun e =>
  Machine.int32Bytes_length e count

theorem hufTableEntry (symbol : Byte) (frequency : Word) : Statement (.hufTableEntry symbol frequency) := fun e => by
  simp [encode, Fetched.bytes, Instr.size, Machine.int32Bytes_length]

theorem hufPaddingCount (padding : Byte) : Statement (.hufPaddingCount padding) := fun _ => rfl

theorem lzTriplet (offset : Word) (literal : Byte) (length : Word) : Statement (.lzTriplet offset literal length) :=
  fun e => by simp [encode, Fetched.bytes, Instr.size, Machine.int32Bytes_length]

end Sys2Proof.Laws.EncodedSize
end

