-- ==== Sys2Proof/Machine/Script.lean ====
section
/-! DEFINITION. Host scripts (spec 30_encoding.md R74, R75; 41_archiver_contract_commands.md R104, R105): the host
actions each script line and each of the source's contract operations stands for. The file half of `pack` and `unpack`
(opening, naming, reporting) is host software outside the block (00_scope.md R4; R108 to R111). -/

namespace Sys2Proof.Machine.Script

/-- `RESET`. -/
def reset : List HostAction := [.reset]

/-- `LOAD b0 b1 ... bk`: the bytes to `IN[0 ..)`, their number to `IN_LEN`. -/
def load (bytes : List Byte) : List HostAction :=
  (bytes.zipIdx.map fun c => .writeIn c.2 c.1) ++ [.writeReg 4 (BitVec.ofNat 32 bytes.length)]

/-- `SET reg, value`. -/
def set (index : Nat) (value : Word) : List HostAction := [.writeReg index value]

/-- `CMDW word`. -/
def cmdw (w : Word) : List HostAction := [.writeReg 0 w]

/-- `CMD mnemonic`: the mnemonic's command word. A stream record has none: it is no command. -/
def cmd (i : Instr) : List HostAction :=
  match encode .little i with
  | .command w => cmdw w
  | .symbolCount _ => []
  | .tableEntry _ => []
  | .paddingCount _ => []
  | .triplet _ => []

/-- `MOVE`: `OUT[0 .. OUT_LEN)` back to `IN`, as the host holds it after reading it out. -/
def move (s : State) : List HostAction := load s.output

/-- The block's part of `pack` with the Huffman engine (R104). -/
def packHuffman (file : List Byte) : List HostAction := load file ++ cmd .hufPack

/-- The block's part of `unpack` with the Huffman engine (R105). -/
def unpackHuffman (file : List Byte) : List HostAction := load file ++ cmd .hufUnpack

/-- The block's part of `pack` with the LZ77 engine (R104). -/
def packLz (file : List Byte) (historySize previewSize : Word) : List HostAction :=
  load file ++ set 2 historySize ++ set 3 previewSize ++ cmd .lzPack

/-- The block's part of `unpack` with the LZ77 engine (R105). -/
def unpackLz (file : List Byte) : List HostAction := load file ++ cmd .lzUnpack

end Sys2Proof.Machine.Script
end

