-- ==== Sys2Proof/Tests/Slice0.lean ====
section
/-! SUPPORT. Tests of the model against the spec's own examples (95_test_vectors.md; the vector is named at each test), the
smoke test of WellFormed, the decoding of words written out from 30_encoding.md, and for each statement with hypotheses a
witness: a concrete state and operands that meet them together. -/

namespace Sys2Proof.Tests

set_option Elab.async false

open Machine

/-! ### Builders -/

/-- Small parameters in either byte order; `OUT_CAP` as asked. -/
def params (e : Endian) (outCap : Nat) : Params :=
  { endian := e, inCap := 64, outCap := outCap, histCap := 4096, previewCap := 20480, resetHist := 4096, resetPreview := 5120 }

/-- A block after reset whose host has loaded `bytes` (R74 `LOAD`). -/
def loaded (p : Params) (bytes : List Byte) : State :=
  { State.resetWith p with
    inBuf := bytes.zipIdx.map fun c => (c.2, c.1)
    inLen := BitVec.ofNat 32 bytes.length }

/-- `STATUS` and the output after an instruction. -/
def result (i : Instr) (s : State) : Option (Word × List Byte) :=
  match exec i s with
  | .next t => some (t.status, t.output)
  | .fault _ => none
  | .refused _ => none

/-- `STATUS` and one number of the state after an instruction. -/
def after (i : Instr) (s : State) (f : State → Nat) : Option (Word × Nat) :=
  match exec i s with
  | .next t => some (t.status, f t)
  | .fault _ => none
  | .refused _ => none

/-- `STATUS` and the output after one step. -/
def stepResult (s : State) : Option (Word × List Byte) :=
  match step s with
  | .next t => some (t.status, t.output)
  | .fault _ => none
  | .refused _ => none

/-- `STATUS` and the output after a record that raises, and the step of `ERROR` after it. -/
def trapResult (i : Instr) (s : State) : Option (Word × List Byte) :=
  match exec i s with
  | .next t => if t.phase = .error .format then stepResult t else none
  | .fault _ => none
  | .refused _ => none

def abracadabra : List Byte := [0x41, 0x42, 0x52, 0x41, 0x43, 0x41, 0x44, 0x41, 0x42, 0x52, 0x41]
def ababab : List Byte := [0x41, 0x42, 0x41, 0x42, 0x41, 0x42]

/-- Vector HP6: the container of `AB`. -/
def containerAB : List Byte :=
  [0x02, 0, 0, 0, 0x41, 0x01, 0, 0, 0, 0x42, 0x01, 0, 0, 0, 0xFE, 0x06]

/-- Vector LP4: the stream of `AAAAAAA`. -/
def streamRun : List Byte := [0, 0, 0, 0, 0x41, 0, 0, 0, 0, 0x01, 0, 0, 0, 0x41, 0x05, 0, 0, 0]

/-! ### WellFormed refuses an ill-formed term for each check -/

theorem test_wf_count_257 : (Instr.hufSymbolCount 257).wellFormed = false := by decide
theorem test_wf_count_256 : (Instr.hufSymbolCount 256).wellFormed = true := by decide
theorem test_wf_count_negative : (Instr.hufSymbolCount 0xFFFFFFFF).wellFormed = false := by decide
theorem test_wf_frequency_zero : (Instr.hufTableEntry 0x41 0).wellFormed = false := by decide
theorem test_wf_frequency_negative : (Instr.hufTableEntry 0x41 0x80000000).wellFormed = false := by decide
theorem test_wf_padding_8 : (Instr.hufPaddingCount 8).wellFormed = false := by decide
theorem test_wf_offset_negative : (Instr.lzTriplet 0xFFFFFFFF 0x41 0).wellFormed = false := by decide
theorem test_wf_length_negative : (Instr.lzTriplet 0 0x41 0xFFFFFFFF).wellFormed = false := by decide
theorem test_wf_offset_zero_with_length : (Instr.lzTriplet 0 0x41 1).wellFormed = false := by decide
theorem test_wf_offset_without_length : (Instr.lzTriplet 5 0x41 0).wellFormed = true := by decide

/-! ### Words written out from the encodings (R62, R66, R67, R69, R71) -/

theorem test_decode_clear : decodeTableWord 32 0b00000000000000000000000000000000 = some .clear := by decide
theorem test_decode_hufPack : decodeTableWord 32 0b00000000000000000000000000000001 = some .hufPack := by decide
theorem test_decode_hufUnpack : decodeTableWord 32 0b00000000000000000000000000000010 = some .hufUnpack := by decide
theorem test_decode_lzPack : decodeTableWord 32 0b00000000000000000000000000000011 = some .lzPack := by decide
theorem test_decode_lzUnpack : decodeTableWord 32 0b00000000000000000000000000000100 = some .lzUnpack := by decide
theorem test_decode_illegal : decodeCommand 0x00000005 = .error (.illegalOpcode 5) := by decide
theorem test_decode_reserved : decodeCommand 0x00000101 = .error .reservedBits := by decide
theorem test_decode_symbolCount :
    decode .little (.symbolCount [0x00, 0x01, 0x00, 0x00]) = .ok (.hufSymbolCount 256) := by decide
theorem test_decode_tableEntry :
    decode .little (.tableEntry [0x52, 0x02, 0x00, 0x00, 0x00]) = .ok (.hufTableEntry 0x52 2) := by decide
theorem test_decode_paddingCount : decode .little (.paddingCount 0b00000111) = .ok (.hufPaddingCount 7) := by decide
theorem test_decode_padding_reserved : decode .little (.paddingCount 0b00001000) = .error .paddingRange := by decide
theorem test_decode_triplet_big :
    decode .big (.triplet [0x00, 0x00, 0x00, 0x02, 0x42, 0x00, 0x00, 0x00, 0x03]) = .ok (.lzTriplet 2 0x42 3) := by
  decide
theorem test_tableWord_entry : decodeTableWord 40 0x0000000541 = some (.hufTableEntry 0x41 5) := by decide
theorem test_tableWord_triplet : decodeTableWord 72 0x000000034200000002 = some (.lzTriplet 2 0x42 3) := by decide

/-! ### Instructions, one step each -/

/-- R100's example: `CLEAR` after a failed `HUF_UNPACK`. -/
theorem test_clear_after_error :
    result .clear { loaded (params .little 64) containerAB with status := 0x43 } = some (0, []) := by decide +kernel
/-- Vector K7. -/
theorem test_clear_does_not_check_length :
    after .clear { loaded (params .little 64) [] with inLen := 65 } (fun t => t.inLen.toNat) = some (0, 65) := by
  decide +kernel
/-- Vector HP12. -/
theorem test_hufPack_abracadabra : result .hufPack (loaded (params .little 64) abracadabra) = some (1,
    [0x05, 0, 0, 0, 0x41, 0x05, 0, 0, 0, 0x42, 0x02, 0, 0, 0, 0x43, 0x01, 0, 0, 0, 0x44, 0x01, 0, 0, 0,
      0x52, 0x02, 0, 0, 0, 0x45, 0xCA, 0xC5, 0x01]) := by decide +kernel
/-- Vector HP3, big. -/
theorem test_hufPack_single_symbol_big :
    result .hufPack (loaded (params .big 64) [0x41, 0x41, 0x41, 0x41])
      = some (1, [0, 0, 0, 0x01, 0x41, 0, 0, 0, 0x04, 0xF0, 0x04]) := by decide +kernel
/-- Vector HU14. -/
theorem test_hufUnpack_counts_unchecked :
    result .hufUnpack (loaded (params .little 64)
      [0x02, 0, 0, 0, 0x41, 0x05, 0, 0, 0, 0x42, 0x01, 0, 0, 0, 0xF8, 0x04])
      = some (1, [0x41, 0x41, 0x41, 0x42]) := by decide +kernel
/-- Vector HU15. -/
theorem test_hufUnpack_dangling :
    result .hufUnpack (loaded (params .little 64)
      [0x03, 0, 0, 0, 0x41, 0x01, 0, 0, 0, 0x42, 0x01, 0, 0, 0, 0x43, 0x01, 0, 0, 0, 0xFE, 0x07])
      = some (0x53, []) := by decide +kernel
/-- Vector LP19. -/
theorem test_lzPack_history_three :
    result .lzPack { loaded (params .little 64) [0x41, 0x42, 0x43, 0x41, 0x42, 0x43, 0x41, 0x42, 0x43] with
      cfgHist := 3, cfgPreview := 8 } = some (1,
      [0, 0, 0, 0, 0x41, 0, 0, 0, 0, 0, 0, 0, 0, 0x42, 0, 0, 0, 0, 0, 0, 0, 0, 0x43, 0, 0, 0, 0,
        0x03, 0, 0, 0, 0x43, 0x05, 0, 0, 0]) := by decide +kernel
/-- Vector LP16. -/
theorem test_lzPack_preview_two :
    result .lzPack { loaded (params .little 64) ababab with cfgPreview := 2 } = some (1,
      [0, 0, 0, 0, 0x41, 0, 0, 0, 0, 0, 0, 0, 0, 0x42, 0, 0, 0, 0, 0x02, 0, 0, 0, 0x42, 0x01, 0, 0, 0,
        0x04, 0, 0, 0, 0x42, 0x01, 0, 0, 0]) := by decide +kernel
/-- Vector LU9. -/
theorem test_lzUnpack_self_overlap :
    result .lzUnpack (loaded (params .little 64)
      [0, 0, 0, 0, 0x41, 0, 0, 0, 0, 0, 0, 0, 0, 0x42, 0, 0, 0, 0, 0x02, 0, 0, 0, 0x43, 0x05, 0, 0, 0])
      = some (1, [0x41, 0x42, 0x41, 0x42, 0x41, 0x42, 0x41, 0x43]) := by decide +kernel
/-- Vector LU15. -/
theorem test_lzUnpack_capacity : result .lzUnpack (loaded (params .little 6) streamRun) = some (0x63, []) := by
  decide +kernel
/-- R151: two symbols in 16 bytes put the payload at 14 (vector HP6's container). -/
theorem test_symbolCount_sets_base :
    after (.hufSymbolCount 2) (loaded (params .little 64) containerAB) State.pbase = some (0, 14) := by decide +kernel
/-- Vector HU6. -/
theorem test_symbolCount_257 :
    trapResult (.hufSymbolCount 257) (loaded (params .little 64) containerAB) = some (0x43, []) := by decide +kernel
/-- R159, `paddingBitCount = 7`. -/
theorem test_paddingCount_seven :
    after (.hufPaddingCount 7) { State.resetWith (params .little 64) with pbytes := 1 } State.useful = some (0, 1) := by
  decide +kernel
/-- Vector HU8. -/
theorem test_paddingCount_without_payload :
    trapResult (.hufPaddingCount 3) (State.resetWith (params .little 64)) = some (0x43, []) := by decide +kernel
/-- R67. -/
theorem test_tableEntry_sets_frequency :
    after (.hufTableEntry 0x41 5) (State.resetWith (params .little 64)) (fun t => t.freq.get 0x41) = some (0, 5) := by
  decide +kernel
/-- Vector HU11: frequency −1. -/
theorem test_tableEntry_negative :
    trapResult (.hufTableEntry 0x42 0xFFFFFFFF) (State.resetWith (params .little 64)) = some (0x43, []) := by decide +kernel
/-- Vector LU12's third record, after `41 42`. -/
theorem test_triplet_run :
    (match exec (.lzTriplet 1 0x43 3)
        { State.resetWith (params .little 64) with outBuf := [(0, 0x41), (1, 0x42)], opos := 2 } with
      | .next t => t.outBuf.map Prod.snd
      | .fault _ => []
      | .refused _ => []) = [0x41, 0x42, 0x42, 0x42, 0x42, 0x43] := by decide +kernel
/-- Vector LU11's second record, after one byte. -/
theorem test_triplet_too_far :
    trapResult (.lzTriplet 2 0x42 1)
      { State.resetWith (params .little 64) with outBuf := [(0, 0x41)], opos := 1 } = some (0x43, []) := by decide +kernel

/-! ### The engines and the host interface -/

/-- Vector T8, `MISSISSIPPI`: I=1 S=00 P=010 M=011. -/
theorem test_codes_mississippi :
    let code := codeTable (countBytes noCounts [0x4D, 0x49, 0x53, 0x53, 0x49, 0x53, 0x53, 0x49, 0x50, 0x50, 0x49])
    [code.get 0x49, code.get 0x53, code.get 0x50, code.get 0x4D]
      = [[true], [false, false], [false, true, false], [false, true, true]] := by decide +kernel
/-- Vector M1: the tie goes to the larger `i`. -/
theorem test_match_tie : findMaximumMatch [0x41, 0x41] [0x41, 0x41, 0x41, 0x42] = ⟨2, 3, 0x42⟩ := by decide +kernel
/-- Vector M6: the self-referential alignment. -/
theorem test_match_self_referential :
    findMaximumMatch [0x41, 0x42, 0x43, 0x41, 0x42] [0x41, 0x42, 0x41, 0x43] = ⟨2, 3, 0x43⟩ := by decide +kernel
/-- Vector K4: a reserved bit set. -/
theorem test_step_illegal_word :
    stepResult { loaded (params .little 64) ababab with host := Script.cmdw 0x00000101 } = some (0x13, []) := by
  decide +kernel
/-- R102: an illegal word goes from `PROLOGUE` to `ERROR`, and R204's writes are made there. -/
theorem test_phases_of_illegal_word :
    (match step ((loaded (params .little 64) ababab).start 0x00000005) with
      | .next t => some (t.phase, t.status, stepResult t)
      | .fault _ => none
      | .refused _ => none) = some (.error .illegalCommand, 0, some (0x13, [])) := by decide +kernel
/-- Script line `CMD HUF_UNPACK` on vector HP6. -/
theorem test_step_hufUnpack :
    stepResult { loaded (params .little 64) containerAB with host := Script.cmd .hufUnpack } = some (1, [0x41, 0x42]) := by
  decide +kernel

/-! ### Witnesses -/

/-- A loaded block meets the invariant: the witness of every statement about states that meet it. -/
theorem loaded_inv : Inv (loaded (params .little 64) ababab) where
  params := by decide +kernel
  inBuf := by decide +kernel
  outBuf := by decide +kernel
  opos := by decide +kernel
  outLen := by decide +kernel
  status := by decide +kernel
  noPartial := by decide +kernel
  running := fun h => absurd (by decide +kernel) h
  packer := fun h => absurd (by decide +kernel) h
  written := fun a h => by
    have h0 : (loaded (params .little 64) ababab).opos = 0 := by decide +kernel
    have h1 : (loaded (params .little 64) ababab).outLen.toNat = 0 := by decide +kernel
    omega

/-- A small loaded block. -/
def block : State := loaded (params .little 64) ababab

/-- The same block with one pending host action. -/
def blockWith (a : HostAction) : State := { block with host := [a] }

theorem witness_ResetHoldsTheSpecValues : (params .big 1).wf = true := by decide +kernel
theorem witness_ResetMeetsTheInvariant : (params .big 1).wf = true := by decide +kernel
theorem witness_HardwareResetEvent : ∃ (s : State) (rest : List HostAction), s.params.wf = true ∧ s.phase = .idle ∧ s.host = .reset :: rest :=
  ⟨blockWith .reset, [], by decide +kernel⟩
theorem witness_HostReadsRegisters : ∃ (s u : State) (rest : List HostAction),
    (s.phase = .idle ∧ s.host = .readReg 5 :: rest) ∧ (u.phase = .idle ∧ u.host = .readReg 6 :: rest) :=
  ⟨blockWith (.readReg 5), blockWith (.readReg 6), [], by decide +kernel⟩
theorem witness_HostWritesRegisters : ∃ (s u : State) (rest : List HostAction),
    (s.phase = .idle ∧ s.host = .writeReg 1 7 :: rest) ∧ (u.phase = .idle ∧ u.host = .writeReg 4 7 :: rest) :=
  ⟨blockWith (.writeReg 1 7), blockWith (.writeReg 4 7), [], by decide +kernel⟩
theorem witness_HostAccessesInput : ∃ (s u v : State) (rest : List HostAction),
    (s.phase = .idle ∧ s.host = .writeIn 63 7 :: rest) ∧ (u.phase = .idle ∧ u.host = .writeIn 64 7 :: rest)
    ∧ (v.phase = .idle ∧ v.host = .readIn 5 :: rest ∧ 5 < v.params.inCap ∧ Memory.read? v.inBuf 5 = some 0x42) :=
  ⟨blockWith (.writeIn 63 7), blockWith (.writeIn 64 7), blockWith (.readIn 5), [], by decide +kernel⟩
theorem witness_HostAccessesOutput : ∃ (s u : State) (rest : List HostAction),
    (s.phase = .idle ∧ s.host = .readOut 0 :: rest ∧ 0 < s.outLen.toNat ∧ Memory.read? s.outBuf 0 = some 0x41)
    ∧ (u.phase = .idle ∧ u.host = .writeOut 0 7 :: rest) :=
  ⟨{ blockWith (.readOut 0) with outBuf := [(0, 0x41)], outLen := 1 }, blockWith (.writeOut 0 7), [], by decide +kernel⟩
theorem witness_HostReadsWithoutValueAreFree : ∃ (s u v : State) (rest : List HostAction),
    (s.phase = .idle ∧ s.host = .readOut 0 :: rest ∧ s.outLen.toNat ≤ 0)
    ∧ (u.phase = .idle ∧ u.host = .readIn 64 :: rest ∧ u.params.inCap ≤ 64)
    ∧ (v.phase = .idle ∧ v.host = .readIn 6 :: rest ∧ Memory.read? v.inBuf 6 = none) :=
  ⟨blockWith (.readOut 0), blockWith (.readIn 64), blockWith (.readIn 6), [], by decide +kernel⟩

theorem witness_StepRunsTheCommandWritten : ∃ (s : State) (rest : List HostAction) (w : Word) (i : Instr),
    s.phase = .idle ∧ s.host = .writeReg 0 w :: rest ∧ decode s.params.endian (.command w) = .ok i :=
  ⟨blockWith (.writeReg 0 4), [], 4, .lzUnpack, by decide +kernel⟩
theorem witness_StepRunsTheStreamRecord :
    (∃ (s : State) (i : Instr), s.phase = .hHeaderIn ∧ s.reader = .symbolCount ∧ 4 ≤ s.inLen.toNat
      ∧ decode s.params.endian (.symbolCount (inBytes s 0 4)) = .ok i)
    ∧ (∃ (s : State) (i : Instr), s.phase = .hHeaderIn ∧ s.reader = .paddingCount
      ∧ decode s.params.endian (.paddingCount (s.inByte (s.inLen.toNat - 1))) = .ok i)
    ∧ (∃ (s : State) (i : Instr), s.phase = .hHeaderIn ∧ s.reader = .tableEntries ∧ s.ipos < s.pbase
      ∧ s.ipos + 5 ≤ s.inLen.toNat ∧ decode s.params.endian (.tableEntry (inBytes s s.ipos 5)) = .ok i)
    ∧ (∃ (s : State) (i : Instr), s.phase = .lDecode ∧ s.ipos + 9 ≤ s.inLen.toNat
      ∧ decode s.params.endian (.triplet (inBytes s s.ipos 9)) = .ok i) :=
  ⟨⟨State.withFetchWord (State.resetWith (params .little 64)) 32 256, .hufSymbolCount 256, by decide +kernel⟩,
    ⟨State.withFetchWord (State.resetWith (params .little 64)) 8 7, .hufPaddingCount 7, by decide +kernel⟩,
    ⟨State.withFetchWord (State.resetWith (params .little 64)) 40 0x0000000541, .hufTableEntry 0x41 5, by decide +kernel⟩,
    ⟨State.withFetchWord (State.resetWith (params .little 64)) 72 0x000000034200000002, .lzTriplet 2 0x42 3,
      by decide +kernel⟩⟩
theorem witness_StepsAnswerAndCommandsAreAtomic : ∃ s t : State, s.phase = .idle ∧ step s = .next t :=
  ⟨block, block, by decide +kernel, rfl⟩
theorem witness_PhaseStepsReachTheCommandsResult :
    (∃ s : State, s.phase = .idle)
    ∧ (∃ s t : State, decodeCommand s.cmdWord = .ok .hufUnpack ∧ s.phase ∈ Instr.hufUnpack.phasePath ∧ s.phase ≠ .idle
      ∧ step s = .next t)
    ∧ (∃ s t : State, (∀ i, decodeCommand s.cmdWord ≠ .ok i) ∧ s.phase = .prologue ∧ step s = .next t)
    ∧ ∃ (s t : State) (e : CodecError), s.phase = .error e ∧ step s = .next t :=
  ⟨⟨block, by decide +kernel⟩,
    ⟨{ block with phase := .hHeaderIn, cmdWord := 2, reader := .tableEntries },
      { block with phase := .hBuild, cmdWord := 2, reader := .tableEntries },
      by decide +kernel, by decide +kernel, by decide +kernel, rfl⟩,
    ⟨block.start 5, (block.start 5).prologue.enterError .illegalCommand, fun i => by
      have h : decodeCommand (block.start 5).cmdWord = .error (.illegalOpcode 5) := by decide +kernel
      rw [h]; simp, rfl, rfl⟩,
    block.enterError .capacity, (block.enterError .capacity).errorWrites .capacity, .capacity, rfl, rfl⟩
theorem witness_OnlyCommandsChangeTheResult : ∃ s t : State, s.phase = .idle ∧ step s = .next t
    ∧ (∀ w rest, s.host ≠ .writeReg 0 w :: rest) ∧ (∀ rest, s.host ≠ .reset :: rest) :=
  ⟨blockWith (.writeReg 4 9), { block with inLen := 9 }, by decide +kernel, rfl, by simp [blockWith], by simp [blockWith]⟩
theorem witness_OnlyTheHostChangesTheOperands : ∃ s t : State, step s = .next t
    ∧ (s.phase = .idle → ∀ rest, s.host ≠ .reset :: rest
      ∧ (∀ w, s.host ≠ .writeReg 2 w :: rest) ∧ (∀ w, s.host ≠ .writeReg 3 w :: rest)
      ∧ (∀ w, s.host ≠ .writeReg 4 w :: rest) ∧ (∀ a b, s.host ≠ .writeIn a b :: rest)) :=
  ⟨blockWith (.writeReg 0 5), illegalCommand 5 block, rfl, by simp [blockWith]⟩
theorem witness_StepKeepsTheInvariant : ∃ s t : State, Inv s ∧ step s = .next t := ⟨block, block, loaded_inv, rfl⟩
theorem witness_StatusFieldsAgree : ∃ s : State, Inv s := ⟨block, loaded_inv⟩

theorem witness_DecodeOfEncodeIsTheInstruction : (Instr.lzTriplet 0x7FFFFFFF 0xFF 0x7FFFFFFF).wellFormed = true := by
  decide
theorem witness_EncodeOfDecodeIsTheWord :
    decode .big (.tableEntry [0x41, 0x80, 0, 0, 0]) = .ok (.hufTableEntry 0x41 0x80000000) := by decide
theorem witness_IllegalWordsEndInIllegalCommand : ∃ (s : State) (rest : List HostAction) (w : Word), s.phase = .idle
    ∧ s.host = .writeReg 0 w :: rest ∧ w ≠ 0 ∧ w ≠ 1 ∧ w ≠ 2 ∧ w ≠ 3 ∧ w ≠ 4 :=
  ⟨blockWith (.writeReg 0 5), [], 5, by decide +kernel⟩
theorem witness_OverlongInputIsAConfigError : ∃ (s : State), s.params.inCap < s.inLen.toNat
    ∧ ∀ i ∈ [Instr.hufPack, .hufUnpack, .lzPack, .lzUnpack], i.isData = true :=
  ⟨{ block with inLen := 65 }, by decide +kernel⟩
theorem witness_CommandsEndWithAStatusOfTheirOwn :
    ∀ i ∈ [Instr.clear, .hufPack, .hufUnpack, .lzPack, .lzUnpack], i.isCommand = true := by decide
theorem witness_ResultDependsOnTheOperandsOnly : ∃ s u : State, s ≠ u ∧ s.params = u.params ∧ s.inLen = u.inLen
    ∧ s.input = u.input ∧ s.cfgHist = u.cfgHist ∧ s.cfgPreview = u.cfgPreview :=
  ⟨block, { block with status := 0x43, outBuf := [(0, 1)], nbits := 5, hist := [7] }, by decide +kernel⟩

theorem witness_OutByteAppendsOrRaises : ∃ s u : State, s.opos = s.params.outCap ∧ u.opos ≠ u.params.outCap :=
  ⟨{ block with opos := 64 }, { block with opos := 63 }, by decide +kernel⟩
theorem witness_WriteInt32AppendsFourBytes : ∃ (s u : State) (v : Int), -2 ^ 31 ≤ v ∧ v < 2 ^ 31
    ∧ s.opos + 4 ≤ s.params.outCap ∧ u.opos ≤ u.params.outCap ∧ u.params.outCap < u.opos + 4 :=
  ⟨{ block with opos := 60 }, { block with opos := 61 }, -2 ^ 31, by decide +kernel⟩
theorem witness_ReadInt32ReadsSignedOrRaises : ∃ (s : State) (a b : Nat), a + 4 ≤ s.inLen.toNat ∧ s.inLen.toNat < b + 4 :=
  ⟨block, 2, 3, by decide +kernel⟩
theorem witness_PackedBitsReadBack : ∃ (s : State) (bits : List Bool), s.acc = 0 ∧ s.nbits = 0
    ∧ s.opos + (bits.length + 7) / 8 ≤ s.params.outCap :=
  ⟨{ block with opos := 62 }, [true, false, true, false, false, false, true, false, true], by decide +kernel⟩

theorem witness_TreeIsStrictBinaryWithOneRoot :
    (symbols noCounts).length = 0 ∧ 1 ≤ (symbols (countBytes noCounts abracadabra)).length := by decide +kernel
theorem witness_CodeTableIsPrefixFreeAndComplete :
    2 ≤ (symbols (countBytes noCounts ababab)).length ∧ symbols (countBytes noCounts [0x41]) = [0x41] := by
  decide +kernel

theorem witness_HufPackWritesTheContainer : ∃ s : State, s.params.wf = true ∧ s.inLen.toNat ≤ s.params.inCap
    ∧ (hufEncode s.params.endian s.input).length ≤ s.params.outCap :=
  ⟨loaded (params .big 33) abracadabra, by decide +kernel⟩
theorem witness_HufPackWithoutRoomIsACapacityError : ∃ s : State, s.params.wf = true ∧ s.inLen.toNat ≤ s.params.inCap
    ∧ s.params.outCap < (hufEncode s.params.endian s.input).length :=
  ⟨loaded (params .little 32) abracadabra, by decide +kernel⟩
theorem witness_HufUnpackOfAStubIsAnIoError : ∃ s : State, s.inLen.toNat ≤ s.params.inCap ∧ s.inLen.toNat < 4 :=
  ⟨loaded (params .little 64) [0, 0, 0], by decide +kernel⟩
/-- Vector HU9, a duplicate symbol; vector HU2, four bytes. -/
theorem witness_HufUnpackOfABadHeaderIsAFormatError : ∃ s u : State,
    (s.inLen.toNat ≤ s.params.inCap ∧ 4 ≤ s.inLen.toNat ∧ containerOk s = false)
    ∧ (u.inLen.toNat ≤ u.params.inCap ∧ 4 ≤ u.inLen.toNat ∧ containerOk u = false) :=
  ⟨loaded (params .little 64) [0x02, 0, 0, 0, 0x41, 0x01, 0, 0, 0, 0x41, 0x01, 0, 0, 0, 0xFE, 0x06],
    loaded (params .little 64) [0, 0, 0, 0], by decide +kernel⟩
theorem witness_HufUnpackDecodesThePayload : ∃ (s : State) (out : List Byte), s.params.wf = true
    ∧ s.inLen.toNat ≤ s.params.inCap ∧ 4 ≤ s.inLen.toNat ∧ containerOk s = true
    ∧ (∀ v ∈ out, 0 < (containerTable s).get v)
    ∧ containerBits s = payloadBits (codeTable (containerTable s)) out ∧ out.length ≤ s.params.outCap :=
  ⟨loaded (params .little 2) containerAB, [0x41, 0x42], by decide +kernel⟩
/-- Vector HU16: no symbols, eight useful bits. -/
theorem witness_HufUnpackOfStrayBitsIsADecodeError : ∃ s : State, s.params.wf = true ∧ s.inLen.toNat ≤ s.params.inCap
    ∧ 4 ≤ s.inLen.toNat ∧ containerOk s = true
    ∧ (∀ out, allSymbols (containerTable s) out → containerBits s ≠ payloadBits (codeTable (containerTable s)) out)
    ∧ (∀ out, allSymbols (containerTable s) out → out.length = s.params.outCap + 1 →
      ¬ payloadBits (codeTable (containerTable s)) out <+: containerBits s) := by
  refine ⟨loaded (params .little 64) [0, 0, 0, 0, 0xFF, 0], by decide +kernel, by decide +kernel, by decide +kernel,
    by decide +kernel, ?_⟩
  have ht : containerTable (loaded (params .little 64) [0, 0, 0, 0, 0xFF, 0]) = noCounts := by decide +kernel
  have hb : containerBits (loaded (params .little 64) [0, 0, 0, 0, 0xFF, 0]) ≠ [] := by decide +kernel
  have hn : ∀ out, allSymbols noCounts out → out = [] := by
    rintro (_ | ⟨v, out⟩) h
    · rfl
    · exact absurd (h v (by simp)) (by simp [noCounts])
  rw [ht]
  refine ⟨fun out ho => ?_, fun out ho hl => ?_⟩
  · rw [hn out ho]; exact hb
  · rw [hn out ho] at hl; simp at hl
theorem witness_HufUnpackWithoutRoomIsACapacityError : ∃ (s : State) (out : List Byte), s.params.wf = true
    ∧ s.inLen.toNat ≤ s.params.inCap ∧ 4 ≤ s.inLen.toNat ∧ containerOk s = true
    ∧ (∀ v ∈ out, 0 < (containerTable s).get v) ∧ out.length = s.params.outCap + 1
    ∧ payloadBits (codeTable (containerTable s)) out <+: containerBits s :=
  ⟨loaded (params .little 1) containerAB, [0x41, 0x42], by decide +kernel⟩
theorem witness_HuffmanRoundTrip : ∃ s u : State, s.params.wf = true ∧ s.inLen.toNat ≤ s.params.inCap
    ∧ s.inLen.toNat ≤ s.params.outCap ∧ (hufEncode s.params.endian s.input).length ≤ s.params.outCap
    ∧ (hufEncode s.params.endian s.input).length ≤ s.params.inCap
    ∧ u.params = s.params ∧ u.input = hufEncode s.params.endian s.input :=
  ⟨loaded (params .little 64) [0x41, 0x42], loaded (params .little 64) containerAB, by decide +kernel⟩

theorem witness_SymbolCountRecordSetsTheLayout : ∃ (s : State) (n m : Word),
    (0 ≤ n.toInt ∧ n.toInt ≤ 256 ∧ 4 + 5 * n.toNat + 1 ≤ s.inLen.toNat)
    ∧ ¬ (0 ≤ m.toInt ∧ m.toInt ≤ 256 ∧ 4 + 5 * m.toNat + 1 ≤ s.inLen.toNat) :=
  ⟨{ block with inLen := 1285 }, 256, 257, by decide +kernel⟩
/-- With a payload, 7 and 8; without one, 0 and 1. -/
theorem witness_PaddingCountRecordSetsTheUsefulBits : ∃ (s u : State) (p q r : Byte),
    ((p.toNat < 8 ∧ (s.pbytes = 0 → p = 0)) ∧ ¬ (q.toNat < 8 ∧ (s.pbytes = 0 → q = 0)))
    ∧ u.pbytes = 0 ∧ ((0 : Byte).toNat < 8 ∧ (u.pbytes = 0 → (0 : Byte) = 0))
    ∧ r.toNat < 8 ∧ ¬ (r.toNat < 8 ∧ (u.pbytes = 0 → r = 0)) :=
  ⟨{ block with pbytes := 1 }, { block with pbytes := 0 }, 7, 8, 1, by decide +kernel⟩
/-- A frequency of 1 and of 0, and a byte value that has an entry already. -/
theorem witness_TableEntryRecordSetsOneFrequency : ∃ (s u : State) (v : Byte) (f g : Word),
    (s.freq.get v = 0 ∧ 1 ≤ f.toInt) ∧ ¬ (s.freq.get v = 0 ∧ 1 ≤ g.toInt)
    ∧ 1 ≤ f.toInt ∧ ¬ (u.freq.get v = 0 ∧ 1 ≤ f.toInt) :=
  ⟨block, { block with freq := block.freq.set 0x41 1 }, 0x41, 1, 0, by decide +kernel⟩

theorem witness_LzPackWithBadWindowsIsAConfigError : ∃ s u v : State,
    (s.inLen.toNat ≤ s.params.inCap ∧ s.cfgPreview.toNat < 1)
    ∧ (u.inLen.toNat ≤ u.params.inCap ∧ u.params.previewCap < u.cfgPreview.toNat)
    ∧ (v.inLen.toNat ≤ v.params.inCap ∧ v.params.histCap < v.cfgHist.toNat) :=
  ⟨{ block with cfgPreview := 0 }, { block with cfgPreview := 20481 }, { block with cfgHist := 4097 }, by decide +kernel⟩
theorem witness_LzPackWritesTheTriplets : ∃ s : State, s.params.wf = true ∧ s.inLen.toNat ≤ s.params.inCap
    ∧ windowsOk s = true
    ∧ (lzEncode s.params.endian s.cfgHist.toNat s.cfgPreview.toNat s.input).length ≤ s.params.outCap :=
  ⟨{ loaded (params .big 54) ababab with cfgPreview := 1, cfgHist := 0 }, by decide +kernel⟩
theorem witness_LzPackWithoutRoomIsACapacityError : ∃ s : State, s.params.wf = true ∧ s.inLen.toNat ≤ s.params.inCap
    ∧ windowsOk s = true
    ∧ s.params.outCap < (lzEncode s.params.endian s.cfgHist.toNat s.cfgPreview.toNat s.input).length :=
  ⟨{ loaded (params .little 26) ababab with cfgPreview := 20480 }, by decide +kernel⟩
theorem witness_FirstOccurrenceIsTheSmallest :
    firstOccurrence [0x41] [0x42, 0x41] = some 1 ∧ firstOccurrence [0x43] [0x42, 0x41] = none := by decide
theorem witness_ExtensionIsTheLongestRepetition : ∃ (look : List Byte) (i : Nat), 1 ≤ i ∧ i ≤ look.length - 1 :=
  ⟨[0x41, 0x41], 1, by decide⟩
theorem witness_MatchCanBeDecoded : ∃ (hist look : List Byte) (m : Match), look ≠ [] ∧ m = findMaximumMatch hist look
    ∧ 0 < m.length := ⟨[0x41], [0x41, 0x41], ⟨1, 1, 0x41⟩, by decide +kernel⟩
theorem witness_MatchIsTheLongestLatestCandidate : ∃ (hist look : List Byte) (m : Match), look ≠ []
    ∧ m = findMaximumMatch hist look ∧ occurrence hist look 1 = some 0 ∧ 0 < m.length :=
  ⟨[0x41], [0x41, 0x42], ⟨1, 1, 0x42⟩, by decide +kernel⟩
theorem witness_TripletsReconstructTheInput : ∃ (pMax : Nat) (ms : List Match), 1 ≤ pMax ∧ ms = lzTriplets 0 pMax [0x41] :=
  ⟨1, [⟨0, 0, 0x41⟩], by decide +kernel⟩

theorem witness_LzUnpackOfACutStreamIsAnIoError : ∃ s : State, s.inLen.toNat ≤ s.params.inCap ∧ s.inLen.toNat % 9 ≠ 0 :=
  ⟨loaded (params .little 64) (streamRun.take 8), by decide +kernel⟩
theorem witness_LzUnpackExpandsTheStream : ∃ (s : State) (out : List Byte), s.params.wf = true
    ∧ s.inLen.toNat ≤ s.params.inCap ∧ s.inLen.toNat % 9 = 0
    ∧ expandStream s.params.outCap (streamTriplets s) [] = .ok out :=
  ⟨loaded (params .little 7) streamRun, List.replicate 7 0x41, by decide +kernel⟩
theorem witness_LzUnpackEndsAtTheFirstBadRecord : ∃ s u : State,
    (s.params.wf = true ∧ s.inLen.toNat ≤ s.params.inCap ∧ s.inLen.toNat % 9 = 0
      ∧ expandStream s.params.outCap (streamTriplets s) [] = .error .capacity)
    ∧ (u.params.wf = true ∧ u.inLen.toNat ≤ u.params.inCap ∧ u.inLen.toNat % 9 = 0
      ∧ expandStream u.params.outCap (streamTriplets u) [] = .error .format) :=
  ⟨loaded (params .little 6) streamRun, loaded (params .little 6) (streamRun.drop 9), by decide +kernel⟩
theorem witness_TripletRecordCopiesAndAppends : ∃ (s : State) (o n : Word), 0 ≤ o.toInt ∧ 0 < n.toInt ∧ 1 ≤ o.toNat
    ∧ o.toNat ≤ s.opos ∧ s.opos + n.toNat + 1 ≤ s.params.outCap :=
  ⟨{ block with outBuf := [(0, 0x41)], opos := 1 }, 1, 62, by decide +kernel⟩
theorem witness_TripletRecordTraps : ∃ (s u : State) (o p m n : Word),
    (0 < n.toInt ∧ (s.opos : Int) < o.toInt)
    ∧ (0 ≤ p.toInt ∧ 0 ≤ m.toInt ∧ (0 < m.toInt → 1 ≤ p.toNat ∧ p.toNat ≤ u.opos)
      ∧ u.opos ≤ u.params.outCap ∧ u.params.outCap < u.opos + m.toNat + 1) :=
  ⟨block, { block with outBuf := [(0, 0x41)], opos := 1 }, 1, 1, 63, 1, by decide +kernel⟩
theorem witness_Lz77RoundTrip : ∃ s u : State, s.params.wf = true ∧ s.inLen.toNat ≤ s.params.inCap
    ∧ s.inLen.toNat ≤ s.params.outCap ∧ windowsOk s = true
    ∧ (lzEncode s.params.endian s.cfgHist.toNat s.cfgPreview.toNat s.input).length ≤ s.params.outCap
    ∧ (lzEncode s.params.endian s.cfgHist.toNat s.cfgPreview.toNat s.input).length ≤ s.params.inCap
    ∧ u.params = s.params
    ∧ u.input = lzEncode s.params.endian s.cfgHist.toNat s.cfgPreview.toNat s.input :=
  ⟨loaded (params .little 64) (List.replicate 7 0x41), loaded (params .little 64) streamRun, by decide +kernel⟩

end Sys2Proof.Tests
end

section
/-! The engine frame: all that a piece of an engine does to the state outside the transient fields is to append a run of
bytes to `OUT` (R19, R22, R36, R81), and it leaves `NBITS` below 8 unless it raises (R28, R85). -/

namespace Sys2Proof.Machine

/-! ### Appending to `OUT` as the only effect -/

/-- `t` is `s` with the bytes `bs` appended to `OUT` and any change of transient state. Every field has `rfl` as its default
proof, so that `{}` proves it of an update of transient fields. -/
structure Appended (bs : List Byte) (s t : State) : Prop extends Kept s t where
  params := by rfl
  cfgHist := by rfl
  cfgPreview := by rfl
  inLen := by rfl
  inBuf := by rfl
  host := by rfl
  regRead := by rfl
  byteRead := by rfl
  epoch := by rfl
  freeReads := by rfl
  status : t.status = s.status := by rfl
  outLen : t.outLen = s.outLen := by rfl
  opos : t.opos = s.opos + bs.length := by rfl
  outBuf : t.outBuf = (s.pushAll bs).outBuf := by rfl
  /-- `OPOS` never passes the buffer (R22). -/
  fits : s.opos ≤ s.params.outCap → s.opos + bs.length ≤ s.params.outCap := by exact id

/-- What `pushAll` stores depends on `OUT` and `OPOS` only. -/
theorem State.pushAll_outBuf_congr {s t : State} (bs : List Byte) (hb : t.outBuf = s.outBuf) (ho : t.opos = s.opos) :
    (t.pushAll bs).outBuf = (s.pushAll bs).outBuf := by
  induction bs generalizing s t with
  | nil => exact hb
  | cons b bs ih => exact ih (by simp [hb, ho]) (by simp [ho])

theorem Appended.trans {as bs : List Byte} {s t u : State} (h : Appended as s t) (h' : Appended bs t u) :
    Appended (as ++ bs) s u where
  params := h'.params.trans h.params
  cfgHist := h'.cfgHist.trans h.cfgHist
  cfgPreview := h'.cfgPreview.trans h.cfgPreview
  inLen := h'.inLen.trans h.inLen
  inBuf := h'.inBuf.trans h.inBuf
  host := h'.host.trans h.host
  regRead := h'.regRead.trans h.regRead
  byteRead := h'.byteRead.trans h.byteRead
  epoch := h'.epoch.trans h.epoch
  freeReads := h'.freeReads.trans h.freeReads
  status := h'.status.trans h.status
  outLen := h'.outLen.trans h.outLen
  opos := by rw [h'.opos, h.opos, List.length_append, Nat.add_assoc]
  outBuf := by
    rw [h'.outBuf, State.pushAll_append]
    exact State.pushAll_outBuf_congr bs h.outBuf (by rw [h.opos, State.pushAll_opos])
  fits := fun hs => by
    have ht := h'.fits (by rw [h.opos, h.params]; exact h.fits hs)
    rwa [h.opos, h.params, Nat.add_assoc, ← List.length_append] at ht

/-- A run of bytes was appended (R81), and a packer below its eighth bit is so again (R28). -/
structure Advances (s t : State) : Prop where
  appended : ∃ bs, Appended bs s t
  nbits : s.nbits < 8 → t.nbits < 8

/-- An update of transient fields that leaves `NBITS` alone. -/
theorem Advances.transient {s t : State} (h : Appended [] s t := by exact {}) (hn : t.nbits = s.nbits := by rfl) :
    Advances s t := ⟨⟨[], h⟩, fun hs => hn ▸ hs⟩

theorem Advances.trans {s t u : State} (h : Advances s t) (h' : Advances t u) : Advances s u := by
  obtain ⟨⟨as, ha⟩, hn⟩ := h
  obtain ⟨⟨bs, hb⟩, hn'⟩ := h'
  exact ⟨⟨as ++ bs, ha.trans hb⟩, fun hs => hn' (hn hs)⟩

/-- How a piece of an engine that starts in `s` ends: where it raises, `NBITS` may be 8 (R85). -/
def Works (s : State) : Run State → Prop
  | .ok t => Advances s t
  | .error (_, t) => ∃ bs, Appended bs s t

theorem Works.ok {s t : State} (h : Advances s t) : Works s (.ok t) := h

theorem Works.raise {s : State} (e : CodecError) : Works s (raise e s) := ⟨[], {}⟩

/-- What runs after `s` has advanced to `t` is a piece that starts in `s`. -/
theorem Works.after {s t : State} {r : Run State} (h : Advances s t) (hr : Works t r) : Works s r := by
  cases r with
  | ok u => exact h.trans hr
  | error e =>
    obtain ⟨as, ha⟩ := h.appended
    obtain ⟨bs, hb⟩ := hr
    exact ⟨as ++ bs, ha.trans hb⟩

theorem Works.bind {s : State} {x : Run State} {f : State → Run State} (hx : Works s x) (hf : ∀ t, Works t (f t)) :
    Works s (x >>= f) := by
  cases x with
  | ok t => exact Works.after hx (hf t)
  | error e => exact hx

/-- Reading an int32 of the stream changes nothing (R83). -/
theorem Works.readInt32_bind {s : State} {f : Int → Run State} (a : Nat) (hf : ∀ n, Works s (f n)) :
    Works s (readInt32 a s >>= f) := by
  rcases Nat.lt_or_ge s.inLen.toNat (a + 4) with h | h
  · rw [readInt32_error h]
    exact Works.raise .io
  · rw [readInt32_ok h]
    exact hf _

theorem Works.foldlM {α : Type} {f : State → α → Run State} (hf : ∀ s a, Works s (f s a)) (l : List α) (s : State) :
    Works s (l.foldlM f s) := by
  induction l generalizing s with
  | nil => exact Works.ok .transient
  | cons a l ih => exact Works.bind (hf s a) ih

/-! ### The shared operations and the bit packer -/

theorem outByte_works (b : Byte) (s : State) : Works s (outByte b s) := by
  by_cases h : s.opos = s.params.outCap
  · rw [outByte_error_iff.mpr ⟨h, rfl⟩]
    exact Works.raise .capacity
  · rw [outByte_ok_iff.mpr ⟨h, rfl⟩]
    exact Works.ok ⟨⟨[b], { fits := fun hs => by simp; omega }⟩, id⟩

theorem writeInt32_works (v : Int) (s : State) : Works s (writeInt32 v s) :=
  Works.foldlM (fun s b => outByte_works b s) _ s

theorem checkInput_works (s : State) : Works s (checkInput s) := by
  rcases Nat.lt_or_ge s.params.inCap s.inLen.toNat with h | h
  · rw [checkInput_error h]
    exact Works.after .transient (Works.raise .config)
  · rw [checkInput_ok h]
    exact Works.ok .transient

/-- Emitting the partial byte and emptying the packer (R85, R86), whatever `NBITS` was. -/
theorem packByte_works (b : Byte) {s t : State} (h : Appended [] s t) :
    Works s (outByte b t >>= fun u => .ok { u with acc := 0, nbits := 0 }) := by
  have hw : Works t (outByte b t) := outByte_works b t
  cases hr : outByte b t <;> rw [hr] at hw
  case error e =>
    obtain ⟨bs, hb⟩ := hw
    exact ⟨bs, h.trans hb⟩
  case ok u =>
    obtain ⟨bs, hb⟩ := hw.appended
    have hu : Appended [] u { u with acc := 0, nbits := 0 } := {}
    exact ⟨⟨_, (h.trans hb).trans hu⟩, fun _ => Nat.zero_lt_succ 7⟩

/-- The eighth bit empties the packer (R85), so a bit put below 8 leaves `NBITS` below 8. -/
theorem putBit_works (b : Bool) (s : State) : Works s (putBit b s) := by
  simp only [putBit]
  split
  · exact packByte_works _ {}
  · next h => exact Works.ok ⟨⟨[], {}⟩, fun hs => Nat.lt_of_le_of_ne hs h⟩

theorem putBits_works (bits : List Bool) (s : State) : Works s (putBits bits s) :=
  Works.foldlM (fun s b => putBit_works b s) bits s

/-- What runs after a flush starts from an empty packer (R86). -/
theorem Works.flushBits_bind {s : State} {f : Nat × State → Run State} (hf : ∀ n t, Works t (f (n, t))) :
    Works s (flushBits s >>= f) := by
  by_cases hn : s.nbits = 0
  · rw [flushBits_of_zero hn]
    exact hf 0 s
  · have hw : Works s (outByte (padOnes s.acc s.nbits) s >>= fun u => .ok { u with acc := 0, nbits := 0 }) :=
      packByte_works _ {}
    simp only [flushBits, hn, if_false]
    cases hr : outByte (padOnes s.acc s.nbits) s <;> rw [hr] at hw
    case error e => exact hw
    case ok u => exact Works.after hw (hf _ _)

/-! ### The Huffman engine -/

theorem emitEntry_works (s : State) (v : Byte) : Works s (emitEntry s v) :=
  Works.bind (outByte_works v s) fun t => writeInt32_works _ t

theorem headerOutPhase_works (s : State) : Works s (headerOutPhase s) :=
  Works.bind (Works.after .transient (writeInt32_works _ _)) fun t => Works.foldlM emitEntry_works _ t

theorem encodeByte_works (s : State) (v : Byte) : Works s (encodeByte s v) :=
  Works.bind (putBits_works _ s) fun _ => Works.ok .transient

theorem emitTrailer_works (s : State) : Works s (emitTrailer s) :=
  Works.flushBits_bind fun pad t => outByte_works (BitVec.ofNat 8 pad) t

theorem encodePhase_works (s : State) : Works s (encodePhase s) :=
  Works.bind (Works.after .transient (Works.foldlM encodeByte_works _ _)) emitTrailer_works

theorem hufPackEngine_works (s : State) : Works s (hufPackEngine s) :=
  Works.bind (Works.after .transient (headerOutPhase_works (codesPhase (buildPhase (countPhase s))))) encodePhase_works

theorem takeSymbolCount_works (n : Int) (s : State) : Works s (takeSymbolCount n s) := by
  rcases takeSymbolCount_spec n s with h | ⟨_, _, _, h⟩ <;> rw [h]
  · exact Works.raise .format
  · exact Works.ok .transient

theorem takePaddingCount_works (p : Byte) (s : State) : Works s (takePaddingCount p s) := by
  rcases takePaddingCount_spec p s with h | ⟨_, _, h⟩ <;> rw [h]
  · exact Works.raise .format
  · exact Works.ok .transient

theorem takeTableEntry_works (v : Byte) (c : Int) (s : State) : Works s (takeTableEntry v c s) := by
  rcases takeTableEntry_spec v c s with h | ⟨_, _, h⟩ <;> rw [h]
  · exact Works.raise .format
  · exact Works.ok .transient

theorem parseHeader_works (s : State) : Works s (parseHeader s) :=
  Works.readInt32_bind 0 fun n =>
    Works.bind (Works.after .transient (takeSymbolCount_works n _)) fun t => takePaddingCount_works _ t

theorem loadEntry_works (s : State) : Works s (loadEntry s) :=
  Works.readInt32_bind _ fun c => Works.after .transient (takeTableEntry_works _ c _)

theorem loadTable_works (k : Nat) (s : State) : Works s (loadTable k s) := by
  induction k generalizing s with
  | zero => exact Works.ok .transient
  | succ k ih => exact Works.bind (loadEntry_works s) ih

theorem headerInPhase_works (s : State) : Works s (headerInPhase s) :=
  Works.bind (Works.after .transient (parseHeader_works _)) fun t => loadTable_works t.nsym t

theorem decodeBit_works (s : State) : Works s (decodeBit s) := by
  simp only [decodeBit]
  split
  · exact Works.after .transient (Works.bind (outByte_works _ _) fun _ => Works.ok .transient)
  · split
    · exact Works.after .transient (Works.raise .decode)
    · exact Works.ok .transient

theorem decodeBits_works (k : Nat) (s : State) : Works s (decodeBits k s) := by
  induction k generalizing s with
  | zero =>
    unfold decodeBits
    split
    · exact Works.ok .transient
    · exact Works.raise .decode
  | succ k ih => exact Works.bind (decodeBit_works s) ih

theorem decodePhase_works (s : State) : Works s (decodePhase s) :=
  Works.after .transient (decodeBits_works s.useful _)

theorem hufUnpackEngine_works (s : State) : Works s (hufUnpackEngine s) :=
  Works.bind (headerInPhase_works s) fun t => Works.after .transient (decodePhase_works (codesPhase (buildPhase t)))

/-! ### The LZ77 engine -/

theorem checkWindows_works (s : State) : Works s (checkWindows s) := by
  unfold checkWindows
  split
  · exact Works.raise .config
  · split
    · exact Works.raise .config
    · exact Works.ok .transient

theorem refill_advances (s : State) : Advances s (refill s) := by
  rw [refill_spec]
  exact .transient

theorem emitTriplet_works (offset : Nat) (literal : Byte) (length : Nat) (s : State) :
    Works s (emitTriplet offset literal length s) :=
  Works.bind (writeInt32_works _ s) fun t => Works.bind (outByte_works literal t) fun u => writeInt32_works _ u

theorem encodeTriplet_works (s : State) : Works s (encodeTriplet s) :=
  Works.after .transient (emitTriplet_works _ _ _ (slide ((searchStep s).bestLen + 1) (searchStep s)))

theorem lzPackLoop_works (k : Nat) (s : State) : Works s (lzPackLoop k s) := by
  induction k generalizing s with
  | zero => exact Works.ok .transient
  | succ k ih =>
    simp only [lzPackLoop]
    refine Works.after (refill_advances s) ?_
    split
    · exact Works.ok .transient
    · exact Works.bind (encodeTriplet_works _) ih

theorem lzPackEngine_works (s : State) : Works s (lzPackEngine s) :=
  Works.bind (checkWindows_works s) fun t => Works.after .transient (lzPackLoop_works (t.inLen.toNat + 1) _)

theorem checkStreamLength_works (s : State) : Works s (checkStreamLength s) := by
  simp only [checkStreamLength]
  split
  · exact Works.after .transient (Works.raise .io)
  · exact Works.ok .transient

theorem copyBack_works (off k : Nat) (s : State) : Works s (copyBack off k s) := by
  induction k generalizing s with
  | zero => exact Works.ok .transient
  | succ k ih => exact Works.bind (outByte_works _ s) ih

theorem expandTriplet_works (off : Int) (literal : Byte) (len : Int) (s : State) :
    Works s (expandTriplet off literal len s) := by
  rcases expandTriplet_spec off literal len s with ⟨_, h⟩ | ⟨_, h⟩ <;> rw [h]
  · exact Works.raise .format
  · exact Works.bind (copyBack_works _ _ s) fun t => outByte_works literal t

theorem decodeOneTriplet_works (s : State) : Works s (decodeOneTriplet s) :=
  Works.readInt32_bind _ fun off => Works.readInt32_bind _ fun len =>
    Works.after .transient (expandTriplet_works off _ len _)

theorem lzUnpackLoop_works (k : Nat) (s : State) : Works s (lzUnpackLoop k s) := by
  induction k generalizing s with
  | zero => exact Works.ok .transient
  | succ k ih => exact Works.bind (decodeOneTriplet_works s) ih

theorem lzUnpackEngine_works (s : State) : Works s (lzUnpackEngine s) :=
  Works.bind (checkStreamLength_works s) fun t => Works.after .transient (lzUnpackLoop_works (t.inLen.toNat / 9) _)

end Sys2Proof.Machine
end

section
/-! O15: every step keeps the invariant of the block. A command past its prologue is `Ready`; the engines advance a ready
state, and the ways a piece of a command ends give `Inv` back. -/

namespace Sys2Proof.Machine

/-! ### A command in progress -/

/-- A command past its prologue that has raised nothing: `STATUS` and `OUT_LEN` are 0 and `NBITS` is below 8. -/
structure Ready (s : State) : Prop where
  inv : Inv s
  status : s.status = 0
  outLen : s.outLen = 0
  nbits : s.nbits < 8

/-- The phases past the prologue of a command that has raised nothing (R102). -/
def Phase.inProgress : Phase → Bool
  | .idle | .prologue | .error _ => false
  | .check | .hCount | .hHeaderOut | .hHeaderIn | .hBuild | .hCodes | .hEncode | .hDecode
  | .lEncode | .lDecode | .epilogue => true

theorem Inv.ready {s : State} (h : Inv s) (hp : s.phase.inProgress = true) : Ready s := by
  have hi : s.phase ≠ .idle := fun h' => by simp [h', Phase.inProgress] at hp
  have hpro : s.phase ≠ .prologue := fun h' => by simp [h', Phase.inProgress] at hp
  have he : ∀ e, s.phase ≠ .error e := fun e h' => by simp [h', Phase.inProgress] at hp
  obtain ⟨hs, hl⟩ := h.running hi hpro
  exact ⟨h, hs, hl, h.packer hi hpro he⟩

/-- The prologue (R97) makes any block ready, in whatever phase. -/
theorem Inv.ready_prologue {s : State} (h : Inv s) : Ready s.prologue where
  inv := {
    params := h.params
    inBuf := h.inBuf
    outBuf := h.outBuf
    opos := Nat.zero_le _
    outLen := Nat.zero_le _
    status := rfl
    noPartial := fun _ => rfl
    running := fun _ _ => ⟨rfl, rfl⟩
    packer := fun _ _ _ => Nat.zero_lt_succ 7
    written := fun a ha => by simp at ha }
  status := rfl
  outLen := rfl
  nbits := Nat.zero_lt_succ 7

/-- A run of bytes appended inside the buffer keeps the canonical form and the bound of `OUT` (R40). -/
theorem State.pushAll_keeps_outBuf {s : State} (bs : List Byte)
    (h : Memory.wf s.outBuf = true ∧ Memory.within s.outBuf s.params.outCap = true)
    (hf : s.opos + bs.length ≤ s.params.outCap) :
    Memory.wf (s.pushAll bs).outBuf = true ∧ Memory.within (s.pushAll bs).outBuf s.params.outCap = true := by
  induction bs generalizing s with
  | nil => exact h
  | cons b bs ih =>
    obtain ⟨hwf, hin⟩ := h
    rw [List.length_cons] at hf
    refine ih (s := s.push b) ⟨Memory.write_keeps_wf _ _ hwf, ?_⟩ ?_
    · exact Memory.write_keeps_within b hin (show s.opos < s.params.outCap by omega)
    · rw [State.push_opos, State.push_params]; omega

/-- Appending a run keeps every byte below `OPOS` written (R22). -/
theorem State.pushAll_keeps_written {s : State} (bs : List Byte)
    (h : ∀ a, a < s.opos → (Memory.read? s.outBuf a).isSome = true) (a : Nat) (ha : a < s.opos + bs.length) :
    (Memory.read? (s.pushAll bs).outBuf a).isSome = true := by
  rw [State.pushAll_read]
  split
  · next hr => simp; omega
  · next hr => exact h a (by omega)

/-- Appending leaves the invariant of a ready block, up to what the phase reached asks of the packer. -/
theorem Ready.inv_of_appended {s t : State} {bs : List Byte} (h : Ready s) (ha : Appended bs s t)
    (hn : (∀ e, t.phase ≠ .error e) → t.nbits < 8) : Inv t := by
  have hs : t.status = 0 := ha.status.trans h.status
  have hl : t.outLen = 0 := ha.outLen.trans h.outLen
  have hf : s.opos + bs.length ≤ s.params.outCap := ha.fits h.inv.opos
  exact {
    params := ha.params ▸ h.inv.params
    inBuf := by rw [ha.inBuf, ha.params]; exact h.inv.inBuf
    outBuf := by rw [ha.outBuf, ha.params]; exact State.pushAll_keeps_outBuf bs h.inv.outBuf hf
    opos := by rw [ha.opos, ha.params]; exact hf
    outLen := by rw [hl]; exact Nat.zero_le _
    status := by rw [hs]; decide
    noPartial := fun _ => hl
    running := fun _ _ => ⟨hs, hl⟩
    packer := fun _ _ he => hn he
    written := fun a hw => by
      rw [hl, ha.opos] at hw
      rw [ha.outBuf]
      exact State.pushAll_keeps_written bs (fun a h' => h.inv.written a (.inl h')) a (by simpa using hw) }

theorem Ready.advances {s t : State} (h : Ready s) (ha : Advances s t) : Ready t := by
  obtain ⟨⟨bs, hb⟩, hn⟩ := ha
  exact ⟨h.inv_of_appended hb fun _ => hn h.nbits, hb.status.trans h.status, hb.outLen.trans h.outLen, hn h.nbits⟩

/-- A command is ready after its prologue, whatever its word (R95, R97). -/
theorem Inv.ready_issued {s : State} (h : Inv s) (w : Word) : Ready (s.start w).prologue :=
  h.ready_prologue.advances (t := (s.start w).prologue) .transient

/-- A raise leaves the invariant: in phase `ERROR` nothing is asked of the packer (R85, R102). -/
theorem Ready.enterError {s t : State} {bs : List Byte} (h : Ready s) (ha : Appended bs s t) (e : CodecError) :
    Inv (t.enterError e) :=
  h.inv_of_appended (ha.trans (bs := []) {}) fun he => absurd rfl (he e)

/-! ### How a command ends -/

/-- Error entry leaves no output and one of the error words (R204). -/
theorem Inv.errorWrites {s : State} (h : Inv s) (e : CodecError) : Inv (s.errorWrites e) where
  params := h.params
  inBuf := h.inBuf
  outBuf := h.outBuf
  opos := h.opos
  outLen := Nat.zero_le _
  status := by cases e <;> rfl
  noPartial := fun _ => rfl
  running := fun hi => absurd rfl hi
  packer := fun hi => absurd rfl hi
  written := fun a ha => h.written a (.inl (by simpa using ha))

/-- The epilogue makes what was written the output (R99). -/
theorem Ready.epilogue {s : State} (h : Ready s) : Inv s.epilogue := by
  have hs : s.epilogue.status = 1 := by rw [State.epilogue_status, h.status]; rfl
  have hl : s.epilogue.outLen.toNat = s.opos := by
    have hcap := h.inv.params
    have hop := h.inv.opos
    simp only [Params.wf, decide_eq_true_eq] at hcap
    rw [State.epilogue_outLen, BitVec.toNat_ofNat, Nat.mod_eq_of_lt]
    omega
  exact {
    params := h.inv.params
    inBuf := h.inv.inBuf
    outBuf := h.inv.outBuf
    opos := h.inv.opos
    outLen := by rw [hl]; exact h.inv.opos
    status := by rw [hs]; decide
    noPartial := fun he => by rw [hs] at he; exact absurd he (by decide)
    running := fun hi => absurd rfl hi
    packer := fun hi => absurd rfl hi
    written := fun a ha => by
      rw [hl] at ha
      exact h.inv.written a (.inl (or_self_iff.mp ha)) }

/-- A piece of a command taken as one step of the sequencer (R102). -/
theorem Ready.settle {s : State} {r : Run State} (h : Ready s) (hw : Works s r) : Inv (settle r) := by
  cases r with
  | ok t => exact (h.advances hw).inv
  | error e =>
    obtain ⟨bs, hb⟩ := hw
    exact h.enterError hb e.1

/-- A whole command, to its end (R98). -/
theorem Ready.complete {s : State} {r : Run State} (h : Ready s) (hw : Works s r) : Inv (complete r) := by
  cases r with
  | ok t => exact (h.advances hw).epilogue
  | error e =>
    obtain ⟨bs, hb⟩ := hw
    exact (h.enterError hb e.1).errorWrites e.1

theorem Ready.thenPhase {s : State} {r : Run State} (h : Ready s) (p : Phase) (hw : Works s r) :
    Inv (thenPhase p r) :=
  h.settle (Works.bind hw fun _ => Works.ok .transient)

theorem Ready.setPhase {s : State} (h : Ready s) (p : Phase) : Inv (s.setPhase p) := (h.advances .transient).inv

/-! ### The instructions -/

theorem dataCommand_keeps_inv {s : State} (h : Inv s) (w : Word) {engine : State → Run State}
    (he : ∀ t, Works t (engine t)) : Inv (dataCommand w engine s) :=
  (h.ready_issued w).complete (Works.bind (checkInput_works _) he)

/-- A command keeps the invariant of any block, and a record that of a command in progress. -/
theorem exec_keeps_inv {i : Instr} {s t : State} (h : Inv s) (hr : i.isCommand = false → Ready s)
    (he : exec i s = .next t) : Inv t := by
  cases i <;> cases he
  case clear => exact (h.ready_issued 0).setPhase .idle
  case hufPack => exact dataCommand_keeps_inv h _ hufPackEngine_works
  case hufUnpack => exact dataCommand_keeps_inv h _ hufUnpackEngine_works
  case lzPack => exact dataCommand_keeps_inv h _ lzPackEngine_works
  case lzUnpack => exact dataCommand_keeps_inv h _ lzUnpackEngine_works
  case hufSymbolCount count => exact (hr rfl).settle (takeSymbolCount_works count.toInt s)
  case hufTableEntry v f => exact (hr rfl).settle (takeTableEntry_works v f.toInt s)
  case hufPaddingCount p => exact (hr rfl).settle (takePaddingCount_works p s)
  case lzTriplet o l n => exact (hr rfl).settle (expandTriplet_works o.toInt l n.toInt s)

/-- Only the five commands are command words (R62). -/
theorem isCommand_of_decodeCommand {w : Word} {i : Instr} (h : decodeCommand w = .ok i) : i.isCommand = true := by
  unfold decodeCommand at h
  split at h
  · cases h
  · split at h <;> cases h <;> rfl

/-! ### The host's actions -/

theorem issue_keeps_inv {w : Word} {s t : State} (h : Inv s) (hs : issue w s = .next t) : Inv t := by
  unfold issue at hs
  split at hs
  · next i hd => exact exec_keeps_inv h (fun hc => by simp [isCommand_of_decodeCommand hd] at hc) hs
  · cases hs
    exact ((h.ready_issued w).enterError (bs := []) {} .illegalCommand).errorWrites .illegalCommand

/-- The state after power-on meets the invariant (R37). -/
theorem resetWith_inv {p : Params} (h : p.wf = true) : Inv (State.resetWith p) where
  params := h
  inBuf := ⟨rfl, rfl⟩
  outBuf := ⟨rfl, rfl⟩
  opos := Nat.zero_le _
  outLen := Nat.zero_le _
  status := rfl
  noPartial := fun _ => rfl
  running := fun hi => absurd rfl hi
  packer := fun hi => absurd rfl hi
  written := fun a ha => by simp [State.resetWith] at ha

theorem writeRegister_keeps_inv {s : State} (h : Inv s) (index : Nat) (w : Word) : Inv (s.writeRegister index w) := by
  unfold State.writeRegister
  split
  · exact { h with }
  · exact { h with }
  · exact { h with }
  · exact h

theorem hostWriteIn_keeps_inv {s : State} (h : Inv s) (a : Nat) (b : Byte) : Inv (s.hostWriteIn a b) := by
  unfold State.hostWriteIn
  split
  · next ha =>
    obtain ⟨hwf, hin⟩ := h.inBuf
    exact { h with inBuf := ⟨Memory.write_keeps_wf a b hwf, Memory.write_keeps_within b hin ha⟩ }
  · exact h

theorem readUnspecified_keeps_inv {s : State} (h : Inv s) : Inv s.readUnspecified := { h with }

theorem hostReadIn_keeps_inv {s : State} (h : Inv s) (a : Nat) : Inv (s.hostReadIn a) := by
  unfold State.hostReadIn
  split
  · split
    · exact { h with }
    · exact readUnspecified_keeps_inv h
  · exact readUnspecified_keeps_inv h

theorem hostReadOut_keeps_inv {s : State} (h : Inv s) (a : Nat) : Inv (s.hostReadOut a) := by
  unfold State.hostReadOut
  split
  · exact { h with }
  · exact readUnspecified_keeps_inv h

theorem hardReset_keeps_inv {s : State} (h : Inv s) : Inv s.hardReset := { resetWith_inv h.params with }

theorem hostAction_keeps_inv {a : HostAction} {s t : State} (h : Inv s) (hs : hostAction a s = .next t) : Inv t := by
  unfold hostAction at hs
  split at hs
  · exact issue_keeps_inv h hs
  all_goals cases hs
  · exact writeRegister_keeps_inv h _ _
  · exact { h with }
  · exact hostWriteIn_keeps_inv h _ _
  · exact hostReadIn_keeps_inv h _
  · exact h
  · exact hostReadOut_keeps_inv h _
  · exact hardReset_keeps_inv h

theorem hostStep_keeps_inv {s t : State} (h : Inv s) (hs : hostStep s = .next t) : Inv t := by
  unfold hostStep at hs
  split at hs
  · cases hs
    exact h
  · next a rest _ =>
    have hrest : Inv { s with host := rest } := { h with }
    exact hostAction_keeps_inv hrest hs

/-! ### The phases -/

/-- One record, fetched and run (R102). -/
theorem runRecord_keeps_inv {fetched : Option Fetched} {pass : State → State} {s t : State} (h : Ready s)
    (hp : Advances s (pass s)) (hs : runRecord fetched pass s = .next t) : Inv t := by
  have hpass : Ready (pass s) := h.advances hp
  unfold runRecord at hs
  split at hs
  · cases hs
    exact h.enterError (bs := []) {} .io
  · split at hs
    · exact exec_keeps_inv hpass.inv (fun _ => hpass) hs
    · cases hs
      exact hpass.enterError (bs := []) {} .format

theorem prologueStep_keeps_inv {s : State} (h : Inv s) : Inv (prologueStep s) := by
  have hp : Ready s.prologue := h.ready_prologue
  unfold prologueStep
  split
  · exact hp.enterError (bs := []) {} .illegalCommand
  · exact hp.setPhase .idle
  · exact hp.setPhase .check

theorem checkStep_works (s : State) : Works s (checkStep s) := by
  refine Works.bind (checkInput_works s) fun t => ?_
  split
  · exact Works.ok .transient
  · exact Works.ok .transient
  · exact Works.bind (checkWindows_works t) fun _ => Works.ok .transient
  · exact Works.bind (checkStreamLength_works t) fun _ => Works.ok .transient
  · exact Works.raise .illegalCommand

theorem codesStep_advances (s : State) : Advances s (codesStep s) := by
  unfold codesStep
  split <;> exact .transient

theorem headerInStep_keeps_inv {s t : State} (h : Ready s) (hs : headerInStep s = .next t) : Inv t := by
  unfold headerInStep at hs
  split at hs
  · exact runRecord_keeps_inv h .transient hs
  · exact runRecord_keeps_inv h .transient hs
  · split at hs
    · exact runRecord_keeps_inv h .transient hs
    · cases hs
      exact h.setPhase .hBuild

theorem lzEncodeStep_keeps_inv {s : State} (h : Ready s) : Inv (lzEncodeStep s) := by
  have hr : Ready (refill s) := h.advances (refill_advances s)
  simp only [lzEncodeStep]
  split
  · exact hr.setPhase .epilogue
  · exact hr.settle (encodeTriplet_works (refill s))

theorem lzDecodeStep_keeps_inv {s t : State} (h : Ready s) (hs : lzDecodeStep s = .next t) : Inv t := by
  unfold lzDecodeStep at hs
  split at hs
  · exact runRecord_keeps_inv h .transient hs
  · cases hs
    exact h.setPhase .epilogue

/-- Every phase of a command in progress keeps the invariant (R102). -/
theorem sequencerStep_keeps_inv {s t : State} (h : Inv s) (hs : sequencerStep s = .next t) : Inv t := by
  have ready : s.phase.inProgress = true → Ready s := h.ready
  unfold sequencerStep at hs
  cases hp : s.phase <;> rw [hp] at hs ready
  case hHeaderIn => exact headerInStep_keeps_inv (ready rfl) hs
  case lDecode => exact lzDecodeStep_keeps_inv (ready rfl) hs
  all_goals cases hs
  case idle => exact h
  case prologue => exact prologueStep_keeps_inv h
  case check => exact (ready rfl).settle (checkStep_works s)
  case hCount => exact ((ready rfl).advances .transient).inv
  case hBuild => exact ((ready rfl).advances .transient).inv
  case hCodes => exact ((ready rfl).advances (codesStep_advances s)).inv
  case hHeaderOut => exact (ready rfl).thenPhase .hEncode (headerOutPhase_works s)
  case hEncode => exact (ready rfl).thenPhase .epilogue (encodePhase_works s)
  case hDecode => exact (ready rfl).thenPhase .epilogue (decodePhase_works s)
  case lEncode => exact lzEncodeStep_keeps_inv (ready rfl)
  case epilogue => exact (ready rfl).epilogue
  case error e => exact h.errorWrites e

/-- Settles O15, by the two kinds of step: a host action of an idle block, and a phase of a command in progress. -/
theorem stepKeepsTheInvariant : Obligations.StepKeepsTheInvariant := by
  intro s t h hs
  unfold step at hs
  split at hs
  · exact hostStep_keeps_inv h hs
  · exact sequencerStep_keeps_inv h hs

end Sys2Proof.Machine
end

section
/-! The host interface: the step of an idle block is its next host action (R35, R41, R95), reset gives the spec's values
(R37), and the fields of `STATUS` agree (R13). -/

namespace Sys2Proof.Machine

/-! ### Reset and `STATUS` -/

/-- Legal reset values of the window registers fit a register (R6). -/
theorem Params.wf_resets_fit {p : Params} (h : p.wf = true) : p.resetHist < 2 ^ 32 ∧ p.resetPreview < 2 ^ 32 := by
  simp only [Params.wf, decide_eq_true_eq] at h
  omega

/-- Settles O1: each register by its reset value, the window registers because a legal value fits 32 bits. -/
theorem resetHoldsTheSpecValues : Obligations.ResetHoldsTheSpecValues := by
  refine ⟨fun p h => ?_, rfl, rfl⟩
  obtain ⟨hh, hp⟩ := Params.wf_resets_fit h
  have hist : (State.resetWith p).cfgHist.toNat = p.resetHist :=
    (BitVec.toNat_ofNat _ 32).trans (Nat.mod_eq_of_lt hh)
  have preview : (State.resetWith p).cfgPreview.toNat = p.resetPreview :=
    (BitVec.toNat_ofNat _ 32).trans (Nat.mod_eq_of_lt hp)
  have tables : ∀ v, (State.resetWith p).freq.get v = 0 ∧ (State.resetWith p).code.get v = [] := fun v =>
    ⟨Table.get_replicate 0 v, Table.get_replicate [] v⟩
  exact ⟨rfl, rfl, rfl, hist, preview, rfl, rfl, rfl, rfl, rfl, rfl, rfl, rfl, tables, rfl, rfl, rfl, rfl, rfl, rfl, rfl,
    rfl, rfl, rfl, rfl, rfl, rfl, fun _ => ⟨rfl, rfl⟩⟩

/-- Settles O2, by the invariant of the state after power-on. -/
theorem resetMeetsTheInvariant : Obligations.ResetMeetsTheInvariant :=
  ⟨fun _ h => resetWith_inv h, resetWith_inv (by decide)⟩

/-- The words `STATUS` can hold are 0, success, and the six error words (R13, R200). -/
theorem statusLegal_cases {w : Word} (h : statusLegal w = true) : w = 0 ∨ w = 1 ∨ ∃ e, w = errorWord e := by
  simp only [statusLegal, Bool.or_eq_true, beq_iff_eq, List.any_eq_true, statusOfError_eq] at h
  obtain (h | h) | ⟨e, _, h⟩ := h
  · exact .inl h
  · exact .inr (.inl h)
  · exact .inr (.inr ⟨e, h⟩)

/-- Settles O16: each of the eight words has the relation of the fields. -/
theorem statusFieldsAgree : Obligations.StatusFieldsAgree := by
  intro s h
  obtain hw | hw | ⟨e, hw⟩ := statusLegal_cases h.status <;> rw [hw]
  · decide
  · decide
  · cases e <;> decide

/-! ### One host action -/

theorem step_of_host {s : State} {a : HostAction} {rest : List HostAction} (hp : s.phase = .idle)
    (hh : s.host = a :: rest) : step s = hostAction a { s with host := rest } := by
  simp only [step, hp, if_true, hostStep, hh]

theorem step_of_no_host {s : State} (hp : s.phase = .idle) (hh : s.host = []) : step s = .next s := by
  simp only [step, hp, if_true, hostStep, hh]

/-- Any register but `CMD` is written as a register (R11). -/
theorem hostAction_writeReg {index : Nat} (h : index ≠ 0) (w : Word) (s : State) :
    hostAction (.writeReg index w) s = .next (s.writeRegister index w) := by
  cases index with
  | zero => exact absurd rfl h
  | succ n => rfl

/-- What each register index reads (R11, R12). -/
theorem State.register_eq (s : State) (index : Nat) :
    s.register index = if index = 1 then s.status else if index = 2 then s.cfgHist else if index = 3 then s.cfgPreview
      else if index = 4 then s.inLen else if index = 5 then s.outLen else 0 := by
  unfold State.register
  split <;> simp_all

/-- What a write of each register index stores (R11, R14, R15, R16). -/
theorem State.writeRegister_eq (s : State) (index : Nat) (w : Word) :
    s.writeRegister index w = { s with
      cfgHist := if index = 2 then w else s.cfgHist
      cfgPreview := if index = 3 then w else s.cfgPreview
      inLen := if index = 4 then w else s.inLen } := by
  unfold State.writeRegister
  split <;> simp_all

/-- Settles O4, by what each index reads. -/
theorem hostReadsRegisters : Obligations.HostReadsRegisters := by
  intro s rest index hp hh
  rw [step_of_host hp hh, ← State.register_eq]
  rfl

/-- Settles O5, by what a write of each index stores. -/
theorem hostWritesRegisters : Obligations.HostWritesRegisters := by
  intro s rest index w hp hi hh
  rw [step_of_host hp hh, hostAction_writeReg hi, State.writeRegister_eq]

/-- A host write of `IN` stores the byte where the buffer reaches, and touches no other field (R18, R41). -/
theorem State.hostWriteIn_eq (s : State) (a : Nat) (b : Byte) :
    s.hostWriteIn a b = { s with inBuf := (s.hostWriteIn a b).inBuf }
      ∧ ∀ x, Memory.read? (s.hostWriteIn a b).inBuf x
          = if x = a ∧ a < s.params.inCap then some b else Memory.read? s.inBuf x := by
  unfold State.hostWriteIn
  split
  · next h => exact ⟨rfl, fun x => by simp [Memory.read?_write, h]⟩
  · next h => exact ⟨rfl, fun x => by simp [h]⟩

theorem State.hostReadIn_of_read {s : State} {a : Nat} {b : Byte} (ha : a < s.params.inCap)
    (hb : Memory.read? s.inBuf a = some b) : s.hostReadIn a = { s with byteRead := b } := by
  simp [State.hostReadIn, ha, hb]

theorem State.hostReadOut_of_read {s : State} {a : Nat} {b : Byte} (ha : a < s.outLen.toNat)
    (hb : Memory.read? s.outBuf a = some b) : s.hostReadOut a = { s with byteRead := b } := by
  simp [State.hostReadOut, ha, State.outByte_of_read hb]

/-- Settles O6: read after write in the buffer, and a read of a listed byte. -/
theorem hostAccessesInput : Obligations.HostAccessesInput := by
  constructor
  · intro s rest a b hp hh
    obtain ⟨hframe, hread⟩ := State.hostWriteIn_eq { s with host := rest } a b
    exact ⟨_, step_of_host hp hh, hframe, hread⟩
  · intro s rest a b hp hh ha hb
    have hr : State.hostReadIn a { s with host := rest } = { s with host := rest, byteRead := b } :=
      State.hostReadIn_of_read ha hb
    rw [step_of_host hp hh, ← hr]
    rfl

/-- Settles O7: a byte below `OUT_LEN` reads as it was written, and the write action is ignored. -/
theorem hostAccessesOutput : Obligations.HostAccessesOutput := by
  constructor
  · intro s rest a b hp hh ha hb
    have hr : State.hostReadOut a { s with host := rest } = { s with host := rest, byteRead := b } :=
      State.hostReadOut_of_read ha hb
    rw [step_of_host hp hh, ← hr]
    rfl
  · intro s rest a b hp hh
    exact step_of_host hp hh

/-- A write of a legal command word runs its command (R12, R98). -/
theorem issue_of_decode {w : Word} {i : Instr} (h : decodeCommand w = .ok i) (s : State) : issue w s = exec i s := by
  simp only [issue, h]

/-- Settles O9: the head of the host's queue is the `CMD` write, which issues the decoded command. -/
theorem stepRunsTheCommandWritten : Obligations.StepRunsTheCommandWritten := by
  intro s rest w i hp hh hd
  rw [step_of_host hp hh]
  exact issue_of_decode hd _

/-! ### What the host's other actions leave alone -/

/-- A host read changes what the host holds and nothing of the block (R41). -/
theorem State.hostReadIn_frame (s : State) (a : Nat) :
    ∃ b n, s.hostReadIn a = { s with byteRead := b, freeReads := n } := by
  unfold State.hostReadIn
  split
  · split <;> exact ⟨_, _, rfl⟩
  · exact ⟨_, _, rfl⟩

theorem State.hostReadOut_frame (s : State) (a : Nat) :
    ∃ b n, s.hostReadOut a = { s with byteRead := b, freeReads := n } := by
  unfold State.hostReadOut
  split <;> exact ⟨_, _, rfl⟩

/-- No host action but a `CMD` write and reset touches the result of the last command (R13, R17, R19). -/
theorem hostAction_keeps_result {a : HostAction} {s t : State} (hs : hostAction a s = .next t)
    (hcmd : ∀ w, a ≠ .writeReg 0 w) (hreset : a ≠ .reset) :
    t.status = s.status ∧ t.outLen = s.outLen ∧ t.outBuf = s.outBuf := by
  cases a with
  | writeReg index w =>
    rw [hostAction_writeReg (fun h => hcmd w (h ▸ rfl)), State.writeRegister_eq] at hs
    cases hs
    exact ⟨rfl, rfl, rfl⟩
  | readReg index => cases hs; exact ⟨rfl, rfl, rfl⟩
  | writeIn addr b =>
    cases hs
    rw [(State.hostWriteIn_eq s addr b).1]
    exact ⟨rfl, rfl, rfl⟩
  | readIn addr =>
    obtain ⟨b, n, h⟩ := State.hostReadIn_frame s addr
    cases hs
    rw [h]
    exact ⟨rfl, rfl, rfl⟩
  | writeOut addr b => cases hs; exact ⟨rfl, rfl, rfl⟩
  | readOut addr =>
    obtain ⟨b, n, h⟩ := State.hostReadOut_frame s addr
    cases hs
    rw [h]
    exact ⟨rfl, rfl, rfl⟩
  | reset => exact absurd rfl hreset

/-- Settles O13: an idle block either has nothing to do or takes one such action. -/
theorem onlyCommandsChangeTheResult : Obligations.OnlyCommandsChangeTheResult := by
  intro s t hp hs hcmd hreset
  cases hh : s.host with
  | nil =>
    rw [step_of_no_host hp hh] at hs
    cases hs
    exact ⟨rfl, rfl, rfl⟩
  | cons a rest =>
    rw [step_of_host hp hh] at hs
    have h := hostAction_keeps_result hs (fun w h => hcmd w rest (h ▸ hh)) (fun h => hreset rest (h ▸ hh))
    exact h

end Sys2Proof.Machine
end

section
/-! What no command writes (R36): every piece of a command, and so every step of the sequencer, keeps what the host owns. -/

namespace Sys2Proof.Machine

/-! ### The frame of a command -/

theorem Kept.trans {s t u : State} (h : Kept s t) (h' : Kept t u) : Kept s u where
  params := h'.params.trans h.params
  cfgHist := h'.cfgHist.trans h.cfgHist
  cfgPreview := h'.cfgPreview.trans h.cfgPreview
  inLen := h'.inLen.trans h.inLen
  inBuf := h'.inBuf.trans h.inBuf
  host := h'.host.trans h.host
  regRead := h'.regRead.trans h.regRead
  byteRead := h'.byteRead.trans h.byteRead
  epoch := h'.epoch.trans h.epoch
  freeReads := h'.freeReads.trans h.freeReads

theorem kept_prologue (s : State) : Kept s s.prologue := ⟨rfl, rfl, rfl, rfl, rfl, rfl, rfl, rfl, rfl, rfl⟩

theorem kept_issued (w : Word) (s : State) : Kept s (s.start w).prologue :=
  ⟨rfl, rfl, rfl, rfl, rfl, rfl, rfl, rfl, rfl, rfl⟩

theorem kept_setPhase (p : Phase) (s : State) : Kept s (s.setPhase p) :=
  ⟨rfl, rfl, rfl, rfl, rfl, rfl, rfl, rfl, rfl, rfl⟩

theorem kept_epilogue (s : State) : Kept s s.epilogue := ⟨rfl, rfl, rfl, rfl, rfl, rfl, rfl, rfl, rfl, rfl⟩

theorem kept_enterError (e : CodecError) (s : State) : Kept s (s.enterError e) :=
  ⟨rfl, rfl, rfl, rfl, rfl, rfl, rfl, rfl, rfl, rfl⟩

theorem kept_errorWrites (e : CodecError) (s : State) : Kept s (s.errorWrites e) :=
  ⟨rfl, rfl, rfl, rfl, rfl, rfl, rfl, rfl, rfl, rfl⟩

theorem kept_errorEntry (e : CodecError) (s : State) : Kept s (s.errorEntry e) :=
  (kept_enterError e s).trans (kept_errorWrites e _)

theorem Advances.kept {s t : State} (h : Advances s t) : Kept s t := by
  obtain ⟨⟨bs, hb⟩, _⟩ := h
  exact hb.toKept

/-- A piece of a command taken as one step (R102). -/
theorem Works.settle_kept {s : State} {r : Run State} (h : Works s r) : Kept s (settle r) := by
  cases r with
  | ok t => exact Advances.kept h
  | error e =>
    obtain ⟨bs, hb⟩ := h
    exact hb.toKept.trans (kept_enterError e.1 e.2)

/-- A command taken to its end (R98). -/
theorem Works.complete_kept {s : State} {r : Run State} (h : Works s r) : Kept s (complete r) := by
  cases r with
  | ok t => exact (Advances.kept h).trans (kept_epilogue t)
  | error e =>
    obtain ⟨bs, hb⟩ := h
    exact hb.toKept.trans (kept_errorEntry e.1 e.2)

theorem Works.thenPhase_kept {s : State} {r : Run State} (h : Works s r) (p : Phase) : Kept s (thenPhase p r) :=
  (Works.bind h fun _ => Works.ok .transient).settle_kept

theorem dataCommand_kept (w : Word) {engine : State → Run State} (he : ∀ t, Works t (engine t)) (s : State) :
    Kept s (dataCommand w engine s) :=
  (kept_issued w s).trans (Works.bind (checkInput_works _) he).complete_kept

/-- No instruction writes what the host owns (R36). -/
theorem exec_kept {i : Instr} {s t : State} (he : exec i s = .next t) : Kept s t := by
  cases i <;> cases he
  case clear => exact (kept_issued 0 s).trans (kept_setPhase .idle _)
  case hufPack => exact dataCommand_kept _ hufPackEngine_works s
  case hufUnpack => exact dataCommand_kept _ hufUnpackEngine_works s
  case lzPack => exact dataCommand_kept _ lzPackEngine_works s
  case lzUnpack => exact dataCommand_kept _ lzUnpackEngine_works s
  case hufSymbolCount count => exact (takeSymbolCount_works count.toInt s).settle_kept
  case hufTableEntry v f => exact (takeTableEntry_works v f.toInt s).settle_kept
  case hufPaddingCount p => exact (takePaddingCount_works p s).settle_kept
  case lzTriplet o l n => exact (expandTriplet_works o.toInt l n.toInt s).settle_kept

/-- A `CMD` write, of a legal word or not (R103). -/
theorem issue_kept {w : Word} {s t : State} (hs : issue w s = .next t) : Kept s t := by
  unfold issue at hs
  split at hs
  · exact exec_kept hs
  · cases hs
    exact (kept_issued w s).trans (kept_errorEntry .illegalCommand _)

/-! ### The phases -/

theorem runRecord_kept {fetched : Option Fetched} {pass : State → State} {s t : State} (hp : Advances s (pass s))
    (hs : runRecord fetched pass s = .next t) : Kept s t := by
  unfold runRecord at hs
  split at hs
  · cases hs
    exact kept_enterError .io s
  · split at hs
    · exact hp.kept.trans (exec_kept hs)
    · cases hs
      exact hp.kept.trans (kept_enterError .format _)

theorem headerInStep_kept {s t : State} (hs : headerInStep s = .next t) : Kept s t := by
  unfold headerInStep at hs
  split at hs
  · exact runRecord_kept .transient hs
  · exact runRecord_kept .transient hs
  · split at hs
    · exact runRecord_kept .transient hs
    · cases hs
      exact kept_setPhase .hBuild s

theorem lzDecodeStep_kept {s t : State} (hs : lzDecodeStep s = .next t) : Kept s t := by
  unfold lzDecodeStep at hs
  split at hs
  · exact runRecord_kept .transient hs
  · cases hs
    exact kept_setPhase .epilogue s

theorem prologueStep_kept (s : State) : Kept s (prologueStep s) := by
  have hp : Kept s s.prologue := kept_prologue s
  unfold prologueStep
  split
  · exact hp.trans (kept_enterError .illegalCommand _)
  · exact hp.trans (kept_setPhase .idle _)
  · exact hp.trans (kept_setPhase .check _)

theorem lzEncodeStep_kept (s : State) : Kept s (lzEncodeStep s) := by
  have hr : Kept s (refill s) := (refill_advances s).kept
  simp only [lzEncodeStep]
  split
  · exact hr.trans (kept_setPhase .epilogue _)
  · exact hr.trans (encodeTriplet_works (refill s)).settle_kept

/-- Every phase of a command in progress keeps what the host owns (R36, R102). -/
theorem sequencerStep_kept {s t : State} (hs : sequencerStep s = .next t) : Kept s t := by
  unfold sequencerStep at hs
  cases hp : s.phase <;> rw [hp] at hs
  case hHeaderIn => exact headerInStep_kept hs
  case lDecode => exact lzDecodeStep_kept hs
  all_goals cases hs
  case idle => exact kept_setPhase s.phase s
  case prologue => exact prologueStep_kept s
  case check => exact (checkStep_works s).settle_kept
  case hCount => exact Advances.kept .transient
  case hBuild => exact Advances.kept .transient
  case hCodes => exact (codesStep_advances s).kept
  case hHeaderOut => exact (headerOutPhase_works s).thenPhase_kept .hEncode
  case hEncode => exact (encodePhase_works s).thenPhase_kept .epilogue
  case hDecode => exact (decodePhase_works s).thenPhase_kept .epilogue
  case lEncode => exact lzEncodeStep_kept s
  case epilogue => exact kept_epilogue s
  case error e => exact kept_errorWrites e s

/-! ### The operands -/

/-- The operands of a command: the parameters, the configuration registers, `IN_LEN` and `IN` (R14, R15, R16, R18). -/
def State.operands (s : State) : Params × Word × Word × Word × Memory :=
  (s.params, s.cfgHist, s.cfgPreview, s.inLen, s.inBuf)

theorem Kept.operands {s t : State} (h : Kept s t) : t.operands = s.operands := by
  simp only [State.operands, h.params, h.cfgHist, h.cfgPreview, h.inLen, h.inBuf]

/-- The host access that changes an operand, or reset: what a step that keeps the operands must not be. -/
def HostAction.setsOperand : HostAction → Prop
  | .writeReg index _ => index = 2 ∨ index = 3 ∨ index = 4
  | .writeIn _ _ | .reset => True
  | .readReg _ | .readIn _ | .writeOut _ _ | .readOut _ => False

/-- A host action other than those keeps the operands; a `CMD` write does because its command does (R36). -/
theorem hostAction_keeps_operands {a : HostAction} {s t : State} (hs : hostAction a s = .next t)
    (ha : ¬ a.setsOperand) : t.operands = s.operands := by
  cases a with
  | writeReg index w =>
    by_cases hi : index = 0
    · subst hi
      exact (issue_kept hs).operands
    · rw [hostAction_writeReg hi, State.writeRegister_eq] at hs
      cases hs
      simp only [HostAction.setsOperand, not_or] at ha
      obtain ⟨h2, h3, h4⟩ := ha
      simp [State.operands, h2, h3, h4]
  | readReg index => cases hs; rfl
  | writeIn addr b => exact absurd trivial ha
  | readIn addr =>
    obtain ⟨b, n, h⟩ := State.hostReadIn_frame s addr
    cases hs
    rw [h]
    rfl
  | writeOut addr b => cases hs; rfl
  | readOut addr =>
    obtain ⟨b, n, h⟩ := State.hostReadOut_frame s addr
    cases hs
    rw [h]
    rfl
  | reset => exact absurd trivial ha

theorem step_keeps_operands {s t : State} (hs : step s = .next t)
    (hhost : s.phase = .idle → ∀ a rest, s.host = a :: rest → ¬ a.setsOperand) : t.operands = s.operands := by
  by_cases hp : s.phase = .idle
  · cases hh : s.host with
    | nil =>
      rw [step_of_no_host hp hh] at hs
      cases hs
      rfl
    | cons a rest =>
      rw [step_of_host hp hh] at hs
      exact (hostAction_keeps_operands hs (hhost hp a rest hh)).trans rfl
  · rw [step, if_neg hp] at hs
    exact (sequencerStep_kept hs).operands

/-- Settles O14, by the frame of the commands and of the phases, and the host's other actions one by one. -/
theorem onlyTheHostChangesTheOperands : Obligations.OnlyTheHostChangesTheOperands := by
  intro s t hs hhost
  have h : t.operands = s.operands := by
    refine step_keeps_operands hs fun hp a rest hh ha => ?_
    obtain ⟨hreset, h2, h3, h4, hin⟩ := hhost hp rest
    cases a with
    | writeReg index w =>
      obtain rfl | rfl | rfl := ha
      · exact h2 w hh
      · exact h3 w hh
      · exact h4 w hh
    | writeIn addr b => exact hin addr b hh
    | reset => exact hreset hh
    | readReg | readIn | writeOut | readOut => exact ha
  simpa only [State.operands, Prod.mk.injEq] using h

end Sys2Proof.Machine
end

section
/-! How a piece of a command ends: which errors it can raise (R200), and that it leaves the phase and the command word to
the sequencer (R102). A piece that only appends to `OUT` changes nothing else at all (R81). -/

namespace Sys2Proof.Machine

/-! ### Pieces that only append to `OUT` -/

/-- The piece appends a run of bytes to `s`; where it raises, it is out of room (R81). -/
def Emits (s : State) : Run State → Prop
  | .ok t => ∃ bs, t = s.pushAll bs
  | .error (e, t) => e = .capacity ∧ ∃ bs, t = s.pushAll bs

theorem Emits.bind {s : State} {x : Run State} {f : State → Run State} (hx : Emits s x) (hf : ∀ t, Emits t (f t)) :
    Emits s (x >>= f) := by
  cases x with
  | error e => exact hx
  | ok t =>
    obtain ⟨as, rfl⟩ := hx
    have ht : Emits (s.pushAll as) (f (s.pushAll as)) := hf _
    show Emits s (f (s.pushAll as))
    cases hr : f (s.pushAll as) <;> rw [hr] at ht
    case ok u =>
      obtain ⟨bs, rfl⟩ := ht
      exact ⟨as ++ bs, (State.pushAll_append as bs s).symm⟩
    case error e =>
      obtain ⟨he, bs, hb⟩ := ht
      exact ⟨he, as ++ bs, hb.trans (State.pushAll_append as bs s).symm⟩

theorem Emits.foldlM {α : Type} {f : State → α → Run State} (hf : ∀ s a, Emits s (f s a)) (l : List α) (s : State) :
    Emits s (l.foldlM f s) := by
  induction l generalizing s with
  | nil => exact ⟨[], rfl⟩
  | cons a l ih => exact Emits.bind (hf s a) ih

theorem outByte_emits (b : Byte) (s : State) : Emits s (outByte b s) := by
  by_cases h : s.opos = s.params.outCap
  · rw [outByte_error_iff.mpr ⟨h, rfl⟩]
    exact ⟨rfl, [], rfl⟩
  · rw [outByte_ok_iff.mpr ⟨h, rfl⟩]
    exact ⟨[b], rfl⟩

theorem writeInt32_emits (v : Int) (s : State) : Emits s (writeInt32 v s) :=
  Emits.foldlM (fun s b => outByte_emits b s) _ s

theorem headerOutPhase_emits (s : State) : Emits (s.setPhase .hHeaderOut) (headerOutPhase s) :=
  Emits.bind (writeInt32_emits _ _) fun t =>
    Emits.foldlM (fun s v => Emits.bind (outByte_emits v s) fun u => writeInt32_emits _ u) _ t

/-- What is left of a turn of the encode loop after its search and slide (R170, R180). -/
theorem encodeTriplet_emits (s : State) :
    Emits (slide ((searchStep s).bestLen + 1) (searchStep s)) (encodeTriplet s) :=
  Emits.bind (writeInt32_emits _ _) fun t => Emits.bind (outByte_emits _ t) fun u => writeInt32_emits _ u

theorem copyBack_emits (off k : Nat) (s : State) : Emits s (copyBack off k s) := by
  induction k generalizing s with
  | zero => exact ⟨[], rfl⟩
  | succ k ih => exact Emits.bind (outByte_emits _ s) ih

/-- A triplet that is not refused appends its copy and its literal (R192 to R194). -/
theorem expandTriplet_emits (off : Int) (l : Byte) (len : Int) (s : State) :
    expandTriplet off l len s = .error (.format, s) ∨ Emits s (expandTriplet off l len s) := by
  rcases expandTriplet_spec off l len s with ⟨_, h⟩ | ⟨_, h⟩ <;> rw [h]
  · exact .inl rfl
  · exact .inr (Emits.bind (copyBack_emits _ _ s) fun t => outByte_emits l t)

/-! ### The phase and the command word -/

section

variable {es : List CodecError}

/-- The piece ends in phase `p` with command word `w`; where it raises, the error is one of `es` (R102, R200). -/
def Stays (es : List CodecError) (p : Phase) (w : Word) : Run State → Prop
  | .ok t => t.phase = p ∧ t.cmdWord = w
  | .error (e, t) => e ∈ es ∧ t.cmdWord = w

/-- A piece whose rest ends in a phase of its own. -/
theorem Stays.bind {p q : Phase} {w : Word} {x : Run State} {f : State → Run State}
    (hx : Stays es p w x) (hf : ∀ t, t.phase = p → Stays es q t.cmdWord (f t)) : Stays es q w (x >>= f) := by
  cases x with
  | error e => exact hx
  | ok t =>
    obtain ⟨hp, rfl⟩ := hx
    exact hf t hp

/-- A piece whose rest stays in the phase. -/
theorem Stays.andThen {p : Phase} {w : Word} {x : Run State} {f : State → Run State}
    (hx : Stays es p w x) (hf : ∀ t, Stays es t.phase t.cmdWord (f t)) : Stays es p w (x >>= f) :=
  hx.bind fun t ht => ht ▸ hf t

theorem Stays.foldlM {α : Type} {f : State → α → Run State}
    (hf : ∀ s a, Stays es s.phase s.cmdWord (f s a)) (l : List α) (s : State) :
    Stays es s.phase s.cmdWord (l.foldlM f s) := by
  induction l generalizing s with
  | nil => exact ⟨rfl, rfl⟩
  | cons a l ih => exact (hf s a).andThen ih

theorem Stays.readInt32_bind {p : Phase} {s : State} {f : Int → Run State} (hio : .io ∈ es)
    (a : Nat) (hf : ∀ n, Stays es p s.cmdWord (f n)) : Stays es p s.cmdWord (readInt32 a s >>= f) := by
  rcases Nat.lt_or_ge s.inLen.toNat (a + 4) with h | h
  · rw [readInt32_error h]
    exact ⟨hio, rfl⟩
  · rw [readInt32_ok h]
    exact hf _

@[simp] theorem State.pushAll_phase (bs : List Byte) (s : State) : (s.pushAll bs).phase = s.phase := by
  rw [State.pushAll_frame]

@[simp] theorem State.pushAll_cmdWord (bs : List Byte) (s : State) : (s.pushAll bs).cmdWord = s.cmdWord := by
  rw [State.pushAll_frame]

theorem Emits.stays {s : State} {r : Run State} (hcap : .capacity ∈ es) (h : Emits s r) :
    Stays es s.phase s.cmdWord r := by
  cases r with
  | ok t =>
    obtain ⟨bs, rfl⟩ := h
    exact ⟨State.pushAll_phase bs s, State.pushAll_cmdWord bs s⟩
  | error e =>
    obtain ⟨e, t⟩ := e
    obtain ⟨rfl, bs, rfl⟩ := h
    exact ⟨hcap, State.pushAll_cmdWord bs s⟩

theorem outByte_stays (hcap : .capacity ∈ es) (b : Byte) (s : State) :
    Stays es s.phase s.cmdWord (outByte b s) := (outByte_emits b s).stays hcap

theorem checkInput_stays (hconfig : .config ∈ es) (s : State) :
    Stays es .check s.cmdWord (checkInput s) := by
  rcases Nat.lt_or_ge s.params.inCap s.inLen.toNat with h | h
  · rw [checkInput_error h]
    exact ⟨hconfig, rfl⟩
  · rw [checkInput_ok h]
    exact ⟨rfl, rfl⟩

/-! ### The Huffman engine -/

theorem putBit_stays (hcap : .capacity ∈ es) (b : Bool) (s : State) :
    Stays es s.phase s.cmdWord (putBit b s) := by
  simp only [putBit]
  split
  · exact (outByte_stays hcap _ _).andThen fun _ => ⟨rfl, rfl⟩
  · exact ⟨rfl, rfl⟩

theorem encodeByte_stays (hcap : .capacity ∈ es) (s : State) (v : Byte) :
    Stays es s.phase s.cmdWord (encodeByte s v) :=
  (Stays.foldlM (fun s b => putBit_stays hcap b s) _ s).andThen fun _ => ⟨rfl, rfl⟩

theorem emitTrailer_stays (hcap : .capacity ∈ es) (s : State) :
    Stays es s.phase s.cmdWord (emitTrailer s) := by
  simp only [emitTrailer, flushBits]
  split
  · exact outByte_stays hcap _ s
  · rw [bind_assoc]
    exact (outByte_stays hcap _ s).andThen fun t =>
      outByte_stays hcap (BitVec.ofNat 8 (8 - s.nbits)) { t with acc := 0, nbits := 0 }

theorem encodePhase_stays (hcap : .capacity ∈ es) (s : State) :
    Stays es .hEncode s.cmdWord (encodePhase s) :=
  (Stays.foldlM (encodeByte_stays hcap) s.input (s.setPhase .hEncode)).andThen (emitTrailer_stays hcap)

theorem hufPackEngine_stays (hcap : .capacity ∈ es) (s : State) :
    Stays es .hEncode s.cmdWord (hufPackEngine s) :=
  ((headerOutPhase_emits _).stays hcap).bind fun t _ => encodePhase_stays hcap t

theorem takeSymbolCount_stays (hformat : .format ∈ es) (n : Int) (s : State) :
    Stays es s.phase s.cmdWord (takeSymbolCount n s) := by
  rcases takeSymbolCount_spec n s with h | ⟨_, _, _, h⟩ <;> rw [h]
  · exact ⟨hformat, rfl⟩
  · exact ⟨rfl, rfl⟩

theorem takePaddingCount_stays (hformat : .format ∈ es) (p : Byte) (s : State) :
    Stays es s.phase s.cmdWord (takePaddingCount p s) := by
  rcases takePaddingCount_spec p s with h | ⟨_, _, h⟩ <;> rw [h]
  · exact ⟨hformat, rfl⟩
  · exact ⟨rfl, rfl⟩

theorem loadEntry_stays (hio : .io ∈ es) (hformat : .format ∈ es) (s : State) :
    Stays es s.phase s.cmdWord (loadEntry s) := by
  refine Stays.readInt32_bind hio _ fun c => ?_
  rcases takeTableEntry_spec (s.inByte s.ipos) c (passTableEntry s) with h | ⟨_, _, h⟩ <;> rw [h]
  · exact ⟨hformat, rfl⟩
  · exact ⟨rfl, rfl⟩

theorem loadTable_stays (hio : .io ∈ es) (hformat : .format ∈ es) (k : Nat) (s : State) :
    Stays es s.phase s.cmdWord (loadTable k s) := by
  induction k generalizing s with
  | zero => exact ⟨rfl, rfl⟩
  | succ k ih => exact (loadEntry_stays hio hformat s).andThen ih

theorem headerInPhase_stays (hio : .io ∈ es) (hformat : .format ∈ es) (s : State) :
    Stays es .hHeaderIn s.cmdWord (headerInPhase s) := by
  have hparse : Stays es .hHeaderIn s.cmdWord (parseHeader (s.setPhase .hHeaderIn)) :=
    Stays.readInt32_bind hio 0 fun n =>
      (takeSymbolCount_stays hformat n (passSymbolCount (s.setPhase .hHeaderIn))).andThen fun t =>
        takePaddingCount_stays hformat _ t
  exact hparse.andThen fun t => loadTable_stays hio hformat t.nsym t

theorem decodeBit_stays (hdecode : .decode ∈ es) (hcap : .capacity ∈ es) (s : State) :
    Stays es s.phase s.cmdWord (decodeBit s) := by
  simp only [decodeBit]
  split
  · exact (outByte_stays hcap _ _).andThen fun _ => ⟨rfl, rfl⟩
  · split
    · exact ⟨hdecode, rfl⟩
    · exact ⟨rfl, rfl⟩

theorem decodeBits_stays (hdecode : .decode ∈ es) (hcap : .capacity ∈ es) (k : Nat)
    (s : State) : Stays es s.phase s.cmdWord (decodeBits k s) := by
  induction k generalizing s with
  | zero =>
    unfold decodeBits
    split
    · exact ⟨rfl, rfl⟩
    · exact ⟨hdecode, rfl⟩
  | succ k ih => exact (decodeBit_stays hdecode hcap s).andThen ih

theorem decodePhase_stays (hdecode : .decode ∈ es) (hcap : .capacity ∈ es) (s : State) :
    Stays es .hDecode s.cmdWord (decodePhase s) :=
  decodeBits_stays hdecode hcap s.useful { s with phase := .hDecode, cand := [], bitpos := 0 }

theorem hufUnpackEngine_stays (hio : .io ∈ es) (hformat : .format ∈ es)
    (hdecode : .decode ∈ es) (hcap : .capacity ∈ es) (s : State) :
    Stays es .hDecode s.cmdWord (hufUnpackEngine s) :=
  (headerInPhase_stays hio hformat s).bind fun t _ => decodePhase_stays hdecode hcap (codesPhase (buildPhase t))

/-! ### The LZ77 engine -/

theorem checkWindows_stays (hconfig : .config ∈ es) (s : State) :
    Stays es s.phase s.cmdWord (checkWindows s) := by
  unfold checkWindows
  split
  · exact ⟨hconfig, rfl⟩
  · split
    · exact ⟨hconfig, rfl⟩
    · exact ⟨rfl, rfl⟩

@[simp] theorem refill_phase (s : State) : (refill s).phase = s.phase := by rw [refill_spec]

@[simp] theorem refill_cmdWord (s : State) : (refill s).cmdWord = s.cmdWord := by rw [refill_spec]

theorem encodeTriplet_stays (hcap : .capacity ∈ es) (s : State) :
    Stays es s.phase s.cmdWord (encodeTriplet s) :=
  Emits.stays (s := slide ((searchStep s).bestLen + 1) (searchStep s)) hcap (encodeTriplet_emits s)

theorem lzPackLoop_stays (hcap : .capacity ∈ es) (k : Nat) (s : State) :
    Stays es s.phase s.cmdWord (lzPackLoop k s) := by
  induction k generalizing s with
  | zero => exact ⟨rfl, rfl⟩
  | succ k ih =>
    rw [← refill_phase, ← refill_cmdWord]
    simp only [lzPackLoop]
    split
    · exact ⟨rfl, rfl⟩
    · exact (encodeTriplet_stays hcap (refill s)).andThen ih

theorem lzPackEngine_stays (hconfig : .config ∈ es) (hcap : .capacity ∈ es) (s : State) :
    Stays es .lEncode s.cmdWord (lzPackEngine s) :=
  (checkWindows_stays hconfig s).bind fun t _ => lzPackLoop_stays hcap (t.inLen.toNat + 1) (t.setPhase .lEncode)

theorem checkStreamLength_stays (hio : .io ∈ es) (s : State) :
    Stays es .lDecode s.cmdWord (checkStreamLength s) := by
  simp only [checkStreamLength]
  split
  · exact ⟨hio, rfl⟩
  · exact ⟨rfl, rfl⟩

theorem expandTriplet_stays (hformat : .format ∈ es) (hcap : .capacity ∈ es) (off : Int)
    (l : Byte) (len : Int) (s : State) : Stays es s.phase s.cmdWord (expandTriplet off l len s) := by
  rcases expandTriplet_emits off l len s with h | h
  · rw [h]
    exact ⟨hformat, rfl⟩
  · exact h.stays hcap

theorem decodeOneTriplet_stays (hio : .io ∈ es) (hformat : .format ∈ es)
    (hcap : .capacity ∈ es) (s : State) : Stays es s.phase s.cmdWord (decodeOneTriplet s) :=
  Stays.readInt32_bind hio _ fun off => Stays.readInt32_bind hio _ fun len =>
    expandTriplet_stays hformat hcap off _ len (passTriplet s)

theorem lzUnpackLoop_stays (hio : .io ∈ es) (hformat : .format ∈ es) (hcap : .capacity ∈ es)
    (k : Nat) (s : State) : Stays es s.phase s.cmdWord (lzUnpackLoop k s) := by
  induction k generalizing s with
  | zero => exact ⟨rfl, rfl⟩
  | succ k ih => exact (decodeOneTriplet_stays hio hformat hcap s).andThen ih

theorem lzUnpackEngine_stays (hio : .io ∈ es) (hformat : .format ∈ es) (hcap : .capacity ∈ es)
    (s : State) : Stays es .lDecode s.cmdWord (lzUnpackEngine s) :=
  (checkStreamLength_stays hio s).andThen fun t =>
    lzUnpackLoop_stays hio hformat hcap (t.inLen.toNat / 9) { t with ipos := 0 }

/-! ### The end of a command -/

/-- The block is idle after success, or after one of the errors `es` with no output (R99, R204). -/
def Ended (es : List CodecError) (t : State) : Prop :=
  t.phase = .idle ∧ (t.status = 1 ∨ ∃ e ∈ es, t.status = errorWord e ∧ t.outLen = 0)

theorem Stays.complete_ended {p : Phase} {w : Word} {s : State} {r : Run State}
    (hr : Stays es p w r) (hw : Works s r) (hs : s.status = 0) : Ended es (complete r) := by
  cases r with
  | error e =>
    obtain ⟨he, _⟩ := hr
    exact ⟨rfl, .inr ⟨e.1, he, statusOfError_eq e.1, rfl⟩⟩
  | ok t =>
    obtain ⟨⟨bs, hb⟩, _⟩ := hw
    refine ⟨rfl, .inl ?_⟩
    rw [complete_ok, State.epilogue_status, hb.status, hs]
    rfl

/-- A data command starts from `STATUS` 0 and ends as its engine does, or with the `ConfigError` of the input check. -/
theorem dataCommand_ended {p : Phase} {engine : State → Run State} (hconfig : .config ∈ es)
    (hr : ∀ t, Stays es p t.cmdWord (engine t)) (hw : ∀ t, Works t (engine t)) (w : Word) (s : State) :
    Ended es (dataCommand w engine s) :=
  ((checkInput_stays hconfig (s.start w).prologue).bind fun t _ => hr t).complete_ended
    (Works.bind (checkInput_works _) hw) rfl

end

theorem exec_data_ended {i : Instr} (hi : i.isData = true) (s : State) :
    ∃ t, exec i s = .next t ∧ Ended i.mayRaise t := by
  cases i <;> cases hi
  case hufPack =>
    exact ⟨_, rfl, dataCommand_ended (by decide) (hufPackEngine_stays (by decide)) hufPackEngine_works _ s⟩
  case hufUnpack =>
    exact ⟨_, rfl, dataCommand_ended (by decide)
      (hufUnpackEngine_stays (by decide) (by decide) (by decide) (by decide)) hufUnpackEngine_works _ s⟩
  case lzPack =>
    exact ⟨_, rfl, dataCommand_ended (by decide) (lzPackEngine_stays (by decide) (by decide)) lzPackEngine_works _ s⟩
  case lzUnpack =>
    exact ⟨_, rfl, dataCommand_ended (by decide)
      (lzUnpackEngine_stays (by decide) (by decide) (by decide)) lzUnpackEngine_works _ s⟩

/-- A command is `CLEAR` or one of the four data commands (R98). -/
theorem isCommand_cases {i : Instr} (h : i.isCommand = true) : i = .clear ∨ i ≠ .clear ∧ i.isData = true := by
  cases i <;> simp_all [Instr.isCommand, Instr.isData]

/-- Settles O25: `CLEAR` is its prologue; a data command ends as `exec_data_ended` says. -/
theorem commandsEndWithAStatusOfTheirOwn : Obligations.CommandsEndWithAStatusOfTheirOwn := by
  intro s i hi
  obtain rfl | ⟨hne, hd⟩ := isCommand_cases hi
  · exact ⟨_, rfl, rfl, exec_kept (i := .clear) rfl, .inl ⟨rfl, rfl, rfl⟩⟩
  · obtain ⟨t, ht, hidle, hend⟩ := exec_data_ended hd s
    exact ⟨t, ht, hidle, exec_kept ht, .inr (hend.imp (fun h => ⟨hne, h⟩) id)⟩

end Sys2Proof.Machine
end

section
/-! The phases of a command in progress, one step each (R102): what a step does in each phase, the record it runs (R151 to
R153, R190), and the phase it goes to. -/

namespace Sys2Proof.Machine

/-! ### One step of the sequencer -/

theorem step_of_sequencer {s : State} (h : s.phase ≠ .idle) : step s = sequencerStep s := if_neg h

theorem step_headerIn {s : State} (h : s.phase = .hHeaderIn) : step s = headerInStep s := by
  rw [step_of_sequencer (by simp [h]), sequencerStep, h]

theorem step_lzDecode {s : State} (h : s.phase = .lDecode) : step s = lzDecodeStep s := by
  rw [step_of_sequencer (by simp [h]), sequencerStep, h]

/-! ### Records -/

theorem runRecord_of_decode {f : Fetched} {i : Instr} {s : State} (pass : State → State)
    (h : decode s.params.endian f = .ok i) : runRecord (some f) pass s = exec i (pass s) := by
  simp only [runRecord, h]

theorem headerInStep_of_symbolCount {s : State} (hr : s.reader = .symbolCount) :
    headerInStep s = runRecord (if s.inLen.toNat < 4 then none else some (.symbolCount (inBytes s 0 4)))
      passSymbolCount s := by
  rw [headerInStep, hr]

theorem headerInStep_of_paddingCount {s : State} (hr : s.reader = .paddingCount) :
    headerInStep s = runRecord (some (.paddingCount (s.inByte (s.inLen.toNat - 1)))) id s := by
  rw [headerInStep, hr]

theorem headerInStep_of_tableEntries {s : State} (hr : s.reader = .tableEntries) (hb : s.ipos < s.pbase) :
    headerInStep s = runRecord (if s.inLen.toNat < s.ipos + 5 then none else some (.tableEntry (inBytes s s.ipos 5)))
      passTableEntry s := by
  rw [headerInStep, hr]
  exact if_pos hb

theorem headerInStep_tableEnd {s : State} (hr : s.reader = .tableEntries) (hb : ¬ s.ipos < s.pbase) :
    headerInStep s = .next (s.setPhase .hBuild) := by
  rw [headerInStep, hr]
  exact if_neg hb

/-- Settles O10: the record at the place the header reader or the cursor names. -/
theorem stepRunsTheStreamRecord : Obligations.StepRunsTheStreamRecord := by
  refine ⟨?_, ?_, ?_, ?_⟩
  · intro s i hp hr hlen hd
    rw [step_headerIn hp, headerInStep_of_symbolCount hr, if_neg (by omega)]
    exact runRecord_of_decode passSymbolCount hd
  · intro s i hp hr hd
    rw [step_headerIn hp, headerInStep_of_paddingCount hr]
    exact runRecord_of_decode id hd
  · intro s i hp hr hbase hlen hd
    rw [step_headerIn hp, headerInStep_of_tableEntries hr hbase, if_neg (by omega)]
    exact runRecord_of_decode passTableEntry hd
  · intro s i hp hlen hd
    rw [step_lzDecode hp, lzDecodeStep, if_pos (by omega), if_neg (by omega)]
    exact runRecord_of_decode passTriplet hd

/-! ### A record's step is the reader's operation in the command's loop -/

/-- `symbolCount` (R151). -/
theorem headerInStep_symbolCount {s : State} (hr : s.reader = .symbolCount) :
    headerInStep s = .next (settle (readInt32 0 s >>= fun n => takeSymbolCount n (passSymbolCount s))) := by
  rw [headerInStep_of_symbolCount hr]
  rcases Nat.lt_or_ge s.inLen.toNat 4 with h | h
  · rw [if_pos h, readInt32_error h]
    rfl
  · rw [if_neg (Nat.not_lt.mpr h), readInt32_ok h]
    rfl

/-- The decoder rejects a padding byte exactly where its reader does: bits 7:3 are not 0 (R69, R153). -/
theorem paddingBits_eq_zero_iff (p : Byte) : p.extractLsb' 3 5 = 0 ↔ p.toNat < 8 := by
  rw [← BitVec.toNat_inj, BitVec.extractLsb'_toNat, Nat.shiftRight_eq_div_pow]
  have hp : p.toNat < 256 := p.isLt
  simp
  omega

/-- `paddingBitCount` (R153). -/
theorem headerInStep_paddingCount {s : State} (hr : s.reader = .paddingCount) :
    headerInStep s = .next (settle (takePaddingCount (s.inByte (s.inLen.toNat - 1)) s)) := by
  rw [headerInStep_of_paddingCount hr]
  generalize s.inByte (s.inLen.toNat - 1) = p
  by_cases h : p.toNat < 8
  · have hd : decode s.params.endian (.paddingCount p) = .ok (.hufPaddingCount p) :=
      if_neg (not_not.mpr ((paddingBits_eq_zero_iff p).mpr h))
    exact runRecord_of_decode id hd
  · have hd : decode s.params.endian (.paddingCount p) = .error .paddingRange :=
      if_pos (mt (paddingBits_eq_zero_iff p).mp h)
    have ht : takePaddingCount p s = raise .format s := if_pos (by omega)
    simp only [runRecord, hd, ht, settle_raise, id]

/-- One turn of `LoadTable()` (R152). -/
theorem headerInStep_tableEntry {s : State} (hr : s.reader = .tableEntries) (hb : s.ipos < s.pbase) :
    headerInStep s = .next (settle (loadEntry s)) := by
  rw [headerInStep_of_tableEntries hr hb, loadEntry]
  rcases Nat.lt_or_ge s.inLen.toNat (s.ipos + 5) with h | h
  · rw [if_pos h, readInt32_error (by omega)]
    rfl
  · rw [if_neg (Nat.not_lt.mpr h), readInt32_ok (by omega)]
    rfl

/-- One turn of the decode loop (R190); a record cut short in either of its int32 fields is an `IoError`. -/
theorem lzDecodeStep_triplet {s : State} (hl : s.ipos < s.inLen.toNat) :
    lzDecodeStep s = .next (settle (decodeOneTriplet s)) := by
  rw [lzDecodeStep, if_pos hl, decodeOneTriplet]
  rcases Nat.lt_or_ge s.inLen.toNat (s.ipos + 9) with h | h
  · rw [if_pos h]
    rcases Nat.lt_or_ge s.inLen.toNat (s.ipos + 4) with h4 | h4
    · rw [readInt32_error h4]
      rfl
    · rw [readInt32_ok h4, readInt32_error (a := s.ipos + 5) (by omega)]
      rfl
  · rw [if_neg (Nat.not_lt.mpr h), readInt32_ok (by omega), readInt32_ok (a := s.ipos + 5) (by omega)]
    rfl

theorem lzDecodeStep_end {s : State} (hl : ¬ s.ipos < s.inLen.toNat) :
    lzDecodeStep s = .next (s.setPhase .epilogue) := if_neg hl

end Sys2Proof.Machine
end

section
/-! The paths of `PHASE` (R102): a step of a command in progress goes on to the next phase of its path, stays in a phase
that is a loop over records, or moves to `ERROR`. -/

namespace Sys2Proof.Machine

/-! ### The path of a command -/

/-- The phase after `p` in the table of R102, for the command `i` in progress. -/
def nextPhase (i : Instr) : Phase → Phase
  | .prologue => if i = .clear then .idle else .check
  | .check =>
    match i with
    | .hufPack => .hCount
    | .hufUnpack => .hHeaderIn
    | .lzPack => .lEncode
    | _ => .lDecode
  | .hCount | .hHeaderIn => .hBuild
  | .hBuild => .hCodes
  | .hCodes => if i = .hufUnpack then .hDecode else .hHeaderOut
  | .hHeaderOut => .hEncode
  | .hEncode | .hDecode | .lEncode | .lDecode => .epilogue
  | .epilogue | .error _ | .idle => .idle

/-- The phases that are loops over records or triplets (R102). -/
def loopPhases : List Phase := [.hHeaderIn, .lEncode, .lDecode]

/-- The five commands (R62). -/
def commands : List Instr := [.clear, .hufPack, .hufUnpack, .lzPack, .lzUnpack]

theorem mem_commands {i : Instr} (h : i.isCommand = true) : i ∈ commands := by
  cases i <;> simp_all [Instr.isCommand, commands]

/-- `nextPhase` is the successor on the path R102 gives each command. -/
theorem nextPhase_on_path {i : Instr} (hi : i.isCommand = true) {p : Phase} (hp : p ∈ i.phasePath) (hne : p ≠ .idle) :
    [p, nextPhase i p] <:+: i.phasePath := by
  have table : ∀ i ∈ commands, ∀ p ∈ i.phasePath, p ≠ .idle → [p, nextPhase i p] <:+: i.phasePath := by decide
  exact table i (mem_commands hi) p hp hne

/-! ### One step and the phase it goes to -/

/-- The step keeps the command word and goes to phase `p` or to `ERROR`. -/
structure GoesTo (p : Phase) (s t : State) : Prop where
  cmdWord : t.cmdWord = s.cmdWord
  phase : t.phase = p ∨ ∃ e, t.phase = .error e

theorem GoesTo.setPhase (p : Phase) {s t : State} (h : t.cmdWord = s.cmdWord) : GoesTo p s (t.setPhase p) :=
  ⟨h, .inl rfl⟩

theorem Stays.settle_goesTo {es : List CodecError} {p : Phase} {s : State} {r : Run State}
    (h : Stays es p s.cmdWord r) : GoesTo p s (settle r) := by
  cases r with
  | ok t => exact ⟨h.2, .inl h.1⟩
  | error e => exact ⟨h.2, .inr ⟨e.1, rfl⟩⟩

theorem Stays.thenPhase_goesTo {es : List CodecError} {q : Phase} {s : State} {r : Run State}
    (h : Stays es q s.cmdWord r) (p : Phase) : GoesTo p s (thenPhase p r) := by
  have hb : Stays es p s.cmdWord (r >>= fun t => .ok (t.setPhase p)) := h.bind fun _ _ => ⟨rfl, rfl⟩
  exact hb.settle_goesTo

/-- Every error there is (R200), for a step whose errors do not matter. -/
def everyError : List CodecError := [.illegalCommand, .config, .io, .format, .decode, .capacity]

theorem mem_everyError (e : CodecError) : e ∈ everyError := by cases e <;> decide

/-! ### `PROLOGUE`, `CHECK` and `H_CODES` branch on the command word -/

theorem prologueStep_of_decode {s : State} {i : Instr} (hd : decodeCommand s.cmdWord = .ok i) :
    prologueStep s = s.prologue.setPhase (nextPhase i .prologue) := by
  rw [prologueStep, hd]
  cases i <;> rfl

theorem codesStep_of_decode {s : State} {i : Instr} (hd : decodeCommand s.cmdWord = .ok i) :
    codesStep s = (codesPhase s).setPhase (nextPhase i .hCodes) := by
  rw [codesStep, hd]
  cases i <;> rfl

/-- What `CHECK` does after the input check: the checks of the LZ77 commands, and the branch to the engine (R102). -/
def enterEngine (i : Instr) (s : State) : Run State :=
  match i with
  | .hufPack => .ok (s.setPhase .hCount)
  | .hufUnpack => .ok (s.setPhase .hHeaderIn)
  | .lzPack => checkWindows s >>= fun t => .ok (t.setPhase .lEncode)
  | .lzUnpack => checkStreamLength s >>= fun t => .ok { t with ipos := 0 }
  | _ => raise .illegalCommand s

theorem checkStep_of_decode {s : State} {i : Instr} (hd : decodeCommand s.cmdWord = .ok i) :
    checkStep s = checkInput s >>= enterEngine i := by
  rcases Nat.lt_or_ge s.params.inCap s.inLen.toNat with h | h
  · rw [checkStep, checkInput_error h]
    rfl
  · have hc : decodeCommand (s.setPhase .check).cmdWord = .ok i := hd
    rw [checkStep, checkInput_ok h]
    simp only [bind, Except.bind, hc]
    cases i <;> rfl

theorem enterEngine_stays (i : Instr) (s : State) :
    Stays everyError (nextPhase i .check) s.cmdWord (enterEngine i s) := by
  cases i
  case hufPack => exact ⟨rfl, rfl⟩
  case hufUnpack => exact ⟨rfl, rfl⟩
  case lzPack => exact (checkWindows_stays (mem_everyError _) s).bind fun _ _ => ⟨rfl, rfl⟩
  case lzUnpack => exact (checkStreamLength_stays (mem_everyError _) s).andThen fun _ => ⟨rfl, rfl⟩
  all_goals exact ⟨mem_everyError _, rfl⟩

theorem checkStep_goesTo {s : State} {i : Instr} (hd : decodeCommand s.cmdWord = .ok i) :
    GoesTo (nextPhase i .check) s (settle (checkStep s)) := by
  rw [checkStep_of_decode hd]
  exact ((checkInput_stays (mem_everyError _) s).bind fun t _ => enterEngine_stays i t).settle_goesTo

/-! ### The loops over records -/

theorem headerInStep_goesTo {s t : State} (hs : headerInStep s = .next t) :
    GoesTo .hBuild s t ∨ GoesTo s.phase s t := by
  cases hr : s.reader
  case symbolCount =>
    rw [headerInStep_symbolCount hr] at hs
    cases hs
    have h : Stays everyError s.phase s.cmdWord
        (readInt32 0 s >>= fun n => takeSymbolCount n (passSymbolCount s)) :=
      Stays.readInt32_bind (mem_everyError _) 0 fun n =>
        takeSymbolCount_stays (mem_everyError _) n (passSymbolCount s)
    exact .inr h.settle_goesTo
  case paddingCount =>
    rw [headerInStep_paddingCount hr] at hs
    cases hs
    exact .inr (takePaddingCount_stays (mem_everyError _) _ s).settle_goesTo
  case tableEntries =>
    by_cases hb : s.ipos < s.pbase
    · rw [headerInStep_tableEntry hr hb] at hs
      cases hs
      exact .inr (loadEntry_stays (mem_everyError _) (mem_everyError _) s).settle_goesTo
    · rw [headerInStep_tableEnd hr hb] at hs
      cases hs
      exact .inl (.setPhase _ rfl)

theorem lzEncodeStep_goesTo (s : State) :
    GoesTo .epilogue s (lzEncodeStep s) ∨ GoesTo s.phase s (lzEncodeStep s) := by
  simp only [lzEncodeStep]
  split
  · exact .inl (.setPhase _ (refill_cmdWord s))
  · have h : Stays everyError (refill s).phase (refill s).cmdWord (encodeTriplet (refill s)) :=
      encodeTriplet_stays (mem_everyError _) (refill s)
    rw [refill_phase, refill_cmdWord] at h
    exact .inr h.settle_goesTo

theorem lzDecodeStep_goesTo {s t : State} (hs : lzDecodeStep s = .next t) :
    GoesTo .epilogue s t ∨ GoesTo s.phase s t := by
  by_cases hl : s.ipos < s.inLen.toNat
  · rw [lzDecodeStep_triplet hl] at hs
    cases hs
    exact .inr
      (decodeOneTriplet_stays (mem_everyError _) (mem_everyError _) (mem_everyError _) s).settle_goesTo
  · rw [lzDecodeStep_end hl] at hs
    cases hs
    exact .inl (.setPhase _ rfl)

/-- A step of a command in progress goes on, or stays in a loop phase (R102). -/
theorem sequencerStep_goesTo {s t : State} {i : Instr} (hd : decodeCommand s.cmdWord = .ok i) (hne : s.phase ≠ .idle)
    (hne' : ∀ e, s.phase ≠ .error e) (hs : sequencerStep s = .next t) :
    GoesTo (nextPhase i s.phase) s t ∨ (GoesTo s.phase s t ∧ s.phase ∈ loopPhases) := by
  unfold sequencerStep at hs
  cases hp : s.phase <;> rw [hp] at hs
  case idle => exact absurd hp hne
  case error e => exact absurd hp (hne' e)
  case hHeaderIn => exact (headerInStep_goesTo hs).imp_right fun h => ⟨hp ▸ h, by decide⟩
  case lDecode => exact (lzDecodeStep_goesTo hs).imp_right fun h => ⟨hp ▸ h, by decide⟩
  all_goals cases hs
  case lEncode => exact (lzEncodeStep_goesTo s).imp_right fun h => ⟨hp ▸ h, by decide⟩
  all_goals left
  case prologue => rw [prologueStep_of_decode hd]; exact .setPhase _ rfl
  case check => exact checkStep_goesTo hd
  case hCount => exact .setPhase _ rfl
  case hBuild => exact .setPhase _ rfl
  case hCodes => rw [codesStep_of_decode hd]; exact .setPhase _ rfl
  case hHeaderOut => exact ((headerOutPhase_emits s).stays (mem_everyError _)).thenPhase_goesTo (s := s) .hEncode
  case hEncode => exact (encodePhase_stays (mem_everyError _) s).thenPhase_goesTo .epilogue
  case hDecode => exact (decodePhase_stays (mem_everyError _) (mem_everyError _) s).thenPhase_goesTo .epilogue
  case epilogue => exact ⟨rfl, .inl rfl⟩

/-- No path of R102 names `ERROR`. -/
theorem error_not_on_path (i : Instr) (e : CodecError) : .error e ∉ i.phasePath := by
  cases i <;> simp [Instr.phasePath]

/-- A step on a command's path follows it (R102). -/
theorem step_follows_path {s t : State} {i : Instr} (hd : decodeCommand s.cmdWord = .ok i) (hp : s.phase ∈ i.phasePath)
    (hne : s.phase ≠ .idle) (hs : step s = .next t) :
    t.cmdWord = s.cmdWord
      ∧ ([s.phase, t.phase] <:+: i.phasePath
        ∨ (t.phase = s.phase ∧ s.phase ∈ loopPhases)
        ∨ ∃ e, t.phase = .error e) := by
  have hne' : ∀ e, s.phase ≠ .error e := fun e he => error_not_on_path i e (he ▸ hp)
  rw [step_of_sequencer hne] at hs
  obtain ⟨hw, hn | he⟩ | ⟨⟨hw, hn | he⟩, hl⟩ := sequencerStep_goesTo hd hne hne' hs
  · exact ⟨hw, .inl (hn ▸ nextPhase_on_path (isCommand_of_decodeCommand hd) hp hne)⟩
  · exact ⟨hw, .inr (.inr he)⟩
  · exact ⟨hw, .inr (.inl ⟨hn, hl⟩)⟩
  · exact ⟨hw, .inr (.inr he)⟩

/-- An illegal word goes from `PROLOGUE` to `ERROR` (R103). -/
theorem prologueStep_of_illegal {s : State} (hd : ∀ i, decodeCommand s.cmdWord ≠ .ok i) :
    prologueStep s = s.prologue.enterError .illegalCommand := by
  cases h : decodeCommand s.cmdWord with
  | error e => rw [prologueStep, h]
  | ok i => exact absurd h (hd i)

theorem step_prologue {s : State} (hp : s.phase = .prologue) : step s = .next (prologueStep s) := by
  rw [step_of_sequencer (by simp [hp]), sequencerStep, hp]

theorem step_error {s : State} {e : CodecError} (hp : s.phase = .error e) : step s = .next (s.errorWrites e) := by
  rw [step_of_sequencer (by simp [hp]), sequencerStep, hp]

/-- A raise and the step of `ERROR` after it are error entry (R204). -/
theorem step_enterError (e : CodecError) (s : State) : step (s.enterError e) = .next (s.errorEntry e) := step_error rfl

end Sys2Proof.Machine
end

section
/-! O12: the phases of R102, taken one step each, reach the result of the atomic command. `Finishes s r` relates a state of
the sequencer to the rest `r` of the command: the steps from `s` come to the end of `r`. -/

namespace Sys2Proof.Machine

/-! ### Reaching the end of a run -/

/-- From `s` the machine's steps come to `t`. -/
def Reaches (s t : State) : Prop := ∃ k, Host.Core.run core k s = .next t

theorem Reaches.refl (s : State) : Reaches s s := ⟨0, rfl⟩

theorem Reaches.step {s t u : State} (h : step s = .next t) (hr : Reaches t u) : Reaches s u := by
  obtain ⟨k, hk⟩ := hr
  have hs : core.step s = .next t := h
  exact ⟨k + 1, by simp only [Host.Core.run, hs, hk]⟩

/-- From `s` the machine's steps come to the state that `r` ends in (R98). -/
def Finishes (s : State) (r : Run State) : Prop := Reaches s (complete r)

theorem Finishes.step {s t : State} {r : Run State} (h : step s = .next t) (hf : Finishes t r) : Finishes s r :=
  Reaches.step h hf

/-- What is raised ends in error entry, one step later (R204). -/
theorem Finishes.error (e : CodecError × State) : Finishes (settle (.error e)) (.error e) :=
  .step (step_enterError e.1 e.2) (Reaches.refl _)

/-- What succeeds ends in the epilogue (R99). -/
theorem Finishes.epilogue (s : State) : Finishes (s.setPhase .epilogue) (.ok s) :=
  .step (t := s.epilogue) rfl (Reaches.refl _)

/-- A piece `x` that is one step of the sequencer: the rest is to finish from where `x` succeeds. -/
theorem Finishes.of_settle {x : Run State} {f : State → Run State} (h : ∀ t, x = .ok t → Finishes t (f t)) :
    Finishes (settle x) (x >>= f) := by
  cases x with
  | error e => exact .error e
  | ok t => exact h t rfl

/-- The same where the sequencer adds something of its own, `g`, to the step. -/
theorem Finishes.of_settle_bind {x : Run State} {f g : State → Run State}
    (h : ∀ t, x = .ok t → Finishes (settle (g t)) (f t)) : Finishes (Machine.settle (x >>= g)) (x >>= f) := by
  cases x with
  | error e => exact .error e
  | ok t => exact h t rfl

/-- The last piece of a command, and the epilogue after it. -/
theorem Finishes.thenEpilogue (r : Run State) : Finishes (thenPhase .epilogue r) r := by
  cases r with
  | error e => exact .error e
  | ok t => exact .epilogue t

/-! ### `HUF_PACK` and `HUF_UNPACK` -/

/-- From `H_HEADER_OUT` on (R136, R137, R138). -/
theorem headerOut_finishes (s : State) :
    Finishes (s.setPhase .hHeaderOut) (headerOutPhase s >>= fun t => encodePhase t) :=
  .step (t := thenPhase .hEncode (headerOutPhase s)) rfl <| .of_settle_bind fun t _ =>
    .step (t := thenPhase .epilogue (encodePhase t)) rfl (.thenEpilogue _)

theorem step_codes {s : State} {i : Instr} (hd : decodeCommand s.cmdWord = .ok i) :
    step (s.setPhase .hCodes) = .next ((codesPhase s).setPhase (nextPhase i .hCodes)) := by
  have hc : decodeCommand (s.setPhase .hCodes).cmdWord = .ok i := hd
  rw [step_of_sequencer (by simp), sequencerStep, State.setPhase_phase]
  simp only [codesStep_of_decode hc]
  rfl

theorem hufPackEngine_finishes {s : State} (hd : decodeCommand s.cmdWord = .ok .hufPack) :
    Finishes (s.setPhase .hCount) (hufPackEngine s) :=
  .step (t := (countPhase s).setPhase .hBuild) rfl <|
  .step (t := (buildPhase (countPhase s)).setPhase .hCodes) rfl <|
  .step (step_codes (i := .hufPack) hd) <|
  headerOut_finishes (codesPhase (buildPhase (countPhase s)))

/-- From `H_BUILD` on (R119, R124, R155). -/
theorem unpackBuild_finishes {s : State} (hd : decodeCommand s.cmdWord = .ok .hufUnpack) :
    Finishes (s.setPhase .hBuild) (decodePhase (codesPhase (buildPhase s))) :=
  .step (t := (buildPhase s).setPhase .hCodes) rfl <|
  .step (step_codes (i := .hufUnpack) hd) <|
  .step (t := thenPhase .epilogue (decodePhase (codesPhase (buildPhase s)))) rfl (.thenEpilogue _)

theorem loadEntry_ok {s t : State} (h : loadEntry s = .ok t) :
    ∃ freq, t = { s with freq := freq, ipos := s.ipos + 5 } := by
  obtain ⟨c, _, ht⟩ := Run.bind_ok.mp h
  rcases takeTableEntry_spec (s.inByte s.ipos) c (passTableEntry s) with he | ⟨_, _, he⟩
  · rw [he] at ht
    cases ht
  · rw [he] at ht
    cases ht
    exact ⟨_, rfl⟩

/-- The table entries, one step each (R152): `IPOS` is `k` entries before the payload. -/
theorem loadTable_finishes {k : Nat} {s : State} (hp : s.phase = .hHeaderIn) (hr : s.reader = .tableEntries)
    (hd : decodeCommand s.cmdWord = .ok .hufUnpack) (hk : s.pbase = s.ipos + 5 * k) :
    Finishes s (loadTable k s >>= fun t => decodePhase (codesPhase (buildPhase t))) := by
  induction k generalizing s with
  | zero =>
    exact .step ((step_headerIn hp).trans (headerInStep_tableEnd hr (by omega))) (unpackBuild_finishes hd)
  | succ k ih =>
    refine .step ((step_headerIn hp).trans (headerInStep_tableEntry hr (by omega))) ?_
    rw [loadTable, bind_assoc]
    refine .of_settle fun t ht => ?_
    obtain ⟨freq, rfl⟩ := loadEntry_ok ht
    exact ih hp hr hd (by simp only; omega)

theorem takePaddingCount_ok {p : Byte} {s t : State} (h : takePaddingCount p s = .ok t) :
    t = { s with pad := p.toNat, useful := s.pbytes * 8 - p.toNat, reader := .tableEntries } := by
  rcases takePaddingCount_spec p s with he | ⟨_, _, he⟩ <;> rw [he] at h <;> cases h
  rfl

theorem takeSymbolCount_ok {n : Int} {s t : State} (h : takeSymbolCount n s = .ok t) :
    t = { s with
      nsym := n.toNat, pbase := 4 + 5 * n.toNat, pbytes := s.inLen.toNat - 1 - (4 + 5 * n.toNat)
      reader := .paddingCount } := by
  rcases takeSymbolCount_spec n s with he | ⟨_, _, _, he⟩ <;> rw [he] at h <;> cases h
  rfl

/-- The header, one record a step: `symbolCount`, `paddingBitCount`, the table (R151, R153, R152). -/
theorem hufUnpackEngine_finishes {s : State} (hr : s.reader = .symbolCount)
    (hd : decodeCommand s.cmdWord = .ok .hufUnpack) : Finishes (s.setPhase .hHeaderIn) (hufUnpackEngine s) := by
  refine .step ((step_headerIn rfl).trans (headerInStep_symbolCount hr)) ?_
  have hengine : hufUnpackEngine s
      = (readInt32 0 (s.setPhase .hHeaderIn) >>= fun n => takeSymbolCount n (passSymbolCount (s.setPhase .hHeaderIn)))
        >>= fun t => takePaddingCount (t.inByte (t.inLen.toNat - 1)) t
        >>= fun u => loadTable u.nsym u
        >>= fun v => decodePhase (codesPhase (buildPhase v)) := by
    simp only [hufUnpackEngine, headerInPhase, parseHeader, bind_assoc]
    rfl
  rw [hengine]
  refine .of_settle fun t ht => ?_
  obtain ⟨n, _, ht⟩ := Run.bind_ok.mp ht
  obtain rfl := takeSymbolCount_ok ht
  refine .step ((step_headerIn rfl).trans (headerInStep_paddingCount rfl)) (.of_settle fun u hu => ?_)
  obtain rfl := takePaddingCount_ok hu
  exact loadTable_finishes rfl rfl hd rfl

/-! ### `LZ_PACK` and `LZ_UNPACK` -/

theorem step_lzEncode {s : State} (hp : s.phase = .lEncode) : step s = .next (lzEncodeStep s) := by
  rw [step_of_sequencer (by simp [hp]), sequencerStep, hp]

/-- The input bytes that `LZ_PACK` has not consumed yet: those in the lookahead and those not read (R173). -/
def State.unconsumed (s : State) : Nat := s.look.length + (s.inLen.toNat - s.ipos)

theorem refill_unconsumed (s : State) : (refill s).unconsumed = s.unconsumed := by
  rw [refill_spec]
  simp [State.unconsumed]
  omega

/-- A turn of the encode loop stays in its phase and consumes a byte (R179, R181). -/
theorem encodeTriplet_ok {s t : State} (h : encodeTriplet s = .ok t) (hl : s.look ≠ []) :
    t.phase = s.phase ∧ t.unconsumed < s.unconsumed := by
  have he : Emits (slide ((searchStep s).bestLen + 1) (searchStep s)) (encodeTriplet s) := encodeTriplet_emits s
  rw [h] at he
  obtain ⟨bs, rfl⟩ := he
  rw [State.pushAll_frame]
  have hpos : 0 < s.look.length := List.length_pos_iff.mpr hl
  refine ⟨rfl, ?_⟩
  simp only [State.unconsumed, slide, searchStep, List.length_drop]
  omega

/-- The encode loop, one triplet a step (R170), with turns enough for every byte. -/
theorem lzPackLoop_finishes {k : Nat} {s : State} (hp : s.phase = .lEncode) (hk : s.unconsumed < k) :
    Finishes s (lzPackLoop k s) := by
  induction k generalizing s with
  | zero => omega
  | succ k ih =>
    refine .step (step_lzEncode hp) ?_
    simp only [lzPackLoop, lzEncodeStep]
    split
    · exact .epilogue _
    · next hl =>
      refine .of_settle fun t ht => ?_
      obtain ⟨hphase, hless⟩ := encodeTriplet_ok ht hl
      rw [refill_phase] at hphase
      rw [refill_unconsumed] at hless
      exact ih (hphase.trans hp) (by omega)

theorem checkWindows_ok {s t : State} (h : checkWindows s = .ok t) :
    t = { s with hMax := s.cfgHist.toNat, pMax := s.cfgPreview.toNat } := by
  unfold checkWindows raise at h
  split at h
  · cases h
  · split at h <;> cases h
    rfl

theorem lzPackEngine_finishes {s : State} (hlook : s.look = []) (hi : s.ipos = 0) :
    Finishes (settle (enterEngine .lzPack s)) (lzPackEngine s) := by
  refine .of_settle_bind fun t ht => ?_
  obtain rfl := checkWindows_ok ht
  refine lzPackLoop_finishes rfl ?_
  simp [State.unconsumed, State.setPhase, hlook, hi]

theorem decodeOneTriplet_ok {s t : State} (h : decodeOneTriplet s = .ok t) :
    ∃ bs, t = (passTriplet s).pushAll bs := by
  obtain ⟨off, _, h⟩ := Run.bind_ok.mp h
  obtain ⟨len, _, h⟩ := Run.bind_ok.mp h
  rcases expandTriplet_emits off (s.inByte (s.ipos + 4)) len (passTriplet s) with he | he <;> rw [h] at he
  · cases he
  · exact he

/-- The decode loop, one triplet a step (R190): `IPOS` is `k` records before the end of the stream. -/
theorem lzUnpackLoop_finishes {k : Nat} {s : State} (hp : s.phase = .lDecode) (hk : s.inLen.toNat = s.ipos + 9 * k) :
    Finishes s (lzUnpackLoop k s) := by
  induction k generalizing s with
  | zero => exact .step ((step_lzDecode hp).trans (lzDecodeStep_end (by omega))) (.epilogue s)
  | succ k ih =>
    refine .step ((step_lzDecode hp).trans (lzDecodeStep_triplet (by omega))) (.of_settle fun t ht => ?_)
    obtain ⟨bs, rfl⟩ := decodeOneTriplet_ok ht
    rw [State.pushAll_frame]
    refine ih hp ?_
    simp only [passTriplet]
    omega

/-- The length check leaves whole records only (R191). -/
theorem checkStreamLength_ok {s t : State} (h : checkStreamLength s = .ok t) :
    s.inLen.toNat % 9 = 0 ∧ t = s.setPhase .lDecode := by
  simp only [checkStreamLength, raise] at h
  split at h <;> cases h
  next hm => exact ⟨not_not.mp hm, rfl⟩

theorem lzUnpackEngine_finishes (s : State) : Finishes (settle (enterEngine .lzUnpack s)) (lzUnpackEngine s) := by
  refine .of_settle_bind fun t ht => ?_
  obtain ⟨hm, rfl⟩ := checkStreamLength_ok ht
  refine lzUnpackLoop_finishes rfl ?_
  show s.inLen.toNat = 0 + 9 * (s.inLen.toNat / 9)
  omega

/-! ### A whole command -/

/-- A word whose bits 31:8 are 0 is its low byte (R63). -/
theorem toNat_lowByte {w : Word} (h : w.extractLsb' 8 24 = 0) : (w.extractLsb' 0 8).toNat = w.toNat := by
  have hhigh : w.toNat / 2 ^ 8 % 2 ^ 24 = 0 := by
    rw [← BitVec.toNat_inj, BitVec.extractLsb'_toNat, Nat.shiftRight_eq_div_pow] at h
    exact h
  have hlt : w.toNat < 2 ^ 32 := w.isLt
  have hlow : (w.extractLsb' 0 8).toNat = w.toNat % 2 ^ 8 := by simp
  omega

/-- The word a command is decoded from is its encoding (R62). -/
theorem encode_of_decodeCommand {w : Word} {i : Instr} (h : decodeCommand w = .ok i) (e : Endian) :
    encode e i = .command w := by
  unfold decodeCommand at h
  split at h
  · cases h
  · next hz =>
    have hlow : (w.extractLsb' 0 8).toNat = w.toNat := toNat_lowByte (not_not.mp hz)
    split at h <;> cases h
    all_goals
      next hop => exact congrArg Fetched.command (BitVec.eq_of_toNat_eq (hop.symm.trans hlow))

theorem checkInput_eq_ok {s t : State} (h : checkInput s = .ok t) : t = s.setPhase .check := by
  rcases Nat.lt_or_ge s.params.inCap s.inLen.toNat with hl | hl
  · rw [checkInput_error hl] at h
    cases h
  · rw [checkInput_ok hl] at h
    cases h
    rfl

/-- From the `CMD` write to the engine: `PROLOGUE`, `CHECK`, and the branch (R97, R98, R101, R102). -/
theorem dataCommand_finishes {w : Word} {i : Instr} {engine : State → Run State} (s : State)
    (hd : decodeCommand w = .ok i) (hi : i ≠ .clear)
    (he : Finishes (settle (enterEngine i ((s.start w).prologue.setPhase .check)))
      (engine ((s.start w).prologue.setPhase .check))) :
    Reaches (s.start w) (dataCommand w engine s) := by
  have hstart : decodeCommand (s.start w).cmdWord = .ok i := hd
  have hcheck : decodeCommand ((s.start w).prologue.setPhase .check).cmdWord = .ok i := hd
  have hpro : step (s.start w) = .next ((s.start w).prologue.setPhase .check) := by
    rw [step_prologue rfl, prologueStep_of_decode hstart, nextPhase, if_neg hi]
  have hchk : step ((s.start w).prologue.setPhase .check)
      = .next (settle (checkInput (s.start w).prologue >>= enterEngine i)) := by
    rw [step_of_sequencer (by simp), sequencerStep, State.setPhase_phase]
    simp only [checkStep_of_decode hcheck]
    rfl
  refine Finishes.step hpro (.step hchk (.of_settle_bind fun t ht => ?_))
  obtain rfl := checkInput_eq_ok ht
  exact he

theorem clear_reaches (s : State) : Reaches (s.start 0) ((s.start 0).prologue.setPhase .idle) := by
  have hd : decodeCommand (s.start 0).cmdWord = .ok .clear := by rw [State.start_cmdWord]; decide
  have hpro : step (s.start 0) = .next ((s.start 0).prologue.setPhase .idle) := by
    rw [step_prologue rfl, prologueStep_of_decode hd]
    rfl
  exact .step hpro (.refl _)

theorem legal_reaches {w : Word} {i : Instr} (hd : decodeCommand w = .ok i) (s : State) :
    ∃ t, exec i s = .next t ∧ Reaches (s.start w) t := by
  have hw : encode .little i = .command w := encode_of_decodeCommand hd .little
  have hc : i.isCommand = true := isCommand_of_decodeCommand hd
  cases i <;> cases hc <;> cases hw
  case clear => exact ⟨_, rfl, clear_reaches s⟩
  case hufPack => exact ⟨_, rfl, dataCommand_finishes s hd (by simp) (hufPackEngine_finishes hd)⟩
  case hufUnpack => exact ⟨_, rfl, dataCommand_finishes s hd (by simp) (hufUnpackEngine_finishes rfl hd)⟩
  case lzPack => exact ⟨_, rfl, dataCommand_finishes s hd (by simp) (lzPackEngine_finishes rfl rfl)⟩
  case lzUnpack => exact ⟨_, rfl, dataCommand_finishes s hd (by simp) (lzUnpackEngine_finishes _)⟩

theorem illegal_reaches {w : Word} (hd : ∀ i, decodeCommand w ≠ .ok i) (s : State) :
    Reaches (s.start w) (illegalCommand w s) := by
  have hstart : ∀ i, decodeCommand (s.start w).cmdWord ≠ .ok i := hd
  have hpro : step (s.start w) = .next ((s.start w).prologue.enterError .illegalCommand) := by
    rw [step_prologue rfl, prologueStep_of_illegal hstart]
  exact .step hpro (.step (step_enterError .illegalCommand _) (.refl _))

/-- Every command word reaches its atomic result (R96, R102). -/
theorem issue_reaches (w : Word) (s : State) : ∃ t, issue w s = .next t ∧ Reaches (s.start w) t := by
  cases hd : decodeCommand w with
  | ok i =>
    rw [issue_of_decode hd]
    exact legal_reaches hd s
  | error e =>
    have hi : issue w s = .next (illegalCommand w s) := by simp only [issue, hd]
    exact ⟨_, hi, illegal_reaches (by simp [hd]) s⟩

/-- Settles O12: the simulation for every word, the paths, and the steps into and out of `ERROR`. -/
theorem phaseStepsReachTheCommandsResult : Obligations.PhaseStepsReachTheCommandsResult := by
  refine ⟨fun w s _ => ?_, fun s t i hd hp hne hs => step_follows_path hd hp hne hs, fun s t hd hp hs => ?_,
    fun s t e hp hs => ?_⟩
  · obtain ⟨t, ht, k, hk⟩ := issue_reaches w s
    exact ⟨k, hk.trans ht.symm⟩
  · rw [step_prologue hp, prologueStep_of_illegal hd] at hs
    cases hs
    rfl
  · rw [step_error hp] at hs
    cases hs
    exact ⟨rfl, statusOfError_eq e, rfl, rfl, kept_errorWrites e s⟩

end Sys2Proof.Machine
end

section
/-! The int32 field of a stream (R64): its four bytes are the digits of its value in base 256. -/

namespace Sys2Proof.Machine

/-- Byte `k` of a word, as the digit of its value in base 256. -/
theorem toNat_wordByte (w : Word) (k : Nat) : (w.extractLsb' (8 * k) 8).toNat = w.toNat / 2 ^ (8 * k) % 2 ^ 8 := by
  rw [BitVec.extractLsb'_toNat, Nat.shiftRight_eq_div_pow]

/-- The sum R64 writes fits in 32 bits, so it is the value of the pattern. -/
theorem toNat_int32Pattern_little (b0 b1 b2 b3 : Byte) : (int32Pattern .little b0 b1 b2 b3).toNat
    = b0.toNat + 2 ^ 8 * b1.toNat + 2 ^ 16 * b2.toNat + 2 ^ 24 * b3.toNat :=
  (BitVec.toNat_ofNat _ _).trans (Nat.mod_eq_of_lt (by omega))

/-- A word is the sum of its four bytes (R64). -/
theorem toNat_eq_sum_wordBytes (w : Word) : w.toNat = (w.extractLsb' 0 8).toNat + 2 ^ 8 * (w.extractLsb' 8 8).toNat
    + 2 ^ 16 * (w.extractLsb' 16 8).toNat + 2 ^ 24 * (w.extractLsb' 24 8).toNat := by
  rw [toNat_wordByte w 0, toNat_wordByte w 1, toNat_wordByte w 2, toNat_wordByte w 3]
  omega

/-- The bytes of the pattern of four bytes are those bytes: they are the digits of the sum. -/
theorem int32Bytes_int32Pattern_little (b0 b1 b2 b3 : Byte) :
    int32Bytes .little (int32Pattern .little b0 b1 b2 b3) = [b0, b1, b2, b3] := by
  have hsum := toNat_int32Pattern_little b0 b1 b2 b3
  generalize int32Pattern .little b0 b1 b2 b3 = w at hsum
  have h0 : w.extractLsb' 0 8 = b0 := BitVec.eq_of_toNat_eq (by rw [toNat_wordByte w 0]; omega)
  have h1 : w.extractLsb' 8 8 = b1 := BitVec.eq_of_toNat_eq (by rw [toNat_wordByte w 1]; omega)
  have h2 : w.extractLsb' 16 8 = b2 := BitVec.eq_of_toNat_eq (by rw [toNat_wordByte w 2]; omega)
  have h3 : w.extractLsb' 24 8 = b3 := BitVec.eq_of_toNat_eq (by rw [toNat_wordByte w 3]; omega)
  simp only [int32Bytes, h0, h1, h2, h3]

theorem int32Bytes_big (w : Word) : int32Bytes .big w = (int32Bytes .little w).reverse := rfl

/-- Reading an int32 field and writing it again gives the bytes back, in either byte order (R43, R64). -/
@[simp] theorem int32Bytes_int32Pattern (e : Endian) (b0 b1 b2 b3 : Byte) :
    int32Bytes e (int32Pattern e b0 b1 b2 b3) = [b0, b1, b2, b3] := by
  cases e with
  | little => exact int32Bytes_int32Pattern_little b0 b1 b2 b3
  | big => rw [int32Pattern_cases, int32Bytes_big, int32Bytes_int32Pattern_little]; rfl

/-- Settles O21: bytes and digits agree, and the big order is the little order reversed. -/
theorem int32FieldsAreInverse : Obligations.Int32FieldsAreInverse :=
  ⟨int32Bytes_int32Pattern, fun w => ⟨_, _, _, _, rfl, rfl, toNat_eq_sum_wordBytes w⟩⟩

end Sys2Proof.Machine
end

section
/-! Host reads that the spec gives no value (R41, U1, U2, U5). -/

namespace Sys2Proof.Machine

theorem State.hostReadOut_of_beyond {s : State} {a : Nat} (h : s.outLen.toNat ≤ a) :
    s.hostReadOut a = s.readUnspecified := if_neg (Nat.not_lt.mpr h)

/-- `IN[a]` has no value beyond the buffer and where nothing was written (R41). -/
theorem State.hostReadIn_of_unwritten {s : State} {a : Nat}
    (h : s.params.inCap ≤ a ∨ Memory.read? s.inBuf a = none) : s.hostReadIn a = s.readUnspecified := by
  unfold State.hostReadIn
  split
  · next ha => rw [h.resolve_left (Nat.not_le.mpr ha)]
  · rfl

/-- Settles O8: in each of the cases the access is the read of a free value. -/
theorem hostReadsWithoutValueAreFree : Obligations.HostReadsWithoutValueAreFree := by
  rintro s rest a hp (⟨hh, ha⟩ | ⟨hh, ha⟩) <;> rw [step_of_host hp hh]
  · exact congrArg Host.Outcome.next (State.hostReadOut_of_beyond (s := { s with host := rest }) ha)
  · exact congrArg Host.Outcome.next (State.hostReadIn_of_unwritten (s := { s with host := rest }) ha)

end Sys2Proof.Machine
end

section
/-! Decoding and encoding are inverse (R62 to R71): a record is its tag and its fields, and an int32 field is the sum of its
four bytes. -/

namespace Sys2Proof.Machine

/-! ### Decode after encode -/

/-- The pattern of a word's four bytes is the word (R64). -/
theorem int32Pattern_wordBytes (w : Word) : int32Pattern .little (w.extractLsb' 0 8) (w.extractLsb' 8 8)
    (w.extractLsb' 16 8) (w.extractLsb' 24 8) = w :=
  BitVec.eq_of_toNat_eq ((toNat_int32Pattern_little _ _ _ _).trans (toNat_eq_sum_wordBytes w).symm)

/-- A word is written as four bytes that read back as the word, in either byte order (R43, R64). -/
theorem int32Bytes_eq (e : Endian) (w : Word) :
    ∃ b0 b1 b2 b3, int32Bytes e w = [b0, b1, b2, b3] ∧ int32Pattern e b0 b1 b2 b3 = w := by
  cases e with
  | little => exact ⟨_, _, _, _, rfl, int32Pattern_wordBytes w⟩
  | big => exact ⟨_, _, _, _, rfl, (int32Pattern_cases _ _ _ _ _).trans (int32Pattern_wordBytes w)⟩

theorem decodeSymbolCount_encode (e : Endian) (n : Word) :
    decodeSymbolCount e (int32Bytes e n) = .ok (.hufSymbolCount n) := by
  obtain ⟨b0, b1, b2, b3, hb, hp⟩ := int32Bytes_eq e n
  simp only [hb, decodeSymbolCount, hp]

theorem decodeTableEntry_encode (e : Endian) (v : Byte) (f : Word) :
    decodeTableEntry e (v :: int32Bytes e f) = .ok (.hufTableEntry v f) := by
  obtain ⟨b0, b1, b2, b3, hb, hp⟩ := int32Bytes_eq e f
  simp only [hb, decodeTableEntry, hp]

theorem decodePaddingCount_of_lt {p : Byte} (h : p.toNat < 8) : decodePaddingCount p = .ok (.hufPaddingCount p) :=
  if_neg (not_not.mpr ((paddingBits_eq_zero_iff p).mpr h))

theorem decodeTriplet_encode (e : Endian) (o : Word) (l : Byte) (n : Word) :
    decodeTriplet e (int32Bytes e o ++ l :: int32Bytes e n) = .ok (.lzTriplet o l n) := by
  obtain ⟨o0, o1, o2, o3, ho, hpo⟩ := int32Bytes_eq e o
  obtain ⟨n0, n1, n2, n3, hn, hpn⟩ := int32Bytes_eq e n
  simp only [ho, hn, List.cons_append, List.nil_append, decodeTriplet, hpo, hpn]

/-- The five command words decode to their commands (R62). -/
theorem decode_encode_of_isCommand (e : Endian) {i : Instr} (h : i.isCommand = true) :
    decode e (encode e i) = .ok i := by
  cases i <;> cases h <;> rfl

/-- Settles O17: each row's decoder undoes its encoder. Only a padding count has values its decoder refuses. -/
theorem decodeOfEncodeIsTheInstruction : Obligations.DecodeOfEncodeIsTheInstruction := by
  intro e i hwf
  cases i with
  | clear | hufPack | hufUnpack | lzPack | lzUnpack => exact decode_encode_of_isCommand e rfl
  | hufSymbolCount n => exact decodeSymbolCount_encode e n
  | hufTableEntry v f => exact decodeTableEntry_encode e v f
  | hufPaddingCount p => exact decodePaddingCount_of_lt (of_decide_eq_true hwf)
  | lzTriplet o l n => exact decodeTriplet_encode e o l n

/-! ### Encode after decode -/

theorem encode_of_decodeSymbolCount {e : Endian} {bytes : List Byte} {i : Instr}
    (h : decodeSymbolCount e bytes = .ok i) : encode e i = .symbolCount bytes := by
  unfold decodeSymbolCount at h
  split at h <;> cases h
  exact congrArg Fetched.symbolCount (int32Bytes_int32Pattern e _ _ _ _)

theorem encode_of_decodeTableEntry {e : Endian} {bytes : List Byte} {i : Instr}
    (h : decodeTableEntry e bytes = .ok i) : encode e i = .tableEntry bytes := by
  unfold decodeTableEntry at h
  split at h <;> cases h
  simp only [encode, int32Bytes_int32Pattern]

theorem encode_of_decodePaddingCount {p : Byte} {i : Instr} (h : decodePaddingCount p = .ok i) (e : Endian) :
    encode e i = .paddingCount p := by
  unfold decodePaddingCount at h
  split at h <;> cases h
  rfl

theorem encode_of_decodeTriplet {e : Endian} {bytes : List Byte} {i : Instr} (h : decodeTriplet e bytes = .ok i) :
    encode e i = .triplet bytes := by
  unfold decodeTriplet at h
  split at h <;> cases h
  simp only [encode, int32Bytes_int32Pattern, List.cons_append, List.nil_append]

/-- Settles O18: each row's encoder undoes its decoder. -/
theorem encodeOfDecodeIsTheWord : Obligations.EncodeOfDecodeIsTheWord := by
  intro e f i h
  cases f with
  | command w => exact encode_of_decodeCommand h e
  | symbolCount bytes => exact encode_of_decodeSymbolCount h
  | tableEntry bytes => exact encode_of_decodeTableEntry h
  | paddingCount p => exact encode_of_decodePaddingCount h e
  | triplet bytes => exact encode_of_decodeTriplet h

/-! ### The command words -/

/-- Settles O19: what decodes is a command and encodes to the word; the five words decode. -/
theorem exactlyFiveLegalCommandWords : Obligations.ExactlyFiveLegalCommandWords := by
  intro w i
  constructor
  · intro h
    have hw : encode .little i = .command w := encode_of_decodeCommand h .little
    have hc : i.isCommand = true := isCommand_of_decodeCommand h
    cases i <;> cases hc <;> cases hw <;> simp
  · rintro (⟨rfl, rfl⟩ | ⟨rfl, rfl⟩ | ⟨rfl, rfl⟩ | ⟨rfl, rfl⟩ | ⟨rfl, rfl⟩) <;> rfl

/-- Settles O20: the decoder evaluated on the written-out word and records. -/
theorem writtenOutEncodingsDecode : Obligations.WrittenOutEncodingsDecode := by
  refine ⟨?_, ?_, ?_, ?_, ?_⟩ <;> decide

end Sys2Proof.Machine
end

section
/-! The records of the container (R151 to R153), each with its two outcomes: the fields it sets, or the trap. -/

namespace Sys2Proof.Machine

/-- A non-negative int32 is its pattern (R64). -/
theorem toInt_of_nonneg {w : Word} (h : 0 ≤ w.toInt) : w.toInt = w.toNat :=
  BitVec.toInt_eq_toNat_of_msb (BitVec.msb_eq_toInt.trans (decide_eq_false (Int.not_lt.mpr h)))

/-! ### How a record traps -/

/-- A record that raises makes error entry in the next step (R102, R204). -/
theorem traps_of_enterError {i : Instr} {s t : State} {e : CodecError} (h : exec i s = .next (t.enterError e))
    (hb : ∀ a, a < s.opos → Memory.read? t.outBuf a = Memory.read? s.outBuf a) : Traps i s e :=
  ⟨t.enterError e, t.errorEntry e, h, rfl, step_enterError e t, rfl, statusOfError_eq e, rfl,
    (exec_kept h).trans (kept_errorWrites e _), hb⟩

/-- A record refused by its checks traps with nothing stored. -/
theorem traps_of_refused {i : Instr} {s : State} {r : Run State} {e : CodecError} (hi : exec i s = .next (settle r))
    (hr : r = .error (e, s)) : Traps i s e ∧ ∀ t, exec i s = .next t → t.outBuf = s.outBuf := by
  rw [hr, settle_error] at hi
  refine ⟨traps_of_enterError hi fun _ _ => rfl, fun t ht => ?_⟩
  cases hi.symm.trans ht
  rfl

/-! ### The three records -/

theorem exec_hufSymbolCount (n : Word) (s : State) :
    exec (.hufSymbolCount n) s = .next (settle (takeSymbolCount n.toInt s)) := rfl

theorem exec_hufPaddingCount (p : Byte) (s : State) :
    exec (.hufPaddingCount p) s = .next (settle (takePaddingCount p s)) := rfl

theorem exec_hufTableEntry (v : Byte) (f : Word) (s : State) :
    exec (.hufTableEntry v f) s = .next (settle (takeTableEntry v f.toInt s)) := rfl

theorem takeSymbolCount_of_legal {n : Int} {s : State} (hlow : 0 ≤ n) (hhigh : n ≤ 256)
    (hroom : 4 + 5 * n.toNat + 1 ≤ s.inLen.toNat) :
    takeSymbolCount n s = .ok { s with
      nsym := n.toNat, pbase := 4 + 5 * n.toNat, pbytes := s.inLen.toNat - 1 - (4 + 5 * n.toNat)
      reader := .paddingCount } := by
  rw [takeSymbolCount, if_neg (by omega), if_neg (by omega)]

/-- Settles O44: the signed count the reader checks is the pattern wherever no check refuses it. -/
theorem symbolCountRecordSetsTheLayout : Obligations.SymbolCountRecordSetsTheLayout := by
  intro s n
  constructor
  · rintro ⟨hlow, hhigh, hroom⟩
    have hn : n.toInt = n.toNat := toInt_of_nonneg hlow
    rw [exec_hufSymbolCount, takeSymbolCount_of_legal hlow hhigh (by omega), settle_ok, hn, Int.toNat_natCast]
  · intro hbad
    rcases takeSymbolCount_spec n.toInt s with he | ⟨hlow, hhigh, hroom, -⟩
    · exact traps_of_refused (exec_hufSymbolCount n s) he
    · have hn : n.toInt = n.toNat := toInt_of_nonneg hlow
      exact absurd ⟨hlow, hhigh, by omega⟩ hbad

theorem takePaddingCount_of_legal {p : Byte} {s : State} (hp : p.toNat < 8) (hz : s.pbytes = 0 → p = 0) :
    takePaddingCount p s = .ok { s with
      pad := p.toNat, useful := s.pbytes * 8 - p.toNat, reader := .tableEntries } := by
  have hz' : ¬ (s.pbytes = 0 ∧ p.toNat ≠ 0) := fun ⟨hb, hne⟩ => hne (congrArg BitVec.toNat (hz hb))
  rw [takePaddingCount, if_neg (by omega), if_neg hz']

/-- Settles O45: the reader's two checks are the two bounds of the statement. -/
theorem paddingCountRecordSetsTheUsefulBits : Obligations.PaddingCountRecordSetsTheUsefulBits := by
  intro s p
  constructor
  · rintro ⟨hp, hz⟩
    rw [exec_hufPaddingCount, takePaddingCount_of_legal hp hz, settle_ok]
  · intro hbad
    rcases takePaddingCount_spec p s with he | ⟨hp, hz, -⟩
    · exact traps_of_refused (exec_hufPaddingCount p s) he
    · exact absurd ⟨hp, fun hb => BitVec.eq_of_toNat_eq (hz hb)⟩ hbad

theorem takeTableEntry_of_legal {v : Byte} {c : Int} {s : State} (hv : s.freq.get v = 0) (hc : 1 ≤ c) :
    takeTableEntry v c s = .ok { s with freq := s.freq.set v c.toNat } := by
  rw [takeTableEntry, if_neg (not_not.mpr hv), if_neg (by omega)]

/-- Settles O46: the reader's two checks are the two bounds of the statement; one entry of the table is written. -/
theorem tableEntryRecordSetsOneFrequency : Obligations.TableEntryRecordSetsOneFrequency := by
  intro s v f
  constructor
  · rintro ⟨hv, hc⟩
    have hf : f.toInt = f.toNat := toInt_of_nonneg (by omega)
    refine ⟨{ s with freq := s.freq.set v f.toNat }, ?_, rfl, fun x => Table.get_set _ _ _ _⟩
    rw [exec_hufTableEntry, takeTableEntry_of_legal hv hc, settle_ok, hf, Int.toNat_natCast]
  · intro hbad
    rcases takeTableEntry_spec v f.toInt s with he | ⟨hv, hc, -⟩
    · exact traps_of_refused (exec_hufTableEntry v f s) he
    · exact absurd ⟨hv, hc⟩ hbad

end Sys2Proof.Machine
end

section
/-! O37: the length of the Huffman container (R139). The payload has one code for each byte of the input, so its bit count is
the sum over the symbols of frequency times code length, whatever the code table. -/

namespace Sys2Proof.Machine

/-! ### Counting -/

/-- The counting loop counts occurrences (R116). -/
theorem get_countBytes (t : Table Nat) (bytes : List Byte) (v : Byte) :
    (countBytes t bytes).get v = t.get v + bytes.count v := by
  induction bytes generalizing t with
  | nil => rfl
  | cons b bytes ih =>
    rw [countBytes, List.foldl_cons, ← countBytes, ih, get_countByte, List.count_cons]
    simp only [beq_iff_eq, eq_comm (a := b)]
    omega

@[simp] theorem get_countBytes_noCounts (bytes : List Byte) (v : Byte) :
    (countBytes noCounts bytes).get v = bytes.count v := by
  rw [get_countBytes, noCounts, Table.get_replicate, Nat.zero_add]

theorem mem_symbols_countBytes {bytes : List Byte} {v : Byte} : v ∈ symbols (countBytes noCounts bytes) ↔ v ∈ bytes := by
  rw [mem_symbols, get_countBytes_noCounts, List.count_pos_iff]

theorem allBytes_nodup : allBytes.Nodup := by
  refine List.Nodup.map_on (fun a ha b hb h => ?_) List.nodup_range
  have h' : a % 2 ^ 8 = b % 2 ^ 8 := congrArg BitVec.toNat h
  rw [List.mem_range] at ha hb
  omega

theorem symbols_nodup (freq : Table Nat) : (symbols freq).Nodup := allBytes_nodup.filter _

/-- A sum over the bytes is the sum over the symbols, each counted with its frequency. -/
theorem sum_map_symbols (bytes : List Byte) (f : Byte → Nat) :
    ((symbols (countBytes noCounts bytes)).map fun v => (countBytes noCounts bytes).get v * f v).sum
      = (bytes.map f).sum := by
  have hset : (symbols (countBytes noCounts bytes)).toFinset = bytes.toFinset := by
    ext v
    rw [List.mem_toFinset, List.mem_toFinset, mem_symbols_countBytes]
  rw [← List.sum_toFinset _ (symbols_nodup _), hset, Finset.sum_list_map_count]
  simp only [get_countBytes_noCounts, smul_eq_mul]

/-- The number of payload bits (R139, `T`). -/
theorem payloadBits_length (code : Table (List Bool)) (bytes : List Byte) :
    (payloadBits code bytes).length = ((symbols (countBytes noCounts bytes)).map fun v =>
      (countBytes noCounts bytes).get v * (code.get v).length).sum := by
  rw [sum_map_symbols, payloadBits, List.length_flatMap]

/-! ### The parts of the container -/

@[simp] theorem packBits_length (bits : List Bool) : (packBits bits).length = bits.length / 8 := by simp [packBits]

/-- A table of int32 entries takes 5 bytes for each symbol (R67). -/
theorem entries_length (e : Endian) (freq : Byte → Nat) (vs : List Byte) :
    (vs.flatMap fun v => v :: int32Bytes e (BitVec.ofNat 32 (freq v))).length = 5 * vs.length := by
  induction vs with
  | nil => rfl
  | cons v vs ih =>
    rw [List.flatMap_cons, List.length_append, ih, List.length_cons, List.length_cons, int32Bytes_length]
    omega

/-- The length of the container and its last byte, by the number of its payload bits. -/
theorem hufEncode_shape (e : Endian) (bytes : List Byte) (freq : Table Nat) (total : Nat)
    (hf : freq = countBytes noCounts bytes) (ht : total = (payloadBits (codeTable freq) bytes).length) :
    (hufEncode e bytes).length = 4 + 5 * (symbols freq).length + (total + (8 - total % 8) % 8) / 8 + 1
      ∧ (hufEncode e bytes).getLast? = some (BitVec.ofNat 8 ((8 - total % 8) % 8)) := by
  subst hf ht
  constructor
  · simp only [hufEncode, List.length_append, int32Bytes_length, entries_length, packBits_length,
      List.length_replicate, List.length_singleton]
  · exact List.getLast?_concat

/-- Settles O37: with the bits counted, what is left is the rounding up to whole bytes. -/
theorem containerLengthAndPadding : Obligations.ContainerLengthAndPadding := by
  intro e bytes freq total hf ht
  have hbits : total = (payloadBits (codeTable freq) bytes).length := by
    rw [ht, payloadBits_length, hf]
  obtain ⟨hlen, hlast⟩ := hufEncode_shape e bytes freq total hf hbits
  have hpad : (BitVec.ofNat 8 ((8 - total % 8) % 8)).toNat = (8 - total % 8) % 8 := by
    rw [BitVec.toNat_ofNat]
    omega
  refine ⟨by omega, _, hlast, ?_, ?_⟩ <;> rw [hpad] <;> omega

end Sys2Proof.Machine
end

section
/-! O58: `LZ_TRIPLET` copies from the decoded output and appends the literal (R192 to R194). -/

namespace Sys2Proof.Machine

/-- Appending a run leaves the bytes before `OPOS` as they are. -/
theorem State.pushAll_outByte_of_lt (bs : List Byte) {s : State} {a : Nat} (h : a < s.opos) :
    (s.pushAll bs).outByte a = s.outByte a := by
  have hr : Memory.read? (s.pushAll bs).outBuf a = Memory.read? s.outBuf a := by
    rw [State.pushAll_read, if_neg (by omega)]
  have he : (s.pushAll bs).epoch = s.epoch := by rw [State.pushAll_frame]
  simp only [State.outByte, hr, he]

/-- The bytes a copy appends are those `off` places before each, in the output the copy leaves: a byte it reads may be
one it wrote (R193). -/
theorem copyBack_spec {off k : Nat} {s : State} (hoff : 0 < k → 1 ≤ off ∧ off ≤ s.opos)
    (hroom : s.opos + k ≤ s.params.outCap) :
    ∃ bs : List Byte, bs.length = k ∧ copyBack off k s = .ok (s.pushAll bs)
      ∧ ∀ j, j < k → bs[j]? = some ((s.pushAll bs).outByte (s.opos + j - off)) := by
  induction k generalizing s with
  | zero => exact ⟨[], rfl, rfl, fun j hj => absurd hj j.not_lt_zero⟩
  | succ k ih =>
    obtain ⟨hlow, hin⟩ := hoff k.succ_pos
    obtain ⟨b, hb⟩ : ∃ b, b = s.outByte (s.opos - off) := ⟨_, rfl⟩
    have hput : outByte b s = .ok (s.push b) := outByte_ok_iff.mpr ⟨by omega, rfl⟩
    obtain ⟨bs, hlen, hcopy, hread⟩ := ih (s := s.push b) (fun _ => ⟨hlow, by simp; omega⟩) (by simp; omega)
    refine ⟨b :: bs, congrArg (· + 1) hlen, ?_, fun j hj => ?_⟩
    · rw [copyBack, ← hb, hput]
      exact hcopy
    · cases j with
      | zero => rw [State.pushAll_outByte_of_lt _ (by omega), List.getElem?_cons_zero, hb, Nat.add_zero]
      | succ j =>
        rw [List.getElem?_cons_succ, hread j (by omega), State.push_opos, State.pushAll_cons]
        congr 2
        omega

/-- A triplet in range that fits appends the copy and the literal (R190, R192 to R194). -/
theorem expandTriplet_of_fits {off len : Nat} (l : Byte) {s : State} (hoff : 0 < len → 1 ≤ off ∧ off ≤ s.opos)
    (hroom : s.opos + len + 1 ≤ s.params.outCap) :
    ∃ bs : List Byte, bs.length = len ∧ expandTriplet off l len s = .ok (s.pushAll (bs ++ [l]))
      ∧ ∀ j, j < len → bs[j]? = some ((s.pushAll (bs ++ [l])).outByte (s.opos + j - off)) := by
  obtain ⟨bs, hlen, hcopy, hread⟩ := copyBack_spec hoff (by omega)
  have hput : outByte l (s.pushAll bs) = .ok ((s.pushAll bs).push l) := outByte_ok_iff.mpr ⟨by simp; omega, rfl⟩
  refine ⟨bs, hlen, ?_, fun j hj => ?_⟩
  · rw [expandTriplet, if_neg (by omega), if_neg (by omega), Int.toNat_natCast, Int.toNat_natCast, hcopy,
      State.pushAll_append]
    exact hput
  · rw [hread j hj, State.pushAll_append, State.pushAll_outByte_of_lt (a := s.opos + j - off) [l]]
    have := hoff (by omega)
    simp only [State.pushAll_opos]
    omega

/-- Settles O58: the bytes appended are the copy and the literal, read back where they stand. -/
theorem tripletRecordCopiesAndAppends : Obligations.TripletRecordCopiesAndAppends := by
  intro s o l n ho hn hoff hroom
  have hno : o.toInt = o.toNat := toInt_of_nonneg ho
  have hnn : n.toInt = n.toNat := toInt_of_nonneg hn
  obtain ⟨bs, hlen, hexp, hread⟩ := expandTriplet_of_fits l (fun h => hoff (by omega)) hroom
  have hexec : exec (.lzTriplet o l n) s = .next (settle (expandTriplet o.toInt l n.toInt s)) := rfl
  refine ⟨s.pushAll (bs ++ [l]), by rw [hexec, hno, hnn, hexp, settle_ok], ?_, fun j hj => ?_, ?_, fun a ha => ?_⟩
  · rw [State.pushAll_frame]
    simp [hlen, Nat.add_assoc]
  · rw [State.pushAll_read, if_pos (by simp; omega), Nat.add_sub_cancel_left, List.getElem?_append_left (by omega),
      hread j hj]
  · rw [State.pushAll_read, if_pos (by simp; omega), Nat.add_sub_cancel_left, ← hlen, List.getElem?_concat_length]
  · rw [State.pushAll_read, if_neg (by simp; omega)]

end Sys2Proof.Machine
end

section
/-! O27, O28, O29: the byte and int32 primitives (R81 to R83). An int32 in `OUT` or `IN` is the word of its four
bytes. -/

namespace Sys2Proof.Machine

/-- Settles O27: a byte is refused exactly at `OUT_CAP`, and otherwise stored at `OPOS`. -/
theorem outByteAppendsOrRaises : Obligations.OutByteAppendsOrRaises := fun s b =>
  ⟨fun hfull => outByte_error_iff.mpr ⟨hfull, rfl⟩, fun hroom =>
    ⟨s.push b, outByte_ok_iff.mpr ⟨hroom, rfl⟩, rfl, fun a => Memory.read?_write s.outBuf s.opos b a⟩⟩

theorem writeInt32_ok (v : Int) {s : State} (h : s.opos + 4 ≤ s.params.outCap) :
    writeInt32 v s = .ok (s.pushAll (int32Bytes s.params.endian (BitVec.ofInt 32 v))) :=
  outBytes_ok (by rwa [int32Bytes_length])

/-- A run that was appended reads back from `OPOS` on. -/
theorem State.pushAll_read_add {bs : List Byte} {k : Nat} (h : k < bs.length) (s : State) :
    Memory.read? (s.pushAll bs).outBuf (s.opos + k) = bs[k]? := by
  rw [State.pushAll_read, if_pos (by omega), Nat.add_sub_cancel_left]

/-- Four bytes appended read back in their order. -/
theorem State.pushAll_read_four {bs : List Byte} {b0 b1 b2 b3 : Byte} (hbs : bs = [b0, b1, b2, b3]) (s : State) :
    [Memory.read? (s.pushAll bs).outBuf s.opos, Memory.read? (s.pushAll bs).outBuf (s.opos + 1),
      Memory.read? (s.pushAll bs).outBuf (s.opos + 2), Memory.read? (s.pushAll bs).outBuf (s.opos + 3)]
      = [some b0, some b1, some b2, some b3] := by
  have hread : ∀ k, k < 4 → Memory.read? (s.pushAll bs).outBuf (s.opos + k) = [b0, b1, b2, b3][k]? := fun k hk =>
    hbs ▸ State.pushAll_read_add (bs := bs) (by rwa [hbs]) s
  rw [hread 1 (by decide), hread 2 (by decide), hread 3 (by decide), ← Nat.add_zero s.opos, hread 0 (by decide)]
  rfl

/-- Settles O28: the run appended is the word's four bytes, whose sum is the value modulo 2^32. -/
theorem writeInt32AppendsFourBytes : Obligations.WriteInt32AppendsFourBytes := by
  refine ⟨fun s v hin hfull => ⟨_, outBytes_error hin (by rwa [int32Bytes_length])⟩, fun s v _ _ hroom => ?_⟩
  obtain ⟨b0, b1, b2, b3, hlittle, hbig, hsum⟩ := int32FieldsAreInverse.2 (BitVec.ofInt 32 v)
  refine ⟨_, writeInt32_ok v hroom, ?_, fun a ha => ?_, b0, b1, b2, b3, ?_, ?_⟩
  · rw [State.pushAll_frame, int32Bytes_length]
  · rw [State.pushAll_read, int32Bytes_length, if_neg (by omega)]
  · rw [BitVec.toNat_ofInt] at hsum
    omega
  · cases s.params.endian with
    | little => exact State.pushAll_read_four hlittle s
    | big => exact State.pushAll_read_four hbig s

/-- The value of a pattern is the sum R64 writes, in either byte order. -/
theorem toNat_int32Pattern (e : Endian) (b0 b1 b2 b3 : Byte) : (int32Pattern e b0 b1 b2 b3).toNat = match e with
    | .little => b0.toNat + 2 ^ 8 * b1.toNat + 2 ^ 16 * b2.toNat + 2 ^ 24 * b3.toNat
    | .big => 2 ^ 24 * b0.toNat + 2 ^ 16 * b1.toNat + 2 ^ 8 * b2.toNat + b3.toNat := by
  cases e with
  | little => exact toNat_int32Pattern_little b0 b1 b2 b3
  | big =>
    rw [int32Pattern_cases]
    have hsum := toNat_int32Pattern_little b3 b2 b1 b0
    dsimp only
    omega

/-- Settles O29: the word read is the sum of its bytes, and its two's complement value depends on whether it is below
2^31. -/
theorem readInt32ReadsSignedOrRaises : Obligations.ReadInt32ReadsSignedOrRaises := by
  refine fun s a => ⟨readInt32_error, fun hin => ?_⟩
  refine ⟨_, BitVec.isLt _, toNat_int32Pattern s.params.endian _ _ _ _, ?_⟩
  rw [readInt32_ok hin, int32At, BitVec.toInt_eq_toNat_cond]
  congr 1
  split <;> split <;> omega

end Sys2Proof.Machine
end

section
/-! O30: the bit packer (R85, R86, R88). The bits put since the packer was empty determine its state: their whole bytes
stand in `OUT`, and the rest, less than a byte, is in `ACC` and `NBITS`. -/

namespace Sys2Proof.Machine

/-! ### A byte and its bits -/

/-- The sum of the powers of two that `f` selects below `n`, one turn at a time. -/
theorem sum_two_pow_succ (f : Nat → Bool) (n : Nat) :
    ((List.range (n + 1)).map fun i => if f i then 2 ^ i else 0).sum
      = ((List.range n).map fun i => if f i then 2 ^ i else 0).sum + if f n then 2 ^ n else 0 := by
  rw [List.range_succ, List.map_append, List.sum_append, List.map_singleton, List.sum_singleton]

theorem sum_two_pow_lt (f : Nat → Bool) (n : Nat) :
    ((List.range n).map fun i => if f i then 2 ^ i else 0).sum < 2 ^ n := by
  induction n with
  | zero => simp
  | succ n ih =>
    rw [sum_two_pow_succ, pow_succ]
    split <;> omega

/-- A sum of distinct powers of two has the bits of its powers. -/
theorem testBit_sum_two_pow (f : Nat → Bool) (n j : Nat) :
    (((List.range n).map fun i => if f i then 2 ^ i else 0).sum).testBit j = (decide (j < n) && f j) := by
  induction n with
  | zero => simp
  | succ n ih =>
    rw [sum_two_pow_succ]
    by_cases hf : f n
    · have hor := Nat.two_pow_add_eq_or_of_lt (sum_two_pow_lt f n) 1
      rw [mul_one] at hor
      rw [if_pos hf, Nat.add_comm, hor, Nat.testBit_or, ih, Nat.testBit_two_pow]
      by_cases hj : n = j
      · simp [← hj, hf]
      · simp [hj, show j < n + 1 ↔ j < n by omega]
    · rw [if_neg hf, Nat.add_zero, ih]
      by_cases hj : j = n
      · simp [hj, hf]
      · simp [show j < n + 1 ↔ j < n by omega]

/-- Bit `j` of the byte made of a bit sequence is its `j`-th bit (R44). -/
theorem getLsbD_byteOfBits (bits : List Bool) (j : Nat) :
    (byteOfBits bits).getLsbD j = (decide (j < 8) && bits.getD j false) := by
  rw [byteOfBits, BitVec.getLsbD_ofNat, testBit_sum_two_pow, ← Bool.and_assoc, Bool.and_self]

/-- Setting the bit after the last appends a bit (R85). -/
theorem setBit_byteOfBits (b : Bool) {bits : List Bool} (h : bits.length < 8) :
    setBit (byteOfBits bits) bits.length b = byteOfBits (bits ++ [b]) := by
  refine BitVec.eq_of_getLsbD_eq fun j hj => ?_
  rw [getLsbD_setBit _ _ _ _ h, getLsbD_byteOfBits, getLsbD_byteOfBits]
  rcases Nat.lt_trichotomy j bits.length with hlt | rfl | hgt
  · rw [if_neg hlt.ne, List.getD_append _ _ _ _ hlt]
  · simp [h]
  · rw [if_neg hgt.ne', List.getD_eq_default _ _ hgt.le, List.getD_eq_default _ _ (by simp; omega)]

/-- Padding a partial byte appends ones up to the byte boundary (R86). -/
theorem padOnes_byteOfBits {bits : List Bool} (h : bits.length < 8) :
    padOnes (byteOfBits bits) bits.length = byteOfBits (bits ++ List.replicate (8 - bits.length) true) := by
  refine BitVec.eq_of_getLsbD_eq fun j hj => ?_
  rw [getLsbD_padOnes _ _ _ hj, getLsbD_byteOfBits, getLsbD_byteOfBits]
  by_cases hlt : j < bits.length
  · rw [if_neg (by omega), List.getD_append _ _ _ _ hlt]
  · rw [if_pos (by omega), List.getD_append_right _ _ _ _ (by omega), List.getD_replicate _ (by omega), Bool.and_true,
      decide_eq_true hj]

/-! ### Cutting a bit sequence into bytes -/

theorem packBits_of_length_lt {bits : List Bool} (h : bits.length < 8) : packBits bits = [] := by
  rw [packBits, Nat.div_eq_of_lt h]
  rfl

theorem packBits_of_length_eq {bits : List Bool} (h : bits.length = 8) : packBits bits = [byteOfBits bits] := by
  rw [packBits, h]
  simp [List.take_of_length_le h.le]

/-- After whole bytes the cut starts anew. -/
theorem packBits_append {full : List Bool} {m : Nat} (h : full.length = 8 * m) (rest : List Bool) :
    packBits (full ++ rest) = packBits full ++ packBits rest := by
  have hlen : (full ++ rest).length / 8 = m + rest.length / 8 := by rw [List.length_append]; omega
  rw [packBits, hlen, List.range_add, List.map_append, List.map_map, packBits, packBits, h,
    Nat.mul_div_cancel_left m (by decide)]
  congr 1
  · refine List.map_congr_left fun k hk => ?_
    rw [List.mem_range] at hk
    rw [List.drop_append_of_le_length (by omega), List.take_append_of_le_length (by rw [List.length_drop]; omega)]
  · refine List.map_congr_left fun k _ => ?_
    rw [Function.comp_apply, Nat.mul_add, ← h, List.drop_length_add_append]

/-- Bit `k mod 8` of byte `k div 8` is the `k`-th bit (R88). -/
theorem getElem?_packBits {bits : List Bool} {k : Nat} (h : k / 8 < bits.length / 8) :
    ∃ b, (packBits bits)[k / 8]? = some b ∧ b.getLsbD (k % 8) = bits.getD k false := by
  refine ⟨byteOfBits ((bits.drop (8 * (k / 8))).take 8), by simp [packBits, h], ?_⟩
  have hk : k % 8 < 8 := Nat.mod_lt k (by decide)
  rw [getLsbD_byteOfBits, decide_eq_true hk, Bool.true_and, List.getD_eq_getElem?_getD, List.getD_eq_getElem?_getD,
    List.getElem?_take_of_lt hk, List.getElem?_drop, Nat.div_add_mod]

/-! ### The state of the packer -/

/-- The number of bits missing to the byte boundary (R86). -/
def padBits (bits : List Bool) : Nat := (8 - bits.length % 8) % 8

/-- The bits followed by the ones `flush_bits` adds (R86). -/
def padded (bits : List Bool) : List Bool := bits ++ List.replicate (padBits bits) true

@[simp] theorem padded_length (bits : List Bool) : (padded bits).length = 8 * ((bits.length + 7) / 8) := by
  rw [padded, padBits, List.length_append, List.length_replicate]
  omega

theorem getD_padded {bits : List Bool} {k : Nat} (h : k < 8 * ((bits.length + 7) / 8)) :
    (padded bits).getD k false = bits.getD k true := by
  have hlen := padded_length bits
  rw [padded, List.length_append, List.length_replicate] at hlen
  by_cases hk : k < bits.length
  · rw [padded, List.getD_append _ _ _ _ hk, List.getD_eq_getElem _ _ hk, List.getD_eq_getElem _ _ hk]
  · rw [padded, List.getD_append_right _ _ _ _ (by omega), List.getD_replicate _ (by omega),
      List.getD_eq_default _ _ (by omega)]

/-- The state a run of bits leaves when it fits, from an empty packer: its whole bytes are appended and the rest is the
partial byte. -/
def State.packed (bits : List Bool) (s : State) : State :=
  { s.pushAll (packBits bits) with
    acc := byteOfBits (bits.drop (8 * (bits.length / 8))), nbits := bits.length % 8 }

@[simp] theorem State.packed_nbits (bits : List Bool) (s : State) : (s.packed bits).nbits = bits.length % 8 := rfl

@[simp] theorem State.packed_opos (bits : List Bool) (s : State) : (s.packed bits).opos = s.opos + bits.length / 8 := by
  simp [State.packed]

@[simp] theorem State.packed_params (bits : List Bool) (s : State) : (s.packed bits).params = s.params := by
  simp [State.packed]

theorem State.packed_nil {s : State} (hacc : s.acc = 0) (hn : s.nbits = 0) : s.packed [] = s := by
  cases s
  cases hacc
  cases hn
  rfl

/-- The packer after whole bytes and a rest. -/
theorem State.packed_append {full rest : List Bool} {m : Nat} (hfull : full.length = 8 * m) (hrest : rest.length < 8)
    (s : State) : s.packed (full ++ rest)
      = { s.pushAll (packBits full) with acc := byteOfBits rest, nbits := rest.length } := by
  have hdiv : (full ++ rest).length / 8 = m := by rw [List.length_append]; omega
  have hmod : (full ++ rest).length % 8 = rest.length := by rw [List.length_append]; omega
  rw [State.packed, hdiv, hmod, packBits_append hfull, packBits_of_length_lt hrest, List.append_nil, ← hfull,
    List.drop_left]

/-- Every bit sequence is whole bytes and a rest of less than a byte. -/
theorem exists_whole_bytes (bits : List Bool) :
    ∃ full rest m, bits = full ++ rest ∧ full.length = 8 * m ∧ rest.length < 8 :=
  ⟨bits.take (8 * (bits.length / 8)), bits.drop (8 * (bits.length / 8)), bits.length / 8,
    (List.take_append_drop _ _).symm, by rw [List.length_take]; omega, by rw [List.length_drop]; omega⟩

/-- One bit more: the rest grows by a bit, and a full rest is appended (R85). -/
theorem putBit_packed {bits : List Bool} (b : Bool) {s : State}
    (hroom : s.opos + (bits.length + 1) / 8 ≤ s.params.outCap) :
    putBit b (s.packed bits) = .ok (s.packed (bits ++ [b])) := by
  obtain ⟨full, rest, m, rfl, hfull, hrest⟩ := exists_whole_bytes bits
  rw [List.length_append] at hroom
  have hpack := State.packed_append hfull hrest s
  by_cases hlast : rest.length = 7
  · have hbyte : packBits (full ++ (rest ++ [b])) = packBits full ++ [byteOfBits (rest ++ [b])] := by
      rw [packBits_append hfull, packBits_of_length_eq (bits := rest ++ [b]) (by simp [hlast])]
    have hnew := State.packed_append (full := full ++ (rest ++ [b])) (rest := []) (m := m + 1)
      (by simp [hfull, hlast]; omega) (by decide) s
    rw [List.append_nil, hbyte, State.pushAll_append] at hnew
    rw [List.append_assoc, hnew, putBit_of_seven (by simp; omega) (by simp; omega), hpack,
      ← setBit_byteOfBits b hrest, hlast]
    rfl
  · have hnew := State.packed_append (rest := rest ++ [b]) hfull (by simp; omega) s
    rw [List.append_assoc, hnew, putBit_of_lt (by simp; omega), hpack, ← setBit_byteOfBits b hrest,
      List.length_append, List.length_singleton]

/-- Bits put after others that fit are appended to them. -/
theorem putBits_packed {bits : List Bool} (more : List Bool) {s : State}
    (hroom : s.opos + (bits.length + more.length) / 8 ≤ s.params.outCap) :
    putBits more (s.packed bits) = .ok (s.packed (bits ++ more)) := by
  induction more generalizing bits with
  | nil => rw [List.append_nil]; rfl
  | cons b more ih =>
    rw [List.length_cons] at hroom
    have hput := putBit_packed (bits := bits) b (s := s) (by omega)
    have hrest := ih (bits := bits ++ [b]) (by rw [List.length_append, List.length_singleton]; omega)
    rw [List.append_assoc, List.singleton_append] at hrest
    rw [← hrest, putBits, List.foldlM_cons, hput]
    rfl

/-- Bits put into an empty packer. -/
theorem putBits_of_empty_packer {bits : List Bool} {s : State} (hacc : s.acc = 0) (hn : s.nbits = 0)
    (hroom : s.opos + bits.length / 8 ≤ s.params.outCap) : putBits bits s = .ok (s.packed bits) := by
  have h := putBits_packed (bits := []) bits (s := s) (by rwa [List.length_nil, Nat.zero_add])
  rwa [State.packed_nil hacc hn, List.nil_append] at h

/-- Appending to an empty packer leaves it empty. -/
theorem State.pushAll_of_empty_packer (bs : List Byte) {s : State} (hacc : s.acc = 0) (hn : s.nbits = 0) :
    ({ s.pushAll bs with acc := 0, nbits := 0 } : State) = s.pushAll bs := by
  rw [State.pushAll_frame, ← hacc, ← hn]

/-- The flush completes the last byte with ones and empties the packer (R86). -/
theorem flushBits_packed {bits : List Bool} {s : State} (hacc : s.acc = 0) (hn : s.nbits = 0)
    (hroom : s.opos + (bits.length + 7) / 8 ≤ s.params.outCap) :
    flushBits (s.packed bits) = .ok (padBits bits, s.pushAll (packBits (padded bits))) := by
  obtain ⟨full, rest, m, rfl, hfull, hrest⟩ := exists_whole_bytes bits
  rw [List.length_append] at hroom
  have hpack := State.packed_append hfull hrest s
  by_cases hzero : rest.length = 0
  · have hpad : padBits (full ++ rest) = 0 := by rw [padBits, List.length_append]; omega
    obtain rfl := List.eq_nil_of_length_eq_zero hzero
    rw [flushBits_of_zero (by simp; omega), padded, hpad, hpack, List.replicate_zero, List.append_nil, List.append_nil]
    exact congrArg (fun t => Except.ok (0, t)) (State.pushAll_of_empty_packer (packBits full) hacc hn)
  · have hpad : padBits (full ++ rest) = 8 - rest.length := by rw [padBits, List.length_append]; omega
    have hbyte : packBits (padded (full ++ rest)) = packBits full ++ [padOnes (byteOfBits rest) rest.length] := by
      rw [padded, hpad, List.append_assoc, packBits_append hfull,
        packBits_of_length_eq (bits := rest ++ _) (by simp; omega), padOnes_byteOfBits hrest]
    have hempty := State.pushAll_of_empty_packer (packBits full ++ [padOnes (byteOfBits rest) rest.length]) hacc hn
    rw [State.pushAll_append] at hempty
    rw [flushBits_of_pos (by simp; omega) (by simp; omega), hpack, hpad, hbyte, State.pushAll_append]
    exact congrArg (fun t => Except.ok (8 - rest.length, t)) hempty

/-- Settles O30: what the packer appends is the padded bits cut into bytes. -/
theorem packedBitsReadBack : Obligations.PackedBitsReadBack := by
  intro s bits hacc hn hroom
  have hput : putBits bits s = .ok (s.packed bits) := putBits_of_empty_packer hacc hn (by omega)
  have hlen : (packBits (padded bits)).length = (bits.length + 7) / 8 := by
    rw [packBits_length, padded_length, Nat.mul_div_cancel_left _ (by decide)]
  refine ⟨s.pushAll (packBits (padded bits)), ?_, ?_, fun k hk => ?_, fun a ha => ?_⟩
  · rw [hput]
    exact flushBits_packed hacc hn hroom
  · rw [State.pushAll_frame, hlen]
  · obtain ⟨b, hb, hbit⟩ := getElem?_packBits (bits := padded bits) (k := k) (by rw [padded_length]; omega)
    refine ⟨b, ?_, hbit.trans (getD_padded hk)⟩
    rw [State.pushAll_read_add (by omega), hb]
  · rw [State.pushAll_read, hlen, if_neg (by omega)]

end Sys2Proof.Machine
end

section
/-! The contract of a command: every step answers and a command is one step of an idle block (R96, R240); `CLEAR` (R100), an
illegal word (R103) and an overlong input (R101) end before any engine runs. -/

namespace Sys2Proof.Machine

/-! ### Every step answers -/

theorem exec_answers (i : Instr) (s : State) : ∃ t, exec i s = .next t := by
  cases i <;> exact ⟨_, rfl⟩

theorem issue_answers (w : Word) (s : State) : ∃ t, issue w s = .next t := by
  unfold issue
  split
  · exact exec_answers _ s
  · exact ⟨_, rfl⟩

theorem hostAction_answers (a : HostAction) (s : State) : ∃ t, hostAction a s = .next t := by
  unfold hostAction
  split
  · exact issue_answers _ s
  all_goals exact ⟨_, rfl⟩

theorem hostStep_answers (s : State) : ∃ t, hostStep s = .next t := by
  unfold hostStep
  split
  · exact ⟨_, rfl⟩
  · exact hostAction_answers _ _

theorem runRecord_answers (fetched : Option Fetched) (pass : State → State) (s : State) :
    ∃ t, runRecord fetched pass s = .next t := by
  unfold runRecord
  split
  · exact ⟨_, rfl⟩
  · split
    · exact exec_answers _ (pass s)
    · exact ⟨_, rfl⟩

theorem headerInStep_answers (s : State) : ∃ t, headerInStep s = .next t := by
  unfold headerInStep
  split
  · exact runRecord_answers _ _ s
  · exact runRecord_answers _ _ s
  · split
    · exact runRecord_answers _ _ s
    · exact ⟨_, rfl⟩

theorem lzDecodeStep_answers (s : State) : ∃ t, lzDecodeStep s = .next t := by
  unfold lzDecodeStep
  split
  · exact runRecord_answers _ _ s
  · exact ⟨_, rfl⟩

theorem sequencerStep_answers (s : State) : ∃ t, sequencerStep s = .next t := by
  unfold sequencerStep
  cases s.phase
  case hHeaderIn => exact headerInStep_answers s
  case lDecode => exact lzDecodeStep_answers s
  all_goals exact ⟨_, rfl⟩

theorem step_answers (s : State) : ∃ t, step s = .next t := by
  unfold step
  split
  · exact hostStep_answers s
  · exact sequencerStep_answers s

/-! ### An idle block stays idle -/

/-- Every command ends idle (R96). -/
theorem exec_command_idle {i : Instr} {s t : State} (hi : i.isCommand = true) (h : exec i s = .next t) :
    t.phase = .idle := by
  obtain ⟨u, hu, hidle, -⟩ := commandsEndWithAStatusOfTheirOwn s i hi
  cases hu.symm.trans h
  exact hidle

theorem issue_idle {w : Word} {s t : State} (h : issue w s = .next t) : t.phase = .idle := by
  unfold issue at h
  split at h
  · next hd => exact exec_command_idle (isCommand_of_decodeCommand hd) h
  · cases h
    rfl

/-- A host action is a command, reset, or an access that leaves the phase alone. -/
theorem hostAction_idle {a : HostAction} {s t : State} (hp : s.phase = .idle) (h : hostAction a s = .next t) :
    t.phase = .idle := by
  cases a with
  | writeReg index w =>
    by_cases hi : index = 0
    · subst hi
      exact issue_idle h
    · rw [hostAction_writeReg hi, State.writeRegister_eq] at h
      cases h
      exact hp
  | readReg index => cases h; exact hp
  | writeIn addr b =>
    cases h
    rw [(State.hostWriteIn_eq s addr b).1]
    exact hp
  | readIn addr =>
    obtain ⟨b, n, hr⟩ := State.hostReadIn_frame s addr
    cases h
    rw [hr]
    exact hp
  | writeOut addr b => cases h; exact hp
  | readOut addr =>
    obtain ⟨b, n, hr⟩ := State.hostReadOut_frame s addr
    cases h
    rw [hr]
    exact hp
  | reset => cases h; rfl

/-- Settles O11: each branch of the step answers, and the step of an idle block is one host action. -/
theorem stepsAnswerAndCommandsAreAtomic : Obligations.StepsAnswerAndCommandsAreAtomic := by
  refine ⟨step_answers, fun s t hp hs => ?_⟩
  cases hh : s.host with
  | nil =>
    rw [step_of_no_host hp hh] at hs
    cases hs
    exact hp
  | cons a rest =>
    rw [step_of_host hp hh] at hs
    exact hostAction_idle (s := { s with host := rest }) hp hs

/-! ### Commands that end before an engine runs -/

/-- Settles O22: `CLEAR` is its prologue, and the block is idle after it. -/
theorem clearEmptiesAndKeeps : Obligations.ClearEmptiesAndKeeps := by
  intro s
  have tables : ∀ v, (s.start 0).prologue.freq.get v = 0 ∧ (s.start 0).prologue.code.get v = [] := fun v =>
    ⟨Table.get_replicate 0 v, Table.get_replicate [] v⟩
  exact ⟨(s.start 0).prologue.setPhase .idle, rfl, rfl, rfl, rfl, rfl, rfl, tables, rfl, rfl, rfl, rfl, rfl, rfl, rfl, rfl,
    rfl, rfl, rfl, rfl, rfl, rfl, rfl, rfl, rfl, exec_kept (i := .clear) rfl, rfl⟩

/-- Every word but the five is rejected (R62, R63). -/
theorem decodeCommand_of_illegal {w : Word} (h0 : w ≠ 0) (h1 : w ≠ 1) (h2 : w ≠ 2) (h3 : w ≠ 3) (h4 : w ≠ 4) :
    ∃ r, decodeCommand w = .error r := by
  cases hd : decodeCommand w with
  | error r => exact ⟨r, rfl⟩
  | ok i =>
    have hw : encode .little i = .command w := encode_of_decodeCommand hd .little
    have hc : i.isCommand = true := isCommand_of_decodeCommand hd
    cases i <;> cases hc <;> cases hw <;> contradiction

theorem issue_of_illegal {w : Word} {r : DecodeRefusal} (h : decodeCommand w = .error r) (s : State) :
    issue w s = .next (illegalCommand w s) := by
  simp only [issue, h]

/-- Settles O23: the write issues a word the decoder rejects, and what follows is error entry after the prologue. -/
theorem illegalWordsEndInIllegalCommand : Obligations.IllegalWordsEndInIllegalCommand := by
  intro s rest w hp hh h0 h1 h2 h3 h4
  obtain ⟨r, hr⟩ := decodeCommand_of_illegal h0 h1 h2 h3 h4
  have hi : issue w { s with host := rest } = .next (illegalCommand w { s with host := rest }) := issue_of_illegal hr _
  exact ⟨_, (step_of_host hp hh).trans hi, rfl, rfl, rfl, issue_kept hi, rfl⟩

/-- Each data command is its engine in the frame of R98. -/
theorem exec_data_eq {i : Instr} (h : i.isData = true) :
    ∃ w engine, ∀ s, exec i s = .next (dataCommand w engine s) := by
  cases i <;> cases h <;> exact ⟨_, _, fun _ => rfl⟩

/-- Settles O24: the input check comes before the engine, whichever it is. -/
theorem overlongInputIsAConfigError : Obligations.OverlongInputIsAConfigError := by
  intro s i hi hlen
  obtain ⟨w, engine, heq⟩ := exec_data_eq hi
  have he : exec i s = .next (((s.start w).prologue.setPhase .check).errorEntry .config) := by
    rw [heq, dataCommand_of_overlong w engine hlen]
  refine ⟨⟨_, he, rfl, rfl, rfl, exec_kept he⟩, fun t ht => ?_⟩
  cases he.symm.trans ht
  rfl

end Sys2Proof.Machine
end

section
/-! O59: `LZ_TRIPLET` traps where its record is refused (R192) or does not fit (R207). -/

namespace Sys2Proof.Machine

/-- A copy that succeeds has appended as many bytes as it is long (R193). -/
theorem copyBack_opos {off k : Nat} {s t : State} (h : copyBack off k s = .ok t) : t.opos = s.opos + k := by
  induction k generalizing s with
  | zero => cases h; rfl
  | succ k ih =>
    obtain ⟨u, hu, h⟩ := Run.bind_ok.mp h
    obtain ⟨-, rfl⟩ := outByte_ok_iff.mp hu
    rw [ih h, State.push_opos]
    omega

/-- A triplet that succeeds has appended its copy and its literal (R193, R194). -/
theorem expandTriplet_opos {off len : Int} {l : Byte} {s t : State} (h : expandTriplet off l len s = .ok t) :
    t.opos = s.opos + len.toNat + 1 := by
  rcases expandTriplet_spec off l len s with ⟨-, he⟩ | ⟨-, he⟩ <;> rw [he] at h
  · cases h
  · obtain ⟨u, hu, h⟩ := Run.bind_ok.mp h
    obtain ⟨-, rfl⟩ := outByte_ok_iff.mp h
    rw [State.push_opos, copyBack_opos hu]

/-- A triplet that is not refused and does not fit raises `CapacityError`, with what fits appended (R207). -/
theorem expandTriplet_overfull {off len : Int} {l : Byte} {s : State} (hok : tripletBad ⟨off, l, len⟩ s.opos = false)
    (hin : s.opos ≤ s.params.outCap) (hfull : s.params.outCap < s.opos + len.toNat + 1) :
    ∃ bs, expandTriplet off l len s = .error (.capacity, s.pushAll bs) := by
  have hemits : Emits s (expandTriplet off l len s) := by
    rcases expandTriplet_spec off l len s with ⟨hbad, -⟩ | ⟨-, he⟩
    · exact absurd (hok.symm.trans hbad) Bool.false_ne_true
    · rw [he]
      exact Emits.bind (copyBack_emits _ _ s) fun t => outByte_emits l t
  have hworks : Works s (expandTriplet off l len s) := expandTriplet_works off l len s
  cases hr : expandTriplet off l len s <;> rw [hr] at hemits hworks
  case error e =>
    obtain ⟨e, t⟩ := e
    obtain ⟨rfl, bs, rfl⟩ := hemits
    exact ⟨bs, rfl⟩
  case ok t =>
    obtain ⟨bs, hb⟩ := hworks.appended
    have hfits : s.opos + bs.length ≤ s.params.outCap := hb.fits hin
    have hlen : t.opos = s.opos + len.toNat + 1 := expandTriplet_opos hr
    rw [hb.opos] at hlen
    omega

theorem exec_lzTriplet (o : Word) (l : Byte) (n : Word) (s : State) :
    exec (.lzTriplet o l n) s = .next (settle (expandTriplet o.toInt l n.toInt s)) := rfl

/-- Settles O59: a refused record raises before anything is stored, one that does not fit only appends. -/
theorem tripletRecordTraps : Obligations.TripletRecordTraps := by
  constructor
  · intro s o l n hbad
    have hb : tripletBad ⟨o.toInt, l, n.toInt⟩ s.opos = true := decide_eq_true hbad
    rcases expandTriplet_spec o.toInt l n.toInt s with ⟨-, he⟩ | ⟨hok, -⟩
    · exact traps_of_refused (exec_lzTriplet o l n s) he
    · exact absurd (hok.symm.trans hb) Bool.false_ne_true
  · intro s o l n ho hn hoff hin hfull
    have hno : o.toInt = o.toNat := toInt_of_nonneg ho
    have hnn : n.toInt = n.toNat := toInt_of_nonneg hn
    have hok : tripletBad ⟨o.toInt, l, n.toInt⟩ s.opos = false := by
      simp only [tripletBad, decide_eq_false_iff_not]
      omega
    obtain ⟨bs, he⟩ := expandTriplet_overfull hok hin (by omega)
    have hexec : exec (.lzTriplet o l n) s = .next ((s.pushAll bs).enterError .capacity) := by
      rw [exec_lzTriplet, he, settle_error]
    refine traps_of_enterError hexec fun a ha => ?_
    rw [State.pushAll_read, if_neg (by omega)]

end Sys2Proof.Machine
end

section
/-! Two blocks that agree on what an engine may look at: they still do after each operation of an engine, or both raise the
same error. -/

namespace Sys2Proof.Machine

/-! ### Two blocks an engine cannot tell apart -/

/-- The block without what its engines do not use: the configuration registers, the buffers, the host's side and, before
`CheckWindows()` has latched them, the windows (R171). -/
def State.engineView (latched : Bool) (s : State) : State :=
  { s with
    cfgHist := 0, cfgPreview := 0, inBuf := [], outBuf := [], host := [], regRead := 0, byteRead := 0, epoch := 0
    freeReads := 0, hMax := if latched then s.hMax else 0, pMax := if latched then s.pMax else 0 }

/-- The two blocks have the same transient state, the same input and the same output so far. -/
structure Agree (latched : Bool) (s u : State) : Prop where
  view : s.engineView latched = u.engineView latched
  input : s.input = u.input
  written : ∀ a, a < s.opos → s.outByte a = u.outByte a

/-- How a piece of an engine ends in both: they agree, or the errors are the same. -/
def SameEnd (latched : Bool) : Run State → Run State → Prop
  | .ok s, .ok u => Agree latched s u
  | .error (e, _), .error (f, _) => e = f
  | _, _ => False

section

variable {l m : Bool} {s u : State}

/-- What an engine can look at is alike in both. -/
theorem Agree.field {α : Type} (h : Agree l s u) (f : State → α)
    (hf : ∀ s, f (s.engineView l) = f s := by exact fun _ => rfl) : f s = f u := by
  rw [← hf s, ← hf u, h.view]

theorem Agree.params (h : Agree l s u) : s.params = u.params := h.field (·.params)
theorem Agree.status (h : Agree l s u) : s.status = u.status := h.field (·.status)
theorem Agree.inLen (h : Agree l s u) : s.inLen = u.inLen := h.field (·.inLen)
theorem Agree.opos (h : Agree l s u) : s.opos = u.opos := h.field (·.opos)

/-- An update of transient fields by transient fields is made alike in both. -/
theorem Agree.update (h : Agree l s u) (f : State → State)
    (hview : ∀ s, (f s).engineView l = f (s.engineView l) := by exact fun _ => rfl)
    (hin : ∀ s, (f s).input = s.input := by exact fun _ => rfl)
    (hopos : ∀ s, (f s).opos = s.opos := by exact fun _ => rfl)
    (hout : ∀ s a, (f s).outByte a = s.outByte a := by exact fun _ _ => rfl) : Agree l (f s) (f u) where
  view := by rw [hview, hview, h.view]
  input := by rw [hin, hin, h.input]
  written := fun a ha => by
    rw [hout, hout]
    exact h.written a (hopos s ▸ ha)

/-- A byte of the input reads alike (R16). -/
theorem Agree.inByte (h : Agree l s u) {a b : Nat} (hab : a = b) (ha : a < s.inLen.toNat) :
    s.inByte a = u.inByte b := by
  subst hab
  have hu : a < u.inLen.toNat := h.inLen ▸ ha
  have hget : s.input[a]? = u.input[a]? := by rw [h.input]
  simpa [State.input, ha, hu] using hget

/-- An int32 of the input reads alike (R83). -/
theorem Agree.int32At (h : Agree l s u) {a : Nat} (ha : a + 4 ≤ s.inLen.toNat) : int32At s a = int32At u a := by
  rw [Machine.int32At, Machine.int32At, h.params, h.inByte (a := a) rfl (by omega), h.inByte (a := a + 1) rfl (by omega),
    h.inByte (a := a + 2) rfl (by omega), h.inByte (a := a + 3) rfl (by omega)]

/-- The same byte appended (R81). -/
theorem Agree.push (h : Agree l s u) (b : Byte) : Agree l (s.push b) (u.push b) where
  view := congrArg (fun v : State => { v with opos := v.opos + 1 }) h.view
  input := h.input
  written := fun a ha => by
    simp only [State.outByte, State.push_outBuf, State.push_epoch, Memory.read?_write, ← h.opos]
    split
    · rfl
    · next hne =>
      rw [State.push_opos] at ha
      exact h.written a (by omega)

/-! ### Pieces in sequence -/

theorem SameEnd.bind {x y : Run State} {f g : State → Run State} (hx : SameEnd l x y)
    (hf : ∀ s u, x = .ok s → Agree l s u → SameEnd m (f s) (g u)) : SameEnd m (x >>= f) (y >>= g) := by
  cases x <;> cases y
  case ok.ok s u => exact hf s u rfl hx
  case error.error => exact hx
  all_goals exact hx.elim

theorem SameEnd.foldlM {α : Type} {f : State → α → Run State} (hf : ∀ s u a, Agree l s u → SameEnd l (f s a) (f u a))
    {as bs : List α} (hab : as = bs) (h : Agree l s u) : SameEnd l (as.foldlM f s) (bs.foldlM f u) := by
  subst hab
  induction as generalizing s u with
  | nil => exact h
  | cons a as ih => exact (hf s u a h).bind fun _ _ _ h => ih h

theorem SameEnd.readInt32_bind {f g : Int → Run State} (h : Agree l s u) {a b : Nat} (hab : a = b)
    (hf : ∀ n, a + 4 ≤ s.inLen.toNat → SameEnd l (f n) (g n)) :
    SameEnd l (readInt32 a s >>= f) (readInt32 b u >>= g) := by
  subst hab
  rcases Nat.lt_or_ge s.inLen.toNat (a + 4) with ha | ha
  · rw [readInt32_error ha, readInt32_error (h.inLen ▸ ha)]
    rfl
  · rw [readInt32_ok ha, readInt32_ok (h.inLen ▸ ha), h.int32At ha]
    exact hf _ ha

theorem SameEnd.ite {c d : Prop} [Decidable c] [Decidable d] {x x' y y' : Run State} (hcd : c ↔ d)
    (hx : c → SameEnd l x x') (hy : ¬ c → SameEnd l y y') :
    SameEnd l (if c then x else y) (if d then x' else y') := by
  by_cases hc : c
  · rw [if_pos hc, if_pos (hcd.mp hc)]
    exact hx hc
  · rw [if_neg hc, if_neg (mt hcd.mpr hc)]
    exact hy hc

/-! ### The shared operations and the bit packer -/

theorem outByte_same (h : Agree l s u) {b c : Byte} (hbc : b = c) : SameEnd l (outByte b s) (outByte c u) := by
  subst hbc
  by_cases hs : s.opos = s.params.outCap
  · have hu : u.opos = u.params.outCap := by rw [← h.opos, ← h.params, hs]
    rw [outByte_error_iff.mpr ⟨hs, rfl⟩, outByte_error_iff.mpr ⟨hu, rfl⟩]
    rfl
  · have hu : u.opos ≠ u.params.outCap := by rwa [← h.opos, ← h.params]
    rw [outByte_ok_iff.mpr ⟨hs, rfl⟩, outByte_ok_iff.mpr ⟨hu, rfl⟩]
    exact h.push b

theorem writeInt32_same (h : Agree l s u) {v w : Int} (hvw : v = w) : SameEnd l (writeInt32 v s) (writeInt32 w u) := by
  have hbytes : int32Bytes s.params.endian (BitVec.ofInt 32 v) = int32Bytes u.params.endian (BitVec.ofInt 32 w) := by
    rw [hvw, h.params]
  exact SameEnd.foldlM (fun _ _ b h => outByte_same h (Eq.refl b)) hbytes h

/-- Emitting the partial byte and emptying the packer (R85, R86). -/
theorem packByte_same (h : Agree l s u) {b c : Byte} (hbc : b = c) {f g : State → Run State}
    (hf : ∀ s u, Agree l s u → SameEnd l (f s) (g u)) :
    SameEnd l (outByte b s >>= fun t => f { t with acc := 0, nbits := 0 })
      (outByte c u >>= fun t => g { t with acc := 0, nbits := 0 }) :=
  (outByte_same h hbc).bind fun _ _ _ h => hf _ _ (h.update fun v => { v with acc := 0, nbits := 0 })

theorem putBit_same (h : Agree l s u) (b : Bool) : SameEnd l (putBit b s) (putBit b u) := by
  have hbit := h.update fun v => { v with acc := setBit v.acc v.nbits b, nbits := v.nbits + 1 }
  exact .ite (by rw [hbit.field (·.nbits)]) (fun _ => packByte_same hbit (hbit.field (·.acc)) fun _ _ h => h)
    fun _ => hbit

/-- What runs after a flush goes on with the same number of padding bits (R86). -/
theorem SameEnd.flushBits_bind {f g : Nat × State → Run State} (h : Agree l s u)
    (hf : ∀ n s u, Agree l s u → SameEnd l (f (n, s)) (g (n, u))) : SameEnd l (flushBits s >>= f) (flushBits u >>= g) := by
  have hn : s.nbits = u.nbits := h.field (·.nbits)
  have hbyte : padOnes s.acc s.nbits = padOnes u.acc u.nbits := h.field fun v => padOnes v.acc v.nbits
  simp only [flushBits, hn]
  split
  · exact hf 0 s u h
  · rw [bind_assoc, bind_assoc]
    exact packByte_same h (hn ▸ hbyte) fun _ _ h => hf (8 - u.nbits) _ _ h

end

end Sys2Proof.Machine
end

section
/-! O26: the result of a command depends on its operands only (R106). Each engine, run in two blocks that agree, ends alike:
it reads the input below `IN_LEN`, the bytes it has written, and transient state. -/

namespace Sys2Proof.Machine

section

variable {l : Bool} {s u : State}

/-! ### The Huffman engine -/

/-- The counting loop reads the input and no more (R116). -/
theorem countPhase_same (h : Agree l s u) : Agree l (countPhase s) (countPhase u) := by
  simp only [countPhase, h.input]
  exact h.update fun v => { v with
    phase := .hCount, freq := countBytes v.freq u.input, nsym := (symbols (countBytes v.freq u.input)).length }

theorem emitEntry_same (h : Agree l s u) (v : Byte) : SameEnd l (emitEntry s v) (emitEntry u v) :=
  (outByte_same h rfl).bind fun _ _ _ h => writeInt32_same h (h.field fun t => (t.freq.get v : Int))

theorem headerOutPhase_same (h : Agree l s u) : SameEnd l (headerOutPhase s) (headerOutPhase u) :=
  (writeInt32_same (h.update (·.setPhase .hHeaderOut)) (h.field fun t => (t.nsym : Int))).bind fun _ _ _ h =>
    SameEnd.foldlM (fun _ _ v h => emitEntry_same h v) (h.field fun t => symbols t.freq) h

theorem encodeByte_same (h : Agree l s u) (v : Byte) : SameEnd l (encodeByte s v) (encodeByte u v) :=
  (SameEnd.foldlM (fun _ _ b h => putBit_same h b) (h.field fun t => t.code.get v) h).bind fun _ _ _ h =>
    h.update fun t => { t with ipos := t.ipos + 1 }

theorem encodePhase_same (h : Agree l s u) : SameEnd l (encodePhase s) (encodePhase u) :=
  (SameEnd.foldlM (fun _ _ v h => encodeByte_same h v) h.input (h.update (·.setPhase .hEncode))).bind fun _ _ _ h =>
    .flushBits_bind h fun _ _ _ h => outByte_same h rfl

theorem hufPackEngine_same (h : Agree l s u) : SameEnd l (hufPackEngine s) (hufPackEngine u) :=
  (headerOutPhase_same (((countPhase_same h).update buildPhase).update codesPhase)).bind fun _ _ _ h =>
    encodePhase_same h

theorem takeSymbolCount_same (h : Agree l s u) (n : Int) : SameEnd l (takeSymbolCount n s) (takeSymbolCount n u) :=
  .ite Iff.rfl (fun _ => rfl) fun _ => .ite (by rw [h.inLen]) (fun _ => rfl) fun _ => h.update fun v => { v with
    nsym := n.toNat, pbase := 4 + 5 * n.toNat, pbytes := v.inLen.toNat - 1 - (4 + 5 * n.toNat)
    reader := .paddingCount }

theorem takePaddingCount_same (h : Agree l s u) {p q : Byte} (hpq : p = q) :
    SameEnd l (takePaddingCount p s) (takePaddingCount q u) := by
  subst hpq
  exact .ite Iff.rfl (fun _ => rfl) fun _ => .ite (by rw [h.field (·.pbytes)]) (fun _ => rfl) fun _ =>
    h.update fun v => { v with pad := p.toNat, useful := v.pbytes * 8 - p.toNat, reader := .tableEntries }

theorem takeTableEntry_same (h : Agree l s u) {v w : Byte} (hvw : v = w) (c : Int) :
    SameEnd l (takeTableEntry v c s) (takeTableEntry w c u) := by
  subst hvw
  exact .ite (by rw [h.field (·.freq.get v)]) (fun _ => rfl) fun _ => .ite Iff.rfl (fun _ => rfl) fun _ =>
    h.update fun t => { t with freq := t.freq.set v c.toNat }

/-- The last byte is read only of a container that has one (R151, R153). -/
theorem parseHeader_same (h : Agree l s u) : SameEnd l (parseHeader s) (parseHeader u) := by
  refine .readInt32_bind h rfl fun n hlen =>
    (takeSymbolCount_same (h.update passSymbolCount) n).bind fun t v ht h => ?_
  have hl : t.inLen.toNat = s.inLen.toNat := by rw [takeSymbolCount_ok ht, passSymbolCount]
  exact takePaddingCount_same h (h.inByte (by rw [h.inLen]) (by omega))

theorem loadEntry_same (h : Agree l s u) : SameEnd l (loadEntry s) (loadEntry u) := by
  have hi : s.ipos = u.ipos := h.field (·.ipos)
  exact .readInt32_bind h (congrArg (· + 1) hi) fun c hlen =>
    takeTableEntry_same (h.update passTableEntry) (h.inByte hi (by omega)) c

theorem loadTable_same (h : Agree l s u) {j k : Nat} (hjk : j = k) : SameEnd l (loadTable j s) (loadTable k u) := by
  subst hjk
  induction j generalizing s u with
  | zero => exact h
  | succ j ih => exact (loadEntry_same h).bind fun _ _ _ h => ih h

theorem headerInPhase_same (h : Agree l s u) : SameEnd l (headerInPhase s) (headerInPhase u) :=
  (parseHeader_same (h.update (·.setPhase .hHeaderIn))).bind fun _ _ _ h => loadTable_same h (h.field (·.nsym))

/-- The next `k` bits of the payload are in the input (R153, R155). -/
def State.payloadHas (k : Nat) (s : State) : Prop := 8 * s.pbase + s.bitpos + k ≤ 8 * s.inLen.toNat

/-- The state after the next payload bit has been read into the candidate (R155). -/
def State.takeBit (s : State) : State :=
  { s with cand := s.cand ++ [getBit s s.pbase s.bitpos], bitpos := s.bitpos + 1 }

theorem decodeBit_of_match {v : Byte} (h : matchCode s.takeBit.code s.takeBit.cand = some v) :
    decodeBit s = outByte v s.takeBit >>= fun t => .ok { t with cand := [] } := by
  rw [State.takeBit] at h ⊢
  simp only [decodeBit, h]

theorem decodeBit_of_no_match (h : matchCode s.takeBit.code s.takeBit.cand = none) :
    decodeBit s = if s.takeBit.cand.length = 255 then raise .decode s.takeBit else .ok s.takeBit := by
  rw [State.takeBit] at h ⊢
  simp only [decodeBit, h]

/-- One turn of the decode loop keeps the place of the payload and moves past one bit (R155). -/
theorem decodeBit_payloadHas {k : Nat} {t : State} (hk : s.payloadHas (k + 1)) (h : decodeBit s = .ok t) :
    t.payloadHas k := by
  have hpast : s.takeBit.payloadHas k := by
    simp only [State.payloadHas, State.takeBit] at hk ⊢
    omega
  cases hm : matchCode s.takeBit.code s.takeBit.cand with
  | some v =>
    rw [decodeBit_of_match hm] at h
    obtain ⟨w, hw, h⟩ := Run.bind_ok.mp h
    obtain ⟨-, rfl⟩ := outByte_ok_iff.mp hw
    cases h
    exact hpast
  | none =>
    rw [decodeBit_of_no_match hm] at h
    split at h <;> cases h
    exact hpast

theorem takeBit_same (h : Agree l s u) (hk : s.payloadHas 1) : Agree l s.takeBit u.takeBit := by
  have hplace : s.pbase + s.bitpos / 8 = u.pbase + u.bitpos / 8 := h.field fun v => v.pbase + v.bitpos / 8
  have hbit : getBit s s.pbase s.bitpos = getBit u u.pbase u.bitpos := by
    rw [State.payloadHas] at hk
    rw [getBit, getBit, h.inByte hplace (by omega), h.field (·.bitpos)]
  rw [State.takeBit, State.takeBit, hbit]
  exact h.update fun v => { v with cand := v.cand ++ [getBit u u.pbase u.bitpos], bitpos := v.bitpos + 1 }

theorem decodeBit_same (h : Agree l s u) (hk : s.payloadHas 1) : SameEnd l (decodeBit s) (decodeBit u) := by
  have hread : Agree l s.takeBit u.takeBit := takeBit_same h hk
  have hmatch := hread.field fun v => matchCode v.code v.cand
  cases hm : matchCode s.takeBit.code s.takeBit.cand with
  | some v =>
    rw [decodeBit_of_match hm, decodeBit_of_match (hmatch.symm.trans hm)]
    exact (outByte_same hread rfl).bind fun _ _ _ h => h.update fun v => { v with cand := [] }
  | none =>
    rw [decodeBit_of_no_match hm, decodeBit_of_no_match (hmatch.symm.trans hm)]
    exact .ite (by rw [hread.field (·.cand)]) (fun _ => rfl) fun _ => hread

theorem decodeBits_same (h : Agree l s u) {j k : Nat} (hjk : j = k) (hj : s.payloadHas j) :
    SameEnd l (decodeBits j s) (decodeBits k u) := by
  subst hjk
  induction j generalizing s u with
  | zero => exact .ite (by rw [h.field (·.cand)]) (fun _ => h) fun _ => rfl
  | succ j ih =>
    have hone : s.payloadHas 1 := by
      rw [State.payloadHas] at hj ⊢
      omega
    exact (decodeBit_same h hone).bind fun _ _ ht h => ih h (decodeBit_payloadHas hj ht)

/-- The payload that the header and the trailer name lies in the input (R151, R153). -/
def State.payloadFits (s : State) : Prop := 8 * s.pbase + s.useful ≤ 8 * s.inLen.toNat

theorem decodePhase_same (h : Agree l s u) (hs : s.payloadFits) : SameEnd l (decodePhase s) (decodePhase u) :=
  decodeBits_same (h.update fun v => { v with phase := .hDecode, cand := [], bitpos := 0 }) (h.field (·.useful)) hs

theorem parseHeader_payloadFits {t : State} (h : parseHeader s = .ok t) : t.payloadFits := by
  obtain ⟨n, -, h⟩ := Run.bind_ok.mp h
  obtain ⟨v, hv, h⟩ := Run.bind_ok.mp h
  rcases takeSymbolCount_spec n (passSymbolCount s) with he | ⟨-, -, hroom, -⟩
  · cases he.symm.trans hv
  · rw [takePaddingCount_ok h, takeSymbolCount_ok hv, State.payloadFits]
    dsimp only
    omega

theorem loadTable_payloadFits {k : Nat} {t : State} (hs : s.payloadFits) (h : loadTable k s = .ok t) :
    t.payloadFits := by
  induction k generalizing s with
  | zero => cases h; exact hs
  | succ k ih =>
    obtain ⟨v, hv, h⟩ := Run.bind_ok.mp h
    obtain ⟨freq, rfl⟩ := loadEntry_ok hv
    exact ih (s := { s with freq := freq, ipos := s.ipos + 5 }) hs h

theorem headerInPhase_payloadFits {t : State} (h : headerInPhase s = .ok t) : t.payloadFits := by
  obtain ⟨v, hv, h⟩ := Run.bind_ok.mp h
  exact loadTable_payloadFits (parseHeader_payloadFits hv) h

theorem hufUnpackEngine_same (h : Agree l s u) : SameEnd l (hufUnpackEngine s) (hufUnpackEngine u) := by
  refine (headerInPhase_same h).bind fun t _ ht h => ?_
  have hfits : t.payloadFits := headerInPhase_payloadFits ht
  exact decodePhase_same ((h.update buildPhase).update codesPhase) hfits

/-! ### The LZ77 engine -/

/-- Legal windows are latched alike from configuration registers that hold the same (R171). -/
theorem checkWindows_same (h : Agree l s u) (hhist : s.cfgHist = u.cfgHist) (hprev : s.cfgPreview = u.cfgPreview) :
    SameEnd true (checkWindows s) (checkWindows u) := by
  refine .ite (by rw [hprev, h.params]) (fun _ => rfl) fun _ => .ite (by rw [hhist, h.params]) (fun _ => rfl) fun _ => ?_
  rw [hhist, hprev]
  exact ⟨congrArg (fun v : State => { v with hMax := u.cfgHist.toNat, pMax := u.cfgPreview.toNat }) h.view, h.input,
    h.written⟩

theorem refill_same (h : Agree true s u) : Agree true (refill s) (refill u) := by
  rw [refill_spec, refill_spec, h.input]
  exact h.update fun v => { v with
    look := v.look ++ (u.input.drop v.ipos).take (v.pMax - v.look.length)
    ipos := v.ipos + min (v.pMax - v.look.length) (v.inLen.toNat - v.ipos) }

/-- The search and the slide look at the windows only (R174, R179). -/
theorem encodeTriplet_same (h : Agree true s u) : SameEnd true (encodeTriplet s) (encodeTriplet u) := by
  have hbest : Agree true (searchStep s) (searchStep u) := h.update searchStep
  have hslide := hbest.update fun v => slide (v.bestLen + 1) v
  exact (writeInt32_same hslide (hbest.field fun v => (v.bestOff : Int))).bind fun _ _ _ h =>
    (outByte_same h (hbest.field (·.bestLit))).bind fun _ _ _ h =>
      writeInt32_same h (hbest.field fun v => (v.bestLen : Int))

theorem lzPackLoop_same (h : Agree true s u) {j k : Nat} (hjk : j = k) :
    SameEnd true (lzPackLoop j s) (lzPackLoop k u) := by
  subst hjk
  induction j generalizing s u with
  | zero => exact h
  | succ j ih =>
    have hr : Agree true (refill s) (refill u) := refill_same h
    exact .ite (by rw [hr.field (·.look)]) (fun _ => hr) fun _ => (encodeTriplet_same hr).bind fun _ _ _ h => ih h

theorem lzPackEngine_same (h : Agree l s u) (hhist : s.cfgHist = u.cfgHist) (hprev : s.cfgPreview = u.cfgPreview) :
    SameEnd true (lzPackEngine s) (lzPackEngine u) :=
  (checkWindows_same h hhist hprev).bind fun _ _ _ h =>
    lzPackLoop_same (h.update (·.setPhase .lEncode)) (by rw [h.inLen])

/-- A copy reads bytes this command has written, and no others (R193). -/
theorem copyBack_same (h : Agree l s u) {off k : Nat} (hoff : 0 < k → 1 ≤ off ∧ off ≤ s.opos) :
    SameEnd l (copyBack off k s) (copyBack off k u) := by
  induction k generalizing s u with
  | zero => exact h
  | succ k ih =>
    obtain ⟨hlow, hin⟩ := hoff k.succ_pos
    have hbyte : s.outByte (s.opos - off) = u.outByte (u.opos - off) := by
      rw [← h.opos]
      exact h.written _ (by omega)
    refine (outByte_same h hbyte).bind fun t v ht h => ih h fun _ => ?_
    obtain ⟨-, rfl⟩ := outByte_ok_iff.mp ht
    rw [State.push_opos]
    omega

/-- The check of a triplet keeps its copy inside the decoded output (R192). -/
theorem expandTriplet_same (h : Agree l s u) {b c : Byte} (hbc : b = c) (off len : Int) :
    SameEnd l (expandTriplet off b len s) (expandTriplet off c len u) :=
  .ite Iff.rfl (fun _ => rfl) fun _ => .ite (by rw [h.opos]) (fun _ => rfl) fun _ =>
    (copyBack_same h (by omega)).bind fun _ _ _ h => outByte_same h hbc

theorem decodeOneTriplet_same (h : Agree l s u) : SameEnd l (decodeOneTriplet s) (decodeOneTriplet u) := by
  have hi : s.ipos = u.ipos := h.field (·.ipos)
  exact .readInt32_bind h hi fun off _ => .readInt32_bind h (congrArg (· + 5) hi) fun len hlen =>
    expandTriplet_same (h.update passTriplet) (h.inByte (congrArg (· + 4) hi) (by omega)) off len

theorem lzUnpackLoop_same (h : Agree l s u) {j k : Nat} (hjk : j = k) :
    SameEnd l (lzUnpackLoop j s) (lzUnpackLoop k u) := by
  subst hjk
  induction j generalizing s u with
  | zero => exact h
  | succ j ih => exact (decodeOneTriplet_same h).bind fun _ _ _ h => ih h

theorem checkStreamLength_same (h : Agree l s u) : SameEnd l (checkStreamLength s) (checkStreamLength u) :=
  .ite (by rw [h.inLen]) (fun _ => rfl) fun _ => h.update (·.setPhase .lDecode)

theorem lzUnpackEngine_same (h : Agree l s u) : SameEnd l (lzUnpackEngine s) (lzUnpackEngine u) :=
  (checkStreamLength_same h).bind fun _ _ _ h =>
    lzUnpackLoop_same (h.update fun v => { v with ipos := 0 }) (by rw [h.inLen])

end

/-! ### The end of a command -/

/-- The two blocks show the host the same result (R106). -/
def SameResult (t v : State) : Prop := t.status = v.status ∧ t.outLen = v.outLen ∧ t.output = v.output

/-- The epilogue shows the bytes written, error entry none (R99, R204). -/
theorem SameEnd.complete {l : Bool} {x y : Run State} (h : SameEnd l x y) : SameResult (complete x) (complete y) := by
  cases x <;> cases y
  case error.error e f =>
    have he : e.1 = f.1 := h
    exact ⟨congrArg statusOfError he, rfl, rfl⟩
  case ok.ok s u =>
    have ha : Agree l s u := h
    have hlen : s.epilogue.outLen = u.epilogue.outLen := congrArg (BitVec.ofNat 32) ha.opos
    refine ⟨congrArg setDone ha.status, hlen, ?_⟩
    simp only [complete_ok, State.output, ← hlen]
    refine List.map_congr_left fun a hmem => ha.written a ?_
    have hle : s.epilogue.outLen.toNat ≤ s.opos := Nat.mod_le s.opos (2 ^ 32)
    exact (List.mem_range.mp hmem).trans_le hle
  all_goals exact h.elim

/-- The prologue leaves two blocks with the same operands alike (R97). -/
theorem issued_agree (w : Word) {s u : State} (hp : s.params = u.params) (hl : s.inLen = u.inLen)
    (hi : s.input = u.input) : Agree false (s.start w).prologue (u.start w).prologue where
  view := by simp only [State.engineView, State.prologue, State.start, hp, hl, Bool.false_eq_true, if_false]
  input := hi
  written := fun a ha => absurd ha a.not_lt_zero

/-- A data command shows the same result if its engine ends alike from what the prologue and the input check leave. -/
theorem dataCommand_same {l : Bool} {engine : State → Run State} (w : Word) {s u : State} (hp : s.params = u.params)
    (hl : s.inLen = u.inLen) (hi : s.input = u.input)
    (he : Agree false ((s.start w).prologue.setPhase .check) ((u.start w).prologue.setPhase .check) →
      SameEnd l (engine ((s.start w).prologue.setPhase .check)) (engine ((u.start w).prologue.setPhase .check))) :
    SameResult (dataCommand w engine s) (dataCommand w engine u) := by
  rcases Nat.lt_or_ge s.params.inCap s.inLen.toNat with h | h
  · rw [dataCommand_of_overlong w engine h, dataCommand_of_overlong w engine (hp ▸ hl ▸ h)]
    exact ⟨rfl, rfl, rfl⟩
  · rw [dataCommand_of_fits w engine h, dataCommand_of_fits w engine (hp ▸ hl ▸ h)]
    exact (he ((issued_agree w hp hl hi).update (·.setPhase .check))).complete

/-- Settles O26: the engines end alike, from the empty transient state the prologue leaves. -/
theorem resultDependsOnTheOperandsOnly : Obligations.ResultDependsOnTheOperandsOnly := by
  intro s u i hc hp hl hi hwin
  cases i <;> cases hc
  case clear => exact ⟨_, _, rfl, rfl, rfl, rfl, rfl⟩
  case hufPack => exact ⟨_, _, rfl, rfl, dataCommand_same _ hp hl hi hufPackEngine_same⟩
  case hufUnpack => exact ⟨_, _, rfl, rfl, dataCommand_same _ hp hl hi hufUnpackEngine_same⟩
  case lzPack =>
    obtain ⟨hhist, hprev⟩ := hwin rfl
    exact ⟨_, _, rfl, rfl, dataCommand_same _ hp hl hi fun h => lzPackEngine_same h hhist hprev⟩
  case lzUnpack => exact ⟨_, _, rfl, rfl, dataCommand_same _ hp hl hi lzUnpackEngine_same⟩

end Sys2Proof.Machine
end

section
/-! O31: the frequency count (R116, R117). -/

namespace Sys2Proof.Machine

/-- The byte values stand in ascending order. -/
theorem allBytes_ascending : allBytes.Pairwise fun v w => v.toNat < w.toNat := by
  refine List.pairwise_map.mpr (List.pairwise_lt_range.imp_of_mem fun ha hb hlt => ?_)
  rw [List.mem_range] at ha hb
  rwa [BitVec.toNat_ofNat, BitVec.toNat_ofNat, Nat.mod_eq_of_lt ha, Nat.mod_eq_of_lt hb]

theorem symbols_ascending (freq : Table Nat) : (symbols freq).Pairwise fun v w => v.toNat < w.toNat :=
  allBytes_ascending.filter _

/-- Settles O31, from the counting loop's count and the ascending byte values. -/
theorem frequencyCountCountsOccurrences : Obligations.FrequencyCountCountsOccurrences := fun bytes =>
  ⟨get_countBytes_noCounts bytes, fun _ => mem_symbols_countBytes, symbols_ascending _⟩

end Sys2Proof.Machine
end

section
/-! O32: the stable sort (R120), and the leaves it orders (R118). -/

namespace Sys2Proof.Machine

/-! ### The sort -/

section

variable {α : Type} (key : α → Nat)

/-- The sort is descending (R120). -/
theorem sortDescending_descending (l : List α) : (sortDescending key l).Pairwise fun x y => key y ≤ key x := by
  have : Std.Total fun x y => key y ≤ key x := ⟨fun x y => Nat.le_total (key y) (key x)⟩
  have : IsTrans α fun x y => key y ≤ key x := ⟨fun _ _ _ hab hbc => hbc.trans hab⟩
  exact List.pairwise_insertionSort _ l

/-- Entries that stand in descending order keep their order (R120). -/
theorem sublist_sortDescending {l c : List α} (hc : c.Pairwise fun x y => key y ≤ key x) (h : c.Sublist l) :
    c.Sublist (sortDescending key l) := by
  have : Std.Total fun x y => key y ≤ key x := ⟨fun x y => Nat.le_total (key y) (key x)⟩
  have : IsTrans α fun x y => key y ≤ key x := ⟨fun _ _ _ hab hbc => hbc.trans hab⟩
  exact List.sublist_insertionSort hc h

theorem sortDescending_of_descending {l : List α} (h : l.Pairwise fun x y => key y ≤ key x) :
    sortDescending key l = l := h.insertionSort_eq

/-- The sort is stable: the entries of one key, which are in descending order, are as many and stand as they stood (R120). -/
theorem sortDescending_stable (l : List α) (c : Nat) :
    (sortDescending key l).filter (key · == c) = l.filter (key · == c) := by
  have hdesc : (l.filter (key · == c)).Pairwise fun x y => key y ≤ key x := by
    refine List.pairwise_of_forall_mem_list fun x hx y hy => ?_
    rw [List.mem_filter, beq_iff_eq] at hx hy
    exact (hy.2.trans hx.2.symm).le
  have hsub := (sublist_sortDescending key hdesc List.filter_sublist).filter (key · == c)
  simp only [List.filter_filter, Bool.and_self] at hsub
  exact (hsub.eq_of_length ((sortDescending_perm key l).filter _).length_eq.symm).symm

end

/-! ### The leaves -/

/-- The symbols in the order of the leaves (R118). -/
def leafOrder (freq : Table Nat) : List Byte := sortDescending freq.get (symbols freq)

theorem leafOrder_perm (freq : Table Nat) : (leafOrder freq).Perm (symbols freq) := sortDescending_perm _ _

@[simp] theorem leafOrder_length (freq : Table Nat) : (leafOrder freq).length = (symbols freq).length :=
  (leafOrder_perm freq).length_eq

theorem makeLeaves_node (freq : Table Nat) :
    (makeLeaves freq).node = (leafOrder freq).map fun v => .leaf v (freq.get v) := rfl

@[simp] theorem makeLeaves_list (freq : Table Nat) : (makeLeaves freq).list = List.range (symbols freq).length :=
  congrArg List.range (leafOrder_length freq)

@[simp] theorem makeLeaves_node_length (freq : Table Nat) : (makeLeaves freq).node.length = (symbols freq).length := by
  rw [makeLeaves_node, List.length_map, leafOrder_length]

/-- The frequencies the list names are the leaves', in order (R118). -/
theorem makeLeaves_frequencies (freq : Table Nat) :
    (makeLeaves freq).list.map (nodeFreq (makeLeaves freq).node) = (leafOrder freq).map freq.get := by
  refine List.ext_getElem (by simp) fun k hk _ => ?_
  have hlt : k < (leafOrder freq).length := by simpa using hk
  simp [makeLeaves_node, nodeFreq, List.getElem?_eq_getElem hlt, Node.freq]

/-- The first re-sort changes nothing (R120). -/
theorem resort_makeLeaves (freq : Table Nat) : resort (makeLeaves freq) = makeLeaves freq := by
  have hdesc : ((leafOrder freq).map freq.get).Pairwise fun x y => y ≤ x :=
    List.pairwise_map.mpr (sortDescending_descending _ _)
  rw [← makeLeaves_frequencies, List.pairwise_map] at hdesc
  rw [resort, sortDescending_of_descending _ hdesc]

/-- Settles O32, from the sort's own laws and the descending leaves. -/
theorem sortIsStableAndDescending : Obligations.SortIsStableAndDescending :=
  ⟨fun _ key l => ⟨sortDescending_perm key l, sortDescending_descending key l, sortDescending_stable key l⟩,
    resort_makeLeaves⟩

end Sys2Proof.Machine
end

section
/-! O33: the shape of the built tree (R115, R119, R121, R122). Every turn of the build loop replaces two entries of the list
by their parent, so that each node of the arena is always either still in the list or a child of exactly one node. -/

namespace Sys2Proof.Machine

/-! ### The arena -/

/-- The children of a node (R115). -/
def Node.children : Node → List Nat
  | .leaf _ _ => []
  | .internal l r _ => [l, r]

@[simp] theorem Node.children_leaf (v : Byte) (c : Nat) : (Node.leaf v c).children = [] := rfl
@[simp] theorem Node.children_internal (l r c : Nat) : (Node.internal l r c).children = [l, r] := rfl
@[simp] theorem Node.freq_internal (l r c : Nat) : (Node.internal l r c).freq = c := rfl

theorem nodeFreq_append {node : List Node} {n : Nat} (h : n < node.length) (more : List Node) :
    nodeFreq (node ++ more) n = nodeFreq node n := by
  rw [nodeFreq, nodeFreq, List.getElem?_append_left h]

@[simp] theorem nodeFreq_append_length (node : List Node) (x : Node) : nodeFreq (node ++ [x]) node.length = x.freq := by
  simp [nodeFreq]

theorem mem_flatMap_children {node : List Node} {k : Nat} : k ∈ node.flatMap Node.children ↔
    ∃ m l r c : Nat, node[m]? = some (.internal l r c) ∧ (k = l ∨ k = r) := by
  rw [List.mem_flatMap]
  constructor
  · rintro ⟨x, hx, hk⟩
    obtain ⟨m, hm⟩ := List.mem_iff_getElem?.mp hx
    cases x with
    | leaf => cases hk
    | internal l r c => exact ⟨m, l, r, c, hm, by simpa using hk⟩
  · rintro ⟨m, l, r, c, hm, hk⟩
    exact ⟨_, List.mem_of_getElem? hm, by simpa using hk⟩

/-- If no child occurs twice, a node has one parent (R115). -/
theorem parent_unique {node : List Node} (h : (node.flatMap Node.children).Nodup) {m n l r l' r' c c' k : Nat}
    (hm : node[m]? = some (.internal l r c)) (hk : k = l ∨ k = r)
    (hn : node[n]? = some (.internal l' r' c')) (hk' : k = l' ∨ k = r') : n = m := by
  obtain ⟨hml, hm⟩ := List.getElem?_eq_some_iff.mp hm
  obtain ⟨hnl, hn⟩ := List.getElem?_eq_some_iff.mp hn
  have hdisj := List.pairwise_iff_getElem.mp (List.nodup_flatMap.mp h).2
  have hkm : k ∈ node[m].children := by simpa [hm] using hk
  have hkn : k ∈ node[n].children := by simpa [hn] using hk'
  rcases Nat.lt_trichotomy n m with hlt | heq | hlt
  · exact absurd hkm (hdisj n m hnl hml hlt hkn)
  · exact heq
  · exact absurd hkn (hdisj m n hml hnl hlt hkm)

/-! ### The loop -/

/-- The merged node (R121). -/
def parentOf (node : List Node) (l r : Nat) : Node := .internal l r (nodeFreq node l + nodeFreq node r)

/-- `Merge()` on a list whose last two entries are known (R121). -/
theorem merge_append (node : List Node) (rest : List Nat) (l r : Nat) :
    merge ⟨node, rest ++ [l, r]⟩ = ⟨node ++ [parentOf node l r], rest ++ [node.length]⟩ := by
  simp [merge, parentOf]

/-- A list of two or more entries has a last and a second-to-last one. -/
theorem exists_append_pair {α : Type} {l : List α} (h : 1 < l.length) : ∃ rest x y, l = rest ++ [x, y] := by
  rcases l.eq_nil_or_concat with rfl | ⟨init, y, rfl⟩
  · cases h
  · rcases init.eq_nil_or_concat with rfl | ⟨rest, x, rfl⟩
    · exact absurd h (Nat.lt_irrefl 1)
    · exact ⟨rest, x, y, by simp⟩

/-- What reordering the list keeps and `Merge()` keeps, the build loop keeps (R119). -/
theorem mergeLoop_keeps {P : Forest → Prop}
    (hsort : ∀ node list list', list'.Perm list → P ⟨node, list⟩ → P ⟨node, list'⟩)
    (hmerge : ∀ node rest l r, P ⟨node, rest ++ [l, r]⟩ → P ⟨node ++ [parentOf node l r], rest ++ [node.length]⟩)
    (k : Nat) {f : Forest} (hf : P f) : P (mergeLoop k f) := by
  induction k generalizing f with
  | zero => exact hf
  | succ k ih =>
    rw [mergeLoop]
    split
    · next hlen =>
      have hsorted : P (resort f) := hsort _ _ _ (sortDescending_perm _ _) hf
      obtain ⟨rest, l, r, hlist⟩ := exists_append_pair (l := (resort f).list) (by simpa [resort] using hlen)
      have heq : resort f = ⟨f.node, rest ++ [l, r]⟩ := congrArg (Forest.mk f.node) hlist
      rw [heq] at hsorted ⊢
      exact ih (merge_append .. ▸ hmerge _ _ _ _ hsorted)
    · exact hf

/-- The loop ends with one entry in the list (R119, R122). -/
theorem mergeLoop_list_length {k : Nat} {f : Forest} (hpos : 1 ≤ f.list.length) (hk : f.list.length ≤ k + 1) :
    (mergeLoop k f).list.length = 1 := by
  induction k generalizing f with
  | zero => exact hk.antisymm hpos
  | succ k ih =>
    rw [mergeLoop]
    split
    · next hlen =>
      have hsort : (resort f).list.length = f.list.length := sortDescending_length _ _
      have hmerge := (merge_lengths (f := resort f) (by omega)).2
      exact ih (by omega) (by omega)
    · omega

/-! ### The invariant -/

/-- What holds of the tree builder's data at every turn (R119, R121): each turn adds a node and takes an entry off the list,
each node is in the list or a child of exactly one node, a parent is younger than its children and carries their sum, and the
list carries the sum of all counts. -/
structure Forest.WellBuilt (freq : Table Nat) (f : Forest) : Prop where
  count : f.node.length + f.list.length = 2 * (symbols freq).length
  once : (f.list ++ f.node.flatMap Node.children).Perm (List.range f.node.length)
  older : ∀ m l r c : Nat, f.node[m]? = some (.internal l r c) →
    l < m ∧ r < m ∧ c = nodeFreq f.node l + nodeFreq f.node r
  total : (f.list.map (nodeFreq f.node)).sum = ((symbols freq).map freq.get).sum

theorem makeLeaves_wellBuilt (freq : Table Nat) : (makeLeaves freq).WellBuilt freq where
  count := by simp; omega
  once := by
    have hnone : (makeLeaves freq).node.flatMap Node.children = [] :=
      List.flatMap_eq_nil_iff.mpr (by simp [makeLeaves_node])
    rw [hnone, List.append_nil, makeLeaves_list, makeLeaves_node_length]
  older := by simp [makeLeaves_node]
  total := by rw [makeLeaves_frequencies, ((leafOrder_perm freq).map _).sum_eq]

section

variable {freq : Table Nat} {node : List Node} {list : List Nat} {n l r : Nat}

theorem Forest.WellBuilt.lt_of_mem (h : (Forest.mk node list).WellBuilt freq) (hn : n ∈ list) : n < node.length :=
  List.mem_range.mp (h.once.subset (List.mem_append_left _ hn))

theorem Forest.WellBuilt.reorder {list' : List Nat} (hp : list'.Perm list) (h : (Forest.mk node list).WellBuilt freq) :
    (Forest.mk node list').WellBuilt freq where
  count := hp.length_eq ▸ h.count
  once := (hp.append_right _).trans h.once
  older := h.older
  total := (hp.map _).sum_eq.trans h.total

/-- `Merge()` keeps the invariant (R121). -/
theorem Forest.WellBuilt.merged {rest : List Nat} (h : (Forest.mk node (rest ++ [l, r])).WellBuilt freq) :
    (Forest.mk (node ++ [parentOf node l r]) (rest ++ [node.length])).WellBuilt freq where
  count := by
    have := h.count
    simp at this ⊢
    omega
  once := by
    have hperm : (rest ++ [node.length] ++ (node ++ [parentOf node l r]).flatMap Node.children).Perm
        (rest ++ [l, r] ++ node.flatMap Node.children ++ [node.length]) := by
      simp only [List.flatMap_append, List.flatMap_singleton, parentOf, Node.children_internal, List.perm_iff_count,
        List.count_append]
      omega
    rw [List.length_append, List.length_singleton, List.range_succ]
    exact hperm.trans (h.once.append_right _)
  older := by
    intro m l' r' c hm
    have hl : l < node.length := h.lt_of_mem (by simp)
    have hr : r < node.length := h.lt_of_mem (by simp)
    rcases Nat.lt_trichotomy m node.length with hlt | rfl | hgt
    · obtain ⟨hlm, hrm, hc⟩ := h.older m l' r' c (by rwa [List.getElem?_append_left hlt] at hm)
      rw [nodeFreq_append (hlm.trans hlt), nodeFreq_append (hrm.trans hlt)]
      exact ⟨hlm, hrm, hc⟩
    · simp only [List.getElem?_concat_length, Option.some_inj, parentOf, Node.internal.injEq] at hm
      obtain ⟨rfl, rfl, rfl⟩ := hm
      rw [nodeFreq_append hl, nodeFreq_append hr]
      exact ⟨hl, hr, rfl⟩
    · rw [List.getElem?_eq_none (by simp; omega)] at hm
      cases hm
  total := by
    have hrest : rest.map (nodeFreq (node ++ [parentOf node l r])) = rest.map (nodeFreq node) :=
      List.map_congr_left fun n hn => nodeFreq_append (h.lt_of_mem (List.mem_append_left _ hn)) _
    have htotal := h.total
    rw [List.map_append, hrest]
    simp only [List.map_append, List.sum_append, List.map_cons, List.map_nil, List.sum_cons, List.sum_nil,
      nodeFreq_append_length, parentOf, Node.freq_internal, Nat.add_zero] at htotal ⊢
    exact htotal

end

theorem buildForest_wellBuilt (freq : Table Nat) : (buildForest freq).WellBuilt freq :=
  mergeLoop_keeps (fun _ _ _ => .reorder) (fun _ _ _ _ => .merged) _ (makeLeaves_wellBuilt freq)

/-! ### The end of the build -/

/-- With no symbol nothing is built (R122). -/
theorem buildForest_of_no_symbol {freq : Table Nat} (h : symbols freq = []) : buildForest freq = ⟨[], []⟩ := by
  have hleaves : makeLeaves freq = ⟨[], []⟩ := by simp [makeLeaves, h, sortDescending]
  rw [buildForest, hleaves]
  rfl

/-- With a symbol the loop ends with one entry in the list (R122). -/
theorem buildForest_list_length {freq : Table Nat} (h : 1 ≤ (symbols freq).length) :
    (buildForest freq).list.length = 1 := mergeLoop_list_length (by simpa using h) (by simp)

theorem buildForest_node_length {freq : Table Nat} (h : 1 ≤ (symbols freq).length) :
    (buildForest freq).node.length = 2 * (symbols freq).length - 1 := by
  have hcount := (buildForest_wellBuilt freq).count
  rw [buildForest_list_length h] at hcount
  omega

/-- The one entry left is the last node of the arena: no younger node has it as a child (R122). -/
theorem buildForest_list {freq : Table Nat} (h : 1 ≤ (symbols freq).length) :
    (buildForest freq).list = [2 * (symbols freq).length - 2] := by
  have hw := buildForest_wellBuilt freq
  have hlen := buildForest_node_length h
  obtain ⟨n, hn⟩ := List.length_eq_one_iff.mp (buildForest_list_length h)
  have hlast := hw.once.symm.subset (List.mem_range.mpr (by omega : 2 * (symbols freq).length - 2 < _))
  rcases List.mem_append.mp hlast with hlist | hchild
  · rw [hn, List.mem_singleton] at hlist
    rw [hn, hlist]
  · obtain ⟨m, l, r, c, hm, hk⟩ := mem_flatMap_children.mp hchild
    have holder := hw.older m l r c hm
    have hlt : m < (buildForest freq).node.length := (List.getElem?_eq_some_iff.mp hm).1
    omega

theorem rootOf_buildForest {freq : Table Nat} (h : 1 ≤ (symbols freq).length) :
    rootOf (buildForest freq) = some (2 * (symbols freq).length - 2) := by
  rw [rootOf, buildForest_list h]

/-- Settles O33, from the build loop's invariant. -/
theorem treeIsStrictBinaryWithOneRoot : Obligations.TreeIsStrictBinaryWithOneRoot := by
  refine fun freq => ⟨fun h => ?_, fun h => ?_⟩
  · rw [buildForest_of_no_symbol (List.length_eq_zero_iff.mp h)]
    exact ⟨rfl, rfl⟩
  · have hw := buildForest_wellBuilt freq
    have hlist := buildForest_list h
    have honce := hw.once
    have htotal := hw.total
    rw [hlist] at honce htotal
    have hnodup := honce.nodup_iff.mpr List.nodup_range
    obtain ⟨-, hchildren, -⟩ := List.nodup_append.mp hnodup
    refine ⟨buildForest_node_length h, rootOf_buildForest h, by simpa using htotal, fun m l r c hm => ?_, fun k hk => ?_⟩
    · obtain ⟨hl, hr, hc⟩ := hw.older m l r c hm
      have hne : l ≠ r := by simpa using (List.nodup_flatMap.mp hchildren).1 _ (List.mem_of_getElem? hm)
      exact ⟨hl, hr, hne, hc⟩
    · have hmem := honce.symm.subset (List.mem_range.mpr (by rw [buildForest_node_length h]; omega : k < _))
      have hchild := (List.mem_append.mp hmem).resolve_left (by rw [List.mem_singleton]; omega)
      obtain ⟨m, l, r, c, hm, hkm⟩ := mem_flatMap_children.mp hchild
      exact ⟨m, l, r, c, hm, hkm, fun n l' r' c' hn hkn => parent_unique hchildren hm hkm hn hkn⟩

end Sys2Proof.Machine
end

section
/-! O34: the code table (R124 to R127). The arena's last node stands for a binary tree whose leaves are the symbols, and the
code of a symbol is the path to its leaf; that no code begins another, completeness and the length bound are facts about
paths in a tree. -/

namespace Sys2Proof.Machine

/-! ### Trees and paths -/

/-- A Huffman tree without its arena and its frequencies (R115). -/
inductive CodeTree
  | leaf (value : Byte)
  | fork (left right : CodeTree)

/-- The values at the leaves, from left to right. -/
def CodeTree.leaves : CodeTree → List Byte
  | .leaf v => [v]
  | .fork l r => l.leaves ++ r.leaves

/-- The length of the longest path. -/
def CodeTree.depth : CodeTree → Nat
  | .leaf _ => 0
  | .fork l r => max l.depth r.depth + 1

/-- The value of the leaf a path ends at: `false` descends left, `true` right (R124). -/
def CodeTree.leafAt : CodeTree → List Bool → Option Byte
  | .leaf v, [] => some v
  | .fork l _, false :: path => l.leafAt path
  | .fork _ r, true :: path => r.leafAt path
  | _, _ => none

namespace CodeTree

theorem mem_leaves_of_leafAt {t : CodeTree} {path : List Bool} {v : Byte} (h : t.leafAt path = some v) :
    v ∈ t.leaves := by
  fun_induction leafAt t path with
  | case1 u => simpa [leaves, eq_comm] using h
  | case2 l r path ih => exact List.mem_append_left _ (ih h)
  | case3 l r path ih => exact List.mem_append_right _ (ih h)
  | case4 => cases h

theorem exists_leafAt {t : CodeTree} {v : Byte} (h : v ∈ t.leaves) : ∃ path, t.leafAt path = some v := by
  induction t with
  | leaf u => exact ⟨[], congrArg some (List.mem_singleton.mp h).symm⟩
  | fork l r ihl ihr =>
    rcases List.mem_append.mp h with h | h
    · exact (ihl h).imp' (false :: ·) fun _ => id
    · exact (ihr h).imp' (true :: ·) fun _ => id

theorem length_le_depth {t : CodeTree} {path : List Bool} {v : Byte} (h : t.leafAt path = some v) :
    path.length ≤ t.depth := by
  fun_induction leafAt t path with
  | case1 => exact le_rfl
  | case2 l r path ih => exact Nat.succ_le_succ ((ih h).trans (le_max_left _ _))
  | case3 l r path ih => exact Nat.succ_le_succ ((ih h).trans (le_max_right _ _))
  | case4 => cases h

/-- Each turn of a path leaves at least one leaf to its other side (R127 (b)). -/
theorem depth_lt_leaves (t : CodeTree) : t.depth < t.leaves.length := by
  induction t with
  | leaf => exact Nat.zero_lt_one
  | fork l r ihl ihr =>
    simp only [depth, leaves, List.length_append]
    omega

/-- A path that ends at a leaf does not go on to another (R127 (c)). -/
theorem eq_of_prefix {t : CodeTree} {path more : List Bool} {v w : Byte} (hv : t.leafAt path = some v)
    (hw : t.leafAt more = some w) (h : path <+: more) : v = w := by
  obtain ⟨rest, rfl⟩ := h
  fun_induction leafAt t path with
  | case1 u =>
    cases rest with
    | nil => exact Option.some_inj.mp (hv.symm.trans hw)
    | cons => cases hw
  | case2 l r path ih => exact ih hv hw
  | case3 l r path ih => exact ih hv hw
  | case4 => cases hv

/-- Enough bits lead to a leaf, whatever they are (R127 (d)). -/
theorem exists_leafAt_prefix (t : CodeTree) {bits : List Bool} (h : t.depth ≤ bits.length) :
    ∃ path v, t.leafAt path = some v ∧ path <+: bits := by
  induction t generalizing bits with
  | leaf v => exact ⟨[], v, rfl, List.nil_prefix⟩
  | fork l r ihl ihr =>
    rcases bits with _ | ⟨_ | _, bits⟩
    · cases h
    · obtain ⟨path, v, hv, hp⟩ := ihl (bits := bits) ((le_max_left _ _).trans (Nat.le_of_succ_le_succ h))
      exact ⟨false :: path, v, hv, (List.prefix_cons_inj false).mpr hp⟩
    · obtain ⟨path, v, hv, hp⟩ := ihr (bits := bits) ((le_max_right _ _).trans (Nat.le_of_succ_le_succ h))
      exact ⟨true :: path, v, hv, (List.prefix_cons_inj true).mpr hp⟩

end CodeTree

/-! ### The tree an arena node stands for -/

/-- Node `n` of the arena stands for the tree (R24, R115). -/
inductive Represents (node : List Node) : Nat → CodeTree → Prop
  | leaf {n : Nat} {v : Byte} {c : Nat} (h : node[n]? = some (.leaf v c)) : Represents node n (.leaf v)
  | fork {n l r c : Nat} {tl tr : CodeTree} (h : node[n]? = some (.internal l r c)) (hl : Represents node l tl)
      (hr : Represents node r tr) : Represents node n (.fork tl tr)

theorem getElem?_append_of_eq_some {α : Type} {l : List α} {n : Nat} {x : α} (h : l[n]? = some x) (more : List α) :
    (l ++ more)[n]? = some x := by
  rwa [List.getElem?_append_left (List.getElem?_eq_some_iff.mp h).1]

theorem Represents.append {node : List Node} {n : Nat} {t : CodeTree} (h : Represents node n t) (more : List Node) :
    Represents (node ++ more) n t := by
  induction h with
  | leaf h => exact .leaf (getElem?_append_of_eq_some h more)
  | fork h _ _ ihl ihr => exact .fork (getElem?_append_of_eq_some h more) ihl ihr

/-- The list's entries stand for trees that hold each symbol once (R118, R121). -/
def Forest.Holds (freq : Table Nat) (f : Forest) : Prop :=
  ∃ ts : List CodeTree, List.Forall₂ (Represents f.node) f.list ts ∧ (ts.flatMap CodeTree.leaves).Perm (symbols freq)

theorem makeLeaves_holds (freq : Table Nat) : (makeLeaves freq).Holds freq := by
  refine ⟨(leafOrder freq).map .leaf, List.forall₂_iff_get.mpr ⟨by simp, fun k hk _ => ?_⟩, ?_⟩
  · have hlt : k < (leafOrder freq).length := by simpa using hk
    have hnode : (makeLeaves freq).node[k]? = some (.leaf (leafOrder freq)[k] (freq.get (leafOrder freq)[k])) := by
      simp [makeLeaves_node, List.getElem?_eq_getElem hlt]
    simpa using Represents.leaf hnode
  · rw [List.flatMap_map]
    simpa [CodeTree.leaves] using leafOrder_perm freq

/-- Reordering the list keeps the trees. -/
theorem Forest.Holds.reorder {freq : Table Nat} {node : List Node} {list list' : List Nat} (hp : list'.Perm list)
    (h : (Forest.mk node list).Holds freq) : (Forest.mk node list').Holds freq := by
  obtain ⟨ts, hts, hsym⟩ := h
  obtain ⟨ts', hts', hperm⟩ := List.perm_comp_forall₂ hp hts
  exact ⟨ts', hts', (hperm.flatMap_right _).trans hsym⟩

/-- `Merge()` joins the trees of the last two entries (R121). -/
theorem Forest.Holds.merged {freq : Table Nat} {node : List Node} {rest : List Nat} {l r : Nat}
    (h : (Forest.mk node (rest ++ [l, r])).Holds freq) :
    (Forest.mk (node ++ [parentOf node l r]) (rest ++ [node.length])).Holds freq := by
  obtain ⟨ts, hts, hsym⟩ := h.reorder (list' := l :: r :: rest) (List.perm_append_comm (l₁ := [l, r]))
  obtain ⟨tl, _, hl, htail, rfl⟩ := List.forall₂_cons_left_iff.mp hts
  obtain ⟨tr, trest, hr, hrest, rfl⟩ := List.forall₂_cons_left_iff.mp htail
  have hnew : Represents (node ++ [parentOf node l r]) node.length (.fork tl tr) :=
    .fork List.getElem?_concat_length (hl.append _) (hr.append _)
  have hfront : (Forest.mk (node ++ [parentOf node l r]) (node.length :: rest)).Holds freq :=
    ⟨.fork tl tr :: trest, .cons hnew (hrest.imp fun _ _ h => h.append _), by simpa [CodeTree.leaves] using hsym⟩
  exact hfront.reorder List.perm_append_comm

theorem buildForest_holds (freq : Table Nat) : (buildForest freq).Holds freq :=
  mergeLoop_keeps (fun _ _ _ => .reorder) (fun _ _ _ _ => .merged) _ (makeLeaves_holds freq)

/-- With a symbol the root stands for one tree, which holds each symbol once (R122). -/
theorem exists_buildForest_tree {freq : Table Nat} (h : 1 ≤ (symbols freq).length) :
    ∃ t, Represents (buildForest freq).node (2 * (symbols freq).length - 2) t ∧ t.leaves.Perm (symbols freq) := by
  obtain ⟨ts, hts, hsym⟩ := buildForest_holds freq
  rw [buildForest_list h] at hts
  obtain ⟨t, _, ht, hnil, rfl⟩ := List.forall₂_cons_left_iff.mp hts
  obtain rfl := List.forall₂_nil_left_iff.mp hnil
  exact ⟨t, ht, by simpa using hsym⟩

/-! ### The walk -/

/-- `Walk(n, path)` writes to each leaf its path, and nothing else (R124). -/
theorem walk_spec {node : List Node} {n : Nat} {t : CodeTree} (h : Represents node n t) (hnodup : t.leaves.Nodup) {k : Nat}
    (hk : t.depth < k) (path : List Bool) (code : Table (List Bool)) :
    (∀ v more, t.leafAt more = some v → (walk node k n path code).get v = path ++ more)
      ∧ ∀ v, v ∉ t.leaves → (walk node k n path code).get v = code.get v := by
  induction h generalizing k path code with
  | @leaf n u c h =>
    obtain ⟨k, rfl⟩ := Nat.exists_eq_add_one_of_ne_zero (Nat.ne_zero_of_lt hk)
    simp only [walk, h]
    refine ⟨fun v more hv => ?_, fun v hv => Table.get_set_ne _ _ (by simpa [CodeTree.leaves] using hv)⟩
    cases more with
    | nil => cases hv; simp
    | cons => cases hv
  | @fork n l r c tl tr h _ _ ihl ihr =>
    obtain ⟨k, rfl⟩ := Nat.exists_eq_add_one_of_ne_zero (Nat.ne_zero_of_lt hk)
    simp only [walk, h]
    obtain ⟨hnl, hnr, hdisj⟩ := List.nodup_append.mp hnodup
    simp only [CodeTree.depth] at hk
    obtain ⟨hleft, hleft'⟩ := ihl hnl (by omega : tl.depth < k) (path ++ [false]) code
    obtain ⟨hright, hright'⟩ := ihr hnr (by omega : tr.depth < k) (path ++ [true]) (walk node k l (path ++ [false]) code)
    refine ⟨fun v more hv => ?_, fun v hv => ?_⟩
    · rcases more with _ | ⟨_ | _, more⟩
      · cases hv
      · have hnot : v ∉ tr.leaves := fun hm => hdisj v (CodeTree.mem_leaves_of_leafAt hv) v hm rfl
        rw [hright' v hnot, hleft v more hv, List.append_assoc, List.singleton_append]
      · rw [hright v more hv, List.append_assoc, List.singleton_append]
    · rw [CodeTree.leaves, List.mem_append, not_or] at hv
      rw [hright' v hv.2, hleft' v hv.1]

/-! ### The code table -/

theorem assignCodes_leaf {node : List Node} {n : Nat} {v : Byte} (h : Represents node n (.leaf v))
    (code : Table (List Bool)) : assignCodes node (some n) code = code.set v [false] := by
  obtain ⟨h⟩ := h
  simp only [assignCodes, h]

theorem assignCodes_fork {node : List Node} {n : Nat} {l r : CodeTree} (h : Represents node n (.fork l r))
    (code : Table (List Bool)) : assignCodes node (some n) code = walk node node.length n [] code := by
  cases h with
  | fork h => simp only [assignCodes, h]

/-- The code table comes from the tree of the root (R122, R124). -/
theorem exists_codeTable_tree {freq : Table Nat} (h : 1 ≤ (symbols freq).length) :
    ∃ n t, Represents (buildForest freq).node n t ∧ t.leaves.Perm (symbols freq)
      ∧ codeTable freq = assignCodes (buildForest freq).node (some n) (Vector.replicate 256 []) := by
  obtain ⟨t, ht, hsym⟩ := exists_buildForest_tree h
  exact ⟨_, t, ht, hsym, by rw [codeTable, rootOf_buildForest h]⟩

/-- No symbol, no code (R126). -/
theorem codeTable_of_no_symbol {freq : Table Nat} (h : symbols freq = []) (v : Byte) : (codeTable freq).get v = [] := by
  rw [codeTable, buildForest_of_no_symbol h]
  exact Table.get_replicate [] v

/-- A single symbol has the code of one 0 (R125). -/
theorem codeTable_of_one_symbol {freq : Table Nat} {u : Byte} (h : symbols freq = [u]) (v : Byte) :
    (codeTable freq).get v = if v = u then [false] else [] := by
  obtain ⟨n, t, ht, hsym, hcode⟩ := exists_codeTable_tree (freq := freq) (by simp [h])
  have hlen := hsym.length_eq
  cases t with
  | leaf w =>
    obtain rfl : w = u := by simpa [h, CodeTree.leaves] using hsym
    rw [hcode, assignCodes_leaf ht, Table.get_set, Table.get_replicate]
  | fork l r =>
    have hl := l.depth_lt_leaves
    have hr := r.depth_lt_leaves
    simp only [CodeTree.leaves, List.length_append, h, List.length_singleton] at hlen
    omega

/-- The codes of two or more symbols are the paths to the leaves of one tree (R124). -/
theorem codeTable_of_symbols {freq : Table Nat} (h : 2 ≤ (symbols freq).length) :
    ∃ l r : CodeTree, (CodeTree.fork l r).leaves.length = (symbols freq).length
      ∧ (∀ v path, (CodeTree.fork l r).leafAt path = some v ↔ v ∈ symbols freq ∧ (codeTable freq).get v = path)
      ∧ ∀ v, v ∉ symbols freq → (codeTable freq).get v = [] := by
  obtain ⟨n, t, ht, hsym, hcode⟩ := exists_codeTable_tree (freq := freq) (by omega)
  have hlen := hsym.length_eq
  cases t with
  | leaf w =>
    rw [CodeTree.leaves, List.length_singleton] at hlen
    omega
  | fork l r =>
    have hfuel : (CodeTree.fork l r).depth < (buildForest freq).node.length := by
      have hdepth := (CodeTree.fork l r).depth_lt_leaves
      rw [buildForest_node_length (by omega)]
      omega
    rw [assignCodes_fork ht] at hcode
    obtain ⟨hpath, hnone⟩ := walk_spec ht (hsym.nodup_iff.mpr (symbols_nodup freq)) hfuel [] (Vector.replicate 256 [])
    rw [← hcode] at hpath hnone
    refine ⟨l, r, hlen, fun v path => ⟨fun hv => ?_, fun ⟨hv, hget⟩ => ?_⟩, fun v hv => ?_⟩
    · exact ⟨hsym.subset (CodeTree.mem_leaves_of_leafAt hv), hpath v path hv⟩
    · obtain ⟨path', hv'⟩ := CodeTree.exists_leafAt (hsym.symm.subset hv)
      rwa [← hget, hpath v path' hv']
    · rw [hnone v (mt hsym.mem_iff.mp hv), Table.get_replicate]

/-- Settles O34: with two symbols or more, by the facts about paths in a tree. -/
theorem codeTableIsPrefixFreeAndComplete : Obligations.CodeTableIsPrefixFreeAndComplete := by
  intro freq
  simp only [← mem_symbols]
  rcases Nat.lt_or_ge (symbols freq).length 2 with hlt | h
  · rcases hs : symbols freq with _ | ⟨u, _ | ⟨w, rest⟩⟩
    · simp [codeTable_of_no_symbol hs]
    · have hlen : ∀ v, (if v = u then [false] else []).length ≤ 1 := fun v => by split <;> simp
      simpa [codeTable_of_one_symbol hs] using hlen
    · simp [hs] at hlt
  · obtain ⟨l, r, hlen, hpath, hnone⟩ := codeTable_of_symbols h
    have hleaf : ∀ v ∈ symbols freq, (CodeTree.fork l r).leafAt ((codeTable freq).get v) = some v :=
      fun v hv => (hpath v _).mpr ⟨hv, rfl⟩
    have hdepth := (CodeTree.fork l r).depth_lt_leaves
    refine ⟨fun v => ⟨fun hne => ?_, fun hv hnil => ?_⟩, fun v => ?_, fun v w hv hw hne hp => ?_, fun _ bits hb => ?_,
      fun v hv => ?_⟩
    · exact by_contra fun hv => hne (hnone v hv)
    · cases hnil ▸ hleaf v hv
    · by_cases hv : v ∈ symbols freq
      · have hle := CodeTree.length_le_depth (hleaf v hv)
        omega
      · rw [hnone v hv]
        exact Nat.zero_le _
    · exact hne (CodeTree.eq_of_prefix (hleaf v hv) (hleaf w hw) hp)
    · obtain ⟨path, v, hv, hp⟩ := (CodeTree.fork l r).exists_leafAt_prefix (bits := bits) (by omega)
      obtain ⟨hmem, rfl⟩ := (hpath v path).mp hv
      exact ⟨v, hmem, hp⟩
    · simp [hv] at h

end Sys2Proof.Machine
end

section
/-! How an engine fills `OUT` (R81, R99, R207): it ends in the state it means to reach when the bytes it appends on the way
fit, and in `CapacityError` when they do not. -/

namespace Sys2Proof.Machine

/-! ### Pieces with room and without -/

/-- The piece, begun in `s`, ends in `t` when `OUT` has room for the bytes appended from `s` to `t`; when it has not, the
piece raises `CapacityError`. -/
structure Delivers (s t : State) (r : Run State) : Prop where
  params : t.params = s.params
  opos : s.opos ≤ t.opos
  ok : t.opos ≤ s.params.outCap → r = .ok t
  error : s.opos ≤ s.params.outCap → s.params.outCap < t.opos → ∃ u, r = .error (.capacity, u)

/-- A piece that appends nothing. -/
theorem Delivers.pure (s : State) : Delivers s s (.ok s) := ⟨rfl, le_rfl, fun _ => rfl, fun hs ht => by omega⟩

/-- The rest of a sequence starts only if its first part had room. -/
theorem Delivers.bind {s t u : State} {x : Run State} {f : State → Run State} (hx : Delivers s t x)
    (hf : Delivers t u (f t)) : Delivers s u (x >>= f) where
  params := hf.params.trans hx.params
  opos := hx.opos.trans hf.opos
  ok := fun hu => Run.bind_ok.mpr ⟨t, hx.ok (hf.opos.trans hu), hf.ok (by rwa [hx.params])⟩
  error := fun hs hu => by
    rcases Nat.lt_or_ge s.params.outCap t.opos with ht | ht
    · obtain ⟨v, hv⟩ := hx.error hs ht
      exact ⟨v, Run.bind_error.mpr (.inl hv)⟩
    · obtain ⟨v, hv⟩ := hf.error (by rwa [hx.params]) (by rwa [hx.params])
      exact ⟨v, Run.bind_error.mpr (.inr ⟨t, hx.ok ht, hv⟩)⟩

/-- Where a piece begins matters only by `OPOS` and the parameters. -/
theorem Delivers.after {s s' t : State} {r : Run State} (h : Delivers s' t r) (hp : s'.params = s.params := by rfl)
    (ho : s'.opos = s.opos := by rfl) : Delivers s t r where
  params := h.params.trans hp
  opos := ho ▸ h.opos
  ok := hp ▸ h.ok
  error := hp ▸ ho ▸ h.error

/-- A transient update at the end of a piece. -/
theorem Delivers.thenUpdate {s t : State} {x : Run State} (f : State → State) (h : Delivers s t x)
    (hp : (f t).params = t.params := by rfl) (ho : (f t).opos = t.opos := by rfl) :
    Delivers s (f t) (x >>= fun u => .ok (f u)) :=
  h.bind ((Delivers.pure (f t)).after hp ho)

theorem outBytes_delivers (bs : List Byte) (s : State) : Delivers s (s.pushAll bs) (outBytes bs s) where
  params := State.pushAll_params bs s
  opos := by rw [State.pushAll_opos]; omega
  ok := fun h => outBytes_ok (by rwa [State.pushAll_opos] at h)
  error := fun hs h => ⟨_, outBytes_error hs (by rwa [State.pushAll_opos] at h)⟩

theorem outByte_delivers (b : Byte) (s : State) : Delivers s (s.push b) (outByte b s) where
  params := rfl
  opos := Nat.le_succ _
  ok := fun h => outByte_ok_iff.mpr ⟨by rw [State.push_opos] at h; omega, rfl⟩
  error := fun hs h => ⟨s, outByte_error_iff.mpr ⟨by rw [State.push_opos] at h; omega, rfl⟩⟩

/-- `writeInt32` of a number (R82). -/
theorem writeInt32_delivers (n : Nat) (s : State) :
    Delivers s (s.pushAll (int32Bytes s.params.endian (BitVec.ofNat 32 n))) (writeInt32 n s) := by
  rw [writeInt32, ofInt_natCast]
  exact outBytes_delivers _ s

/-! ### The bit packer -/

theorem putBit_of_full {b : Bool} {s : State} (hn : s.nbits = 7) (hfull : s.opos = s.params.outCap) :
    ∃ u, putBit b s = .error (.capacity, u) := by
  simp only [putBit, hn, if_true]
  exact ⟨_, Run.bind_error.mpr (.inl (outByte_error_iff.mpr ⟨hfull, rfl⟩))⟩

theorem flushBits_of_full {s : State} (hn : s.nbits ≠ 0) (hfull : s.opos = s.params.outCap) :
    flushBits s = .error (.capacity, s) := by
  rw [flushBits, if_neg hn]
  exact Run.bind_error.mpr (.inl (outByte_error_iff.mpr ⟨hfull, rfl⟩))

/-- The eighth bit is the one that needs room (R85). -/
theorem putBit_delivers (bits : List Bool) (b : Bool) (s : State) :
    Delivers (s.packed bits) (s.packed (bits ++ [b])) (putBit b (s.packed bits)) where
  params := by simp
  opos := by simp only [State.packed_opos, List.length_append]; omega
  ok := fun h => putBit_packed b (by simpa using h)
  error := fun hs h => by
    simp only [State.packed_opos, State.packed_params, List.length_append, List.length_singleton] at hs h
    exact putBit_of_full (by rw [State.packed_nbits]; omega) (by rw [State.packed_opos, State.packed_params]; omega)

theorem putBits_delivers (bits more : List Bool) (s : State) :
    Delivers (s.packed bits) (s.packed (bits ++ more)) (putBits more (s.packed bits)) := by
  induction more generalizing bits with
  | nil => rw [List.append_nil]; exact .pure _
  | cons b more ih =>
    have hrest := (putBit_delivers bits b s).bind (ih (bits ++ [b]))
    rwa [List.append_assoc] at hrest

/-- The state after the flush of the bits put since the packer was empty (R86). -/
def State.flushed (bits : List Bool) (s : State) : State := s.pushAll (packBits (padded bits))

@[simp] theorem State.flushed_params (bits : List Bool) (s : State) : (s.flushed bits).params = s.params :=
  State.pushAll_params _ s

@[simp] theorem State.flushed_opos (bits : List Bool) (s : State) :
    (s.flushed bits).opos = s.opos + (bits.length + 7) / 8 := by
  rw [State.flushed, State.pushAll_opos, packBits_length, padded_length, Nat.mul_div_cancel_left _ (by decide)]

/-- A partial byte needs room for its flush (R86); what follows starts from there. -/
theorem Delivers.flushBits_bind {bits : List Bool} {s t : State} {f : Nat × State → Run State} (hacc : s.acc = 0)
    (hn : s.nbits = 0) (hf : Delivers (s.flushed bits) t (f (padBits bits, s.flushed bits))) :
    Delivers (s.packed bits) t (flushBits (s.packed bits) >>= f) := by
  obtain ⟨hparams, hopos, hok, herror⟩ := hf
  rw [State.flushed_params] at hparams hok herror
  rw [State.flushed_opos] at hopos herror
  have hflush : s.opos + (bits.length + 7) / 8 ≤ s.params.outCap → (flushBits (s.packed bits) >>= f)
      = f (padBits bits, s.flushed bits) := fun hroom => by
    rw [flushBits_packed hacc hn hroom]
    rfl
  refine ⟨by rw [hparams, State.packed_params], by rw [State.packed_opos]; omega, fun h => ?_, fun hs h => ?_⟩
  · rw [State.packed_params] at h
    rw [hflush (by omega), hok h]
  · rw [State.packed_params] at hs h
    rw [State.packed_opos] at hs
    rcases Nat.lt_or_ge s.params.outCap (s.opos + (bits.length + 7) / 8) with hfull | hroom
    · have hraise : flushBits (s.packed bits) = .error (.capacity, s.packed bits) :=
        flushBits_of_full (by rw [State.packed_nbits]; omega) (by rw [State.packed_opos, State.packed_params]; omega)
      exact ⟨_, Run.bind_error.mpr (.inl hraise)⟩
    · rw [hflush hroom]
      exact herror hroom h

/-! ### The end of a command -/

theorem Appended.pushAll {bs : List Byte} {s : State} (h : s.opos + bs.length ≤ s.params.outCap) :
    Appended bs s (s.pushAll bs) := by
  rw [State.pushAll_frame]
  exact { fits := fun _ => h }

/-- What `OUT` holds when the run was appended to an empty output: nothing beyond it was stored to (R19). -/
theorem Appended.read_of_empty {bs : List Byte} {s t : State} (h : Appended bs s t) (ho : s.opos = 0) (a : Nat) :
    Memory.read? t.outBuf a = if a < bs.length then bs[a]? else Memory.read? s.outBuf a := by
  rw [h.outBuf, State.pushAll_read, ho]
  simp

/-- The output is what was stored below `OUT_LEN` (R17). -/
theorem State.output_eq {s : State} {out : List Byte} (hlen : s.outLen.toNat = out.length)
    (h : ∀ k, k < out.length → Memory.read? s.outBuf k = out[k]?) : s.output = out := by
  refine List.ext_getElem (by rw [State.output_length, hlen]) fun k _ hk => ?_
  have hbyte : s.outByte k = out[k] := State.outByte_of_read (by rw [h k hk, List.getElem?_eq_getElem hk])
  simpa [State.output] using hbyte

/-- A data command whose engine appends `out` to the empty output succeeds with it (R98, R99). -/
theorem succeeds_of_appended {i : Instr} {w : Word} {engine : State → Run State} {s t : State} {out : List Byte}
    (hi : exec i s = .next (dataCommand w engine s)) (hwf : s.params.wf = true) (hin : s.inLen.toNat ≤ s.params.inCap)
    (hr : engine ((s.start w).prologue.setPhase .check) = .ok t)
    (ha : Appended out ((s.start w).prologue.setPhase .check) t) : Succeeds i s out := by
  have hcap : out.length ≤ s.params.outCap := by simpa using ha.fits (Nat.zero_le _)
  have he : exec i s = .next t.epilogue := by rw [hi, dataCommand_of_fits w engine hin, hr, complete_ok]
  have hread := ha.read_of_empty rfl
  have hlen : t.epilogue.outLen.toNat = out.length := by
    simp only [Params.wf, decide_eq_true_eq] at hwf
    rw [State.epilogue_outLen, ha.opos, State.setPhase_opos, State.prologue_opos, Nat.zero_add, BitVec.toNat_ofNat,
      Nat.mod_eq_of_lt (by omega)]
  refine ⟨_, he, rfl, ?_, hlen, ?_, exec_kept he, fun a hout => ?_⟩
  · rw [State.epilogue_status, ha.status, State.setPhase_status, State.prologue_status]
    rfl
  · exact State.output_eq hlen fun k hk => (hread k).trans (if_pos hk)
  · exact (hread a).trans (if_neg (by omega))

/-- A data command whose engine raises ends in that error (R98, R204). -/
theorem fails_of_raise {i : Instr} {w : Word} {engine : State → Run State} {s u : State} {e : CodecError}
    (hi : exec i s = .next (dataCommand w engine s)) (hin : s.inLen.toNat ≤ s.params.inCap)
    (hr : engine ((s.start w).prologue.setPhase .check) = .error (e, u)) : Fails i s e := by
  have he : exec i s = .next (u.errorEntry e) := by rw [hi, dataCommand_of_fits w engine hin, hr, complete_error]
  exact ⟨_, he, rfl, statusOfError_eq e, rfl, exec_kept he⟩

end Sys2Proof.Machine
end

section
/-! O35, O36: `HUF_PACK` writes `HufEncode` of its input when it fits (R135, R141) and raises `CapacityError` when it does
not (R207). -/

namespace Sys2Proof.Machine

/-! ### Transient updates beside the output -/

/-- An update of transient fields can be made before a run is appended. -/
theorem State.pushAll_update (f : State → State) (bs : List Byte) (s : State)
    (hf : ∀ b s, f (State.push b s) = (f s).push b := by exact fun _ _ => rfl) : f (s.pushAll bs) = (f s).pushAll bs := by
  induction bs generalizing s with
  | nil => rfl
  | cons b bs ih => rw [State.pushAll_cons, State.pushAll_cons, ih, hf]

/-- `IPOS` after `n` more bytes of input (R22). -/
def State.skip (n : Nat) (s : State) : State := { s with ipos := s.ipos + n }

@[simp] theorem State.skip_code (n : Nat) (s : State) : (s.skip n).code = s.code := rfl

theorem State.skip_skip (m n : Nat) (s : State) : (s.skip m).skip n = s.skip (m + n) := by
  simp only [State.skip, Nat.add_assoc]

theorem State.packed_skip (bits : List Bool) (n : Nat) (s : State) : (s.packed bits).skip n = (s.skip n).packed bits := by
  simp only [State.packed, ← State.pushAll_update (State.skip n)]
  rfl

@[simp] theorem State.packed_code (bits : List Bool) (s : State) : (s.packed bits).code = s.code := by
  rw [State.packed, State.pushAll_frame]

@[simp] theorem State.pushAll_code (bs : List Byte) (s : State) : (s.pushAll bs).code = s.code := by
  rw [State.pushAll_frame]

@[simp] theorem State.pushAll_acc (bs : List Byte) (s : State) : (s.pushAll bs).acc = s.acc := by
  rw [State.pushAll_frame]

@[simp] theorem State.pushAll_nbits (bs : List Byte) (s : State) : (s.pushAll bs).nbits = s.nbits := by
  rw [State.pushAll_frame]

@[simp] theorem State.pushAll_freq (bs : List Byte) (s : State) : (s.pushAll bs).freq = s.freq := by
  rw [State.pushAll_frame]

@[simp] theorem State.pushAll_input (bs : List Byte) (s : State) : (s.pushAll bs).input = s.input := by
  rw [State.pushAll_frame]
  exact State.input_congr rfl rfl rfl

/-! ### The header -/

/-- The bytes of one table entry (R67, R136). -/
def entryBytes (e : Endian) (freq : Table Nat) (v : Byte) : List Byte := v :: int32Bytes e (BitVec.ofNat 32 (freq.get v))

theorem emitEntry_delivers (v : Byte) (s : State) :
    Delivers s (s.pushAll (entryBytes s.params.endian s.freq v)) (emitEntry s v) :=
  (outByte_delivers v s).bind (writeInt32_delivers (s.freq.get v) (s.push v))

theorem emitEntries_delivers (vs : List Byte) (s : State) :
    Delivers s (s.pushAll (vs.flatMap (entryBytes s.params.endian s.freq))) (vs.foldlM emitEntry s) := by
  induction vs generalizing s with
  | nil => exact .pure s
  | cons v vs ih =>
    have hrest := ih (s.pushAll (entryBytes s.params.endian s.freq v))
    rw [State.pushAll_params, State.pushAll_freq, ← State.pushAll_append] at hrest
    exact (emitEntry_delivers v s).bind hrest

/-- The bytes of the header (R66, R67). -/
def headerBytes (e : Endian) (freq : Table Nat) : List Byte :=
  int32Bytes e (BitVec.ofNat 32 (symbols freq).length) ++ (symbols freq).flatMap (entryBytes e freq)

theorem headerOutPhase_delivers {s : State} (hn : s.nsym = (symbols s.freq).length) :
    Delivers s ((s.setPhase .hHeaderOut).pushAll (headerBytes s.params.endian s.freq)) (headerOutPhase s) := by
  have h := (writeInt32_delivers s.nsym (s.setPhase .hHeaderOut)).bind
    (f := fun t => (symbols t.freq).foldlM emitEntry t) (emitEntries_delivers _ _)
  rw [State.pushAll_params, State.pushAll_freq, ← State.pushAll_append] at h
  rw [headerBytes, ← hn]
  exact h.after

/-! ### The payload and the trailer -/

theorem encodeByte_delivers (bits : List Bool) (v : Byte) (s : State) :
    Delivers (s.packed bits) ((s.skip 1).packed (bits ++ s.code.get v)) (encodeByte (s.packed bits) v) := by
  have h := (putBits_delivers bits (s.code.get v) s).thenUpdate (State.skip 1)
  rw [State.packed_skip] at h
  rw [encodeByte, State.packed_code]
  exact h

/-- The encode loop puts the code stream (R68, R137). -/
theorem encodeBytes_delivers (bits : List Bool) (bytes : List Byte) (s : State) :
    Delivers (s.packed bits) ((s.skip bytes.length).packed (bits ++ payloadBits s.code bytes))
      (bytes.foldlM encodeByte (s.packed bits)) := by
  induction bytes generalizing bits s with
  | nil => rw [payloadBits, List.flatMap_nil, List.append_nil]; exact .pure _
  | cons v bytes ih =>
    have hrest := ih (bits ++ s.code.get v) (s.skip 1)
    rw [State.skip_skip, Nat.add_comm 1, State.skip_code, List.append_assoc] at hrest
    exact (encodeByte_delivers bits v s).bind hrest

/-- The bytes of the payload and the padding count (R68, R69). -/
def payloadBytes (bits : List Bool) : List Byte := packBits (padded bits) ++ [BitVec.ofNat 8 (padBits bits)]

theorem emitTrailer_delivers {bits : List Bool} {s : State} (hacc : s.acc = 0) (hn : s.nbits = 0) :
    Delivers (s.packed bits) (s.pushAll (payloadBytes bits)) (emitTrailer (s.packed bits)) := by
  rw [payloadBytes, State.pushAll_append]
  exact .flushBits_bind hacc hn (outByte_delivers _ _)

theorem encodePhase_delivers {s : State} (hacc : s.acc = 0) (hn : s.nbits = 0) :
    Delivers s (((s.setPhase .hEncode).skip s.input.length).pushAll (payloadBytes (payloadBits s.code s.input)))
      (encodePhase s) := by
  have hbits := encodeBytes_delivers [] s.input (s.setPhase .hEncode)
  rw [State.packed_nil (s := s.setPhase .hEncode) hacc hn] at hbits
  exact (hbits.bind (emitTrailer_delivers hacc hn)).after

/-! ### The command -/

/-- `HUF_PACK` with its tables made, before it writes (R135). -/
def hufCoded (s : State) : State := codesPhase (buildPhase (countPhase s))

theorem hufPackEngine_eq (s : State) : hufPackEngine s = (headerOutPhase (hufCoded s) >>= encodePhase) := rfl

/-- What `HUF_PACK` leaves beside the output: the tables, the phase and `IPOS` (R22, R102). -/
def hufPacked (s : State) : State := ((hufCoded s).setPhase .hEncode).skip s.input.length

theorem hufEncode_eq (e : Endian) (bytes : List Byte) : hufEncode e bytes
    = headerBytes e (countBytes noCounts bytes)
      ++ payloadBytes (payloadBits (codeTable (countBytes noCounts bytes)) bytes) := by
  simp only [hufEncode, headerBytes, payloadBytes, padded, padBits, List.append_assoc]
  rfl

/-- `HUF_PACK` from an emptied block (R97). -/
theorem hufPackEngine_delivers {s : State} (hacc : s.acc = 0) (hn : s.nbits = 0) (hfreq : s.freq = noCounts)
    (hcode : s.code = Vector.replicate 256 []) :
    Delivers s ((hufPacked s).pushAll (hufEncode s.params.endian s.input)) (hufPackEngine s) := by
  have hheader : Delivers (hufCoded s) _ (headerOutPhase (hufCoded s)) := headerOutPhase_delivers rfl
  have hpayload := encodePhase_delivers
    (s := ((hufCoded s).setPhase .hHeaderOut).pushAll (headerBytes s.params.endian (countBytes s.freq s.input)))
    ((State.pushAll_acc _ _).trans hacc) ((State.pushAll_nbits _ _).trans hn)
  rw [State.pushAll_input, State.pushAll_code, State.pushAll_update (State.setPhase .hEncode),
    State.pushAll_update (State.skip _), ← State.pushAll_append] at hpayload
  have hcontainer : hufEncode s.params.endian s.input = headerBytes s.params.endian (countBytes s.freq s.input)
      ++ payloadBytes (payloadBits (hufCoded s).code s.input) := by
    rw [hufEncode_eq, ← hfreq, codeTable, ← hcode]
    rfl
  rw [hcontainer, hufPackEngine_eq]
  exact (hheader.bind hpayload).after

/-- `HUF_PACK` after its input check (R97, R101). -/
theorem hufPackEngine_delivers_issued (s : State) :
    Delivers ((s.start 1).prologue.setPhase .check)
      ((hufPacked ((s.start 1).prologue.setPhase .check)).pushAll (hufEncode s.params.endian s.input))
      (hufPackEngine ((s.start 1).prologue.setPhase .check)) :=
  hufPackEngine_delivers rfl rfl rfl rfl

/-- Settles O35: with room the engine appends the container, byte for byte. -/
theorem hufPackWritesTheContainer : Obligations.HufPackWritesTheContainer := by
  intro s hwf hin hroom
  have hfits : 0 + (hufEncode s.params.endian s.input).length ≤ s.params.outCap := by omega
  have hr := (hufPackEngine_delivers_issued s).ok (by rw [State.pushAll_opos]; exact hfits)
  exact succeeds_of_appended rfl hwf hin hr (Appended.trans (as := []) {} (Appended.pushAll hfits))

/-- Settles O36: without room some byte of the container is refused. -/
theorem hufPackWithoutRoomIsACapacityError : Obligations.HufPackWithoutRoomIsACapacityError := by
  intro s _ hin hfull
  have hlong : s.params.outCap < 0 + (hufEncode s.params.endian s.input).length := by omega
  obtain ⟨u, hu⟩ := (hufPackEngine_delivers_issued s).error (Nat.zero_le _) (by rw [State.pushAll_opos]; exact hlong)
  exact fails_of_raise rfl hin hu

end Sys2Proof.Machine
end

section
/-! O38, O39: the header, table and trailer checks of `HUF_UNPACK` (R151 to R153, R203, R205). Each reader either reaches
the state its rule names or ends in `FormatError`, and the sequence of them checks `containerOk`. -/

namespace Sys2Proof.Machine

/-! ### A sequence of checks -/

/-- The piece makes the check `p`: it ends in `t` when `p` holds and in `FormatError` when not (R205). -/
structure Checks (p : Prop) (t : State) (r : Run State) : Prop where
  ok : p → r = .ok t
  error : ¬ p → ∃ u, r = .error (.format, u)

theorem Checks.congr {p q : Prop} {t : State} {r : Run State} (hpq : p ↔ q) (h : Checks p t r) : Checks q t r :=
  ⟨fun hq => h.ok (hpq.mpr hq), fun hq => h.error (mt hpq.mp hq)⟩

/-- The second check is made only where the first one passes. -/
theorem Checks.bind {p q : Prop} {t u : State} {x : Run State} {f : State → Run State} (hx : Checks p t x)
    (hf : p → Checks q u (f t)) : Checks (p ∧ q) u (x >>= f) where
  ok := fun ⟨hp, hq⟩ => Run.bind_ok.mpr ⟨t, hx.ok hp, (hf hp).ok hq⟩
  error := fun hpq => by
    by_cases hp : p
    · obtain ⟨v, hv⟩ := (hf hp).error fun hq => hpq ⟨hp, hq⟩
      exact ⟨v, Run.bind_error.mpr (.inr ⟨t, hx.ok hp, hv⟩)⟩
    · obtain ⟨v, hv⟩ := hx.error hp
      exact ⟨v, Run.bind_error.mpr (.inl hv)⟩

/-! ### The checks of a container, by the reader that makes them -/

/-- `symbolCount` is in range and leaves room for the table and the trailer (R151). -/
def countOk (s : State) : Prop :=
  0 ≤ containerCount s ∧ containerCount s ≤ 256 ∧ 4 + 5 * (containerCount s).toNat + 1 ≤ s.inLen.toNat

/-- `paddingBitCount` is below 8, and 0 when there is no payload (R153). -/
def paddingCountOk (s : State) : Prop :=
  containerPadding s < 8 ∧ (s.inLen.toNat = 4 + 5 * (containerCount s).toNat + 1 → containerPadding s = 0)

/-- Entry `k` of the table has a positive frequency and repeats no symbol before it (R152). -/
def entryOk (s : State) (k : Nat) : Prop :=
  1 ≤ entryFrequency s k ∧ ∀ j, j < k → entrySymbol s j ≠ entrySymbol s k

theorem containerOk_iff (s : State) : containerOk s = true ↔
    (countOk s ∧ paddingCountOk s) ∧ ∀ k, k < (containerCount s).toNat → entryOk s k := by
  simp only [containerOk, decide_eq_true_eq, countOk, paddingCountOk, entryOk]
  constructor
  · rintro ⟨hlow, hhigh, hroom, hpad, hzero, hfreq, hdistinct⟩
    exact ⟨⟨⟨hlow, hhigh, hroom⟩, hpad, hzero⟩, fun k hk => ⟨hfreq k hk, hdistinct k hk⟩⟩
  · rintro ⟨⟨⟨hlow, hhigh, hroom⟩, hpad, hzero⟩, hentry⟩
    exact ⟨hlow, hhigh, hroom, hpad, hzero, fun k hk => (hentry k hk).1, fun k hk => (hentry k hk).2⟩

/-! ### The frequency table after some entries -/

/-- `FREQ` after the first `k` entries of the table (R152). -/
def tableOfEntries (s : State) (k : Nat) : Table Nat :=
  (List.range k).foldl (fun t k => t.set (entrySymbol s k) (entryFrequency s k).toNat) noCounts

theorem containerTable_eq (s : State) : containerTable s = tableOfEntries s (containerCount s).toNat := rfl

theorem tableOfEntries_succ (s : State) (k : Nat) :
    tableOfEntries s (k + 1) = (tableOfEntries s k).set (entrySymbol s k) (entryFrequency s k).toNat := by
  rw [tableOfEntries, List.range_succ, List.foldl_concat, ← tableOfEntries]

/-- The nonzero entries of `FREQ` are the symbols read so far (R152). -/
theorem tableOfEntries_get_eq_zero {s : State} {k : Nat} (h : ∀ j, j < k → entryOk s j) (v : Byte) :
    (tableOfEntries s k).get v = 0 ↔ ∀ j, j < k → entrySymbol s j ≠ v := by
  induction k with
  | zero => simp [tableOfEntries, noCounts]
  | succ k ih =>
    have hfreq : (entryFrequency s k).toNat ≠ 0 := by
      have hpos := (h k k.lt_succ_self).1
      omega
    rw [tableOfEntries_succ, Table.get_set]
    split
    · next hv => exact iff_of_false hfreq fun hall => hall k k.lt_succ_self hv.symm
    · next hv =>
      rw [ih fun j hj => h j (hj.trans k.lt_succ_self), Nat.forall_lt_succ_right]
      exact ⟨fun hall => ⟨hall, fun heq => hv heq.symm⟩, And.left⟩

/-! ### The readers -/

theorem takeSymbolCount_checks (n : Int) (s : State) :
    Checks (0 ≤ n ∧ n ≤ 256 ∧ 4 + 5 * n.toNat + 1 ≤ s.inLen.toNat)
      { s with
        nsym := n.toNat, pbase := 4 + 5 * n.toNat, pbytes := s.inLen.toNat - 1 - (4 + 5 * n.toNat)
        reader := .paddingCount }
      (takeSymbolCount n s) where
  ok := fun ⟨hlow, hhigh, hroom⟩ => takeSymbolCount_of_legal hlow hhigh hroom
  error := fun hbad => (takeSymbolCount_spec n s).elim (fun he => ⟨s, he⟩)
    fun ⟨hlow, hhigh, hroom, _⟩ => absurd ⟨hlow, hhigh, hroom⟩ hbad

theorem takePaddingCount_checks (p : Byte) (s : State) :
    Checks (p.toNat < 8 ∧ (s.pbytes = 0 → p.toNat = 0))
      { s with pad := p.toNat, useful := s.pbytes * 8 - p.toNat, reader := .tableEntries } (takePaddingCount p s) where
  ok := fun ⟨hp, hz⟩ => takePaddingCount_of_legal hp fun hb => BitVec.eq_of_toNat_eq (hz hb)
  error := fun hbad => (takePaddingCount_spec p s).elim (fun he => ⟨s, he⟩) fun ⟨hp, hz, _⟩ => absurd ⟨hp, hz⟩ hbad

theorem takeTableEntry_checks (v : Byte) (c : Int) (s : State) :
    Checks (s.freq.get v = 0 ∧ 1 ≤ c) { s with freq := s.freq.set v c.toNat } (takeTableEntry v c s) where
  ok := fun ⟨hv, hc⟩ => takeTableEntry_of_legal hv hc
  error := fun hbad => (takeTableEntry_spec v c s).elim (fun he => ⟨s, he⟩) fun ⟨hv, hc, _⟩ => absurd ⟨hv, hc⟩ hbad

/-- The header reader after `symbolCount` (R151). -/
def State.countRead (s : State) : State :=
  { s with
    phase := .hHeaderIn, reader := .paddingCount, ipos := 4
    nsym := (containerCount s).toNat, pbase := 4 + 5 * (containerCount s).toNat
    pbytes := s.inLen.toNat - 1 - (4 + 5 * (containerCount s).toNat) }

@[simp] theorem State.countRead_pbytes (s : State) :
    s.countRead.pbytes = s.inLen.toNat - 1 - (4 + 5 * (containerCount s).toNat) := rfl

/-- The header reader after `paddingBitCount` and `k` table entries (R152, R153). -/
def State.headerRead (k : Nat) (s : State) : State :=
  { s.countRead with
    reader := .tableEntries, ipos := 4 + 5 * k, pad := containerPadding s
    useful := (s.inLen.toNat - 1 - (4 + 5 * (containerCount s).toNat)) * 8 - containerPadding s
    freq := tableOfEntries s k }

@[simp] theorem State.headerRead_inLen (k : Nat) (s : State) : (s.headerRead k).inLen = s.inLen := rfl

@[simp] theorem State.headerRead_freq (k : Nat) (s : State) : (s.headerRead k).freq = tableOfEntries s k := rfl

@[simp] theorem State.headerRead_code (k : Nat) (s : State) : (s.headerRead k).code = s.code := rfl

theorem State.headerRead_zero {s : State} (hfreq : s.freq = noCounts) :
    s.headerRead 0 = { s.countRead with
      pad := containerPadding s, useful := s.countRead.pbytes * 8 - containerPadding s, reader := .tableEntries } := by
  have htable : tableOfEntries s 0 = s.freq := hfreq.symm
  rw [State.headerRead, htable]
  rfl

theorem takePaddingCount_checks_container {s : State} (hcount : countOk s) (hfreq : s.freq = noCounts) :
    Checks (paddingCountOk s) (s.headerRead 0) (takePaddingCount (s.inByte (s.inLen.toNat - 1)) s.countRead) := by
  obtain ⟨-, -, hroom⟩ := hcount
  have hempty : s.countRead.pbytes = 0 ↔ s.inLen.toNat = 4 + 5 * (containerCount s).toNat + 1 := by
    rw [State.countRead_pbytes]
    omega
  rw [State.headerRead_zero hfreq, paddingCountOk, ← hempty]
  exact takePaddingCount_checks (s.inByte (s.inLen.toNat - 1)) s.countRead

theorem parseHeader_checks {s : State} (hlen : 4 ≤ s.inLen.toNat) (hfreq : s.freq = noCounts) :
    Checks (countOk s ∧ paddingCountOk s) (s.headerRead 0) (parseHeader (s.setPhase .hHeaderIn)) := by
  have hread : readInt32 0 (s.setPhase .hHeaderIn) = .ok (containerCount s) := readInt32_ok hlen
  have htake : Checks (countOk s) s.countRead
      (takeSymbolCount (containerCount s) (passSymbolCount (s.setPhase .hHeaderIn))) :=
    takeSymbolCount_checks (containerCount s) (passSymbolCount (s.setPhase .hHeaderIn))
  rw [parseHeader, hread]
  exact htake.bind fun hcount => takePaddingCount_checks_container hcount hfreq

theorem loadEntry_checks {s : State} {k : Nat} (hcount : countOk s) (hk : k < (containerCount s).toNat)
    (h : ∀ j, j < k → entryOk s j) : Checks (entryOk s k) (s.headerRead (k + 1)) (loadEntry (s.headerRead k)) := by
  obtain ⟨-, -, hroom⟩ := hcount
  have haddr : 5 + 5 * k = 4 + 5 * k + 1 := by omega
  have hread : readInt32 (4 + 5 * k + 1) (s.headerRead k) = .ok (entryFrequency s k) := by
    rw [entryFrequency, haddr]
    exact readInt32_ok (by rw [State.headerRead_inLen]; omega)
  have hfresh : (tableOfEntries s k).get (entrySymbol s k) = 0 ∧ 1 ≤ entryFrequency s k ↔ entryOk s k := by
    rw [tableOfEntries_get_eq_zero h, entryOk, and_comm]
  have htake := takeTableEntry_checks (entrySymbol s k) (entryFrequency s k) (passTableEntry (s.headerRead k))
  have hstep : loadEntry (s.headerRead k)
      = takeTableEntry (entrySymbol s k) (entryFrequency s k) (passTableEntry (s.headerRead k)) :=
    congrArg (· >>= fun c => takeTableEntry (entrySymbol s k) c (passTableEntry (s.headerRead k))) hread
  rw [hstep, State.headerRead, tableOfEntries_succ]
  exact htake.congr hfresh

theorem loadTable_checks {s : State} (hcount : countOk s) {m k : Nat} (hk : k + m = (containerCount s).toNat)
    (h : ∀ j, j < k → entryOk s j) :
    Checks (∀ j, j < k + m → entryOk s j) (s.headerRead (k + m)) (loadTable m (s.headerRead k)) := by
  induction m generalizing k with
  | zero => exact ⟨fun _ => rfl, fun hbad => absurd h hbad⟩
  | succ m ih =>
    have hnext : ∀ hentry : entryOk s k, ∀ j, j < k + 1 → entryOk s j := fun hentry =>
      Nat.forall_lt_succ_right.mpr ⟨h, hentry⟩
    have hrest := fun hentry => ih (k := k + 1) (by omega) (hnext hentry)
    rw [Nat.add_right_comm, Nat.add_assoc] at hrest
    exact ((loadEntry_checks hcount (by omega) h).bind hrest).congr ⟨And.right, fun hall => ⟨hall k (by omega), hall⟩⟩

/-- The header phase checks the container (R205). -/
theorem headerInPhase_checks {s : State} (hlen : 4 ≤ s.inLen.toNat) (hfreq : s.freq = noCounts) :
    Checks (containerOk s = true) (s.headerRead (containerCount s).toNat) (headerInPhase s) := by
  refine ((parseHeader_checks hlen hfreq).bind fun ⟨hcount, _⟩ => ?_).congr (containerOk_iff s).symm
  have htable := loadTable_checks hcount (Nat.zero_add _) fun j hj => absurd hj j.not_lt_zero
  rwa [Nat.zero_add] at htable

/-! ### The command -/

/-- `HUF_UNPACK` after its input check, in the emptied block (R97, R101). -/
def hufUnpackIssued (s : State) : State := (s.start 2).prologue.setPhase .check

theorem hufUnpackIssued_inByte (s : State) (a : Nat) : (hufUnpackIssued s).inByte a = s.inByte a :=
  State.inByte_congr rfl rfl a

/-- The container is the same before and after the input check: it is what stands in `IN` (R42). -/
theorem hufUnpackIssued_container (s : State) : containerOk (hufUnpackIssued s) = containerOk s
    ∧ containerTable (hufUnpackIssued s) = containerTable s ∧ containerBits (hufUnpackIssued s) = containerBits s := by
  have hparams : (hufUnpackIssued s).params = s.params := rfl
  have hlen : (hufUnpackIssued s).inLen = s.inLen := rfl
  have hword : int32At (hufUnpackIssued s) = int32At s := funext fun a => by
    simp only [int32At, hufUnpackIssued_inByte, hparams]
  refine ⟨Bool.eq_iff_iff.mpr ?_, ?_, ?_⟩
  · rw [containerOk_iff, containerOk_iff]
    simp only [countOk, paddingCountOk, entryOk, containerCount, containerPadding, entryFrequency, entrySymbol, hword,
      hufUnpackIssued_inByte, hlen]
  · simp only [containerTable, containerCount, entryFrequency, entrySymbol, hword, hufUnpackIssued_inByte]
  · simp only [containerBits, containerCount, containerPadding, hword, hufUnpackIssued_inByte, hlen]

/-- Settles O38: the first `readInt32` finds fewer than four bytes. -/
theorem hufUnpackOfAStubIsAnIoError : Obligations.HufUnpackOfAStubIsAnIoError := by
  intro s hin hlen
  have hread : readInt32 0 ((hufUnpackIssued s).setPhase .hHeaderIn) = .error (.io, _) := readInt32_error hlen
  have hheader : headerInPhase (hufUnpackIssued s) = .error (.io, _) :=
    Run.bind_error.mpr (.inl (Run.bind_error.mpr (.inl hread)))
  exact fails_of_raise rfl hin (Run.bind_error.mpr (.inl hheader))

/-- Settles O39: the header phase makes exactly the checks of `containerOk`. -/
theorem hufUnpackOfABadHeaderIsAFormatError : Obligations.HufUnpackOfABadHeaderIsAFormatError := by
  intro s hin hlen hbad
  obtain ⟨hissued, -, -⟩ := hufUnpackIssued_container s
  obtain ⟨u, hu⟩ := (headerInPhase_checks (s := hufUnpackIssued s) hlen rfl).error (by simp [hissued, hbad])
  exact fails_of_raise rfl hin (Run.bind_error.mpr (.inl hu))

end Sys2Proof.Machine
end

section
/-! O40 to O42: the decode loop of `HUF_UNPACK` (R155, R156) reads one code after the other, because no code begins with
another one (R127): it appends the byte of each code, and what is left over is read without a match. -/

namespace Sys2Proof.Machine

/-! ### The code table as a parser -/

theorem codeTable_ne_nil {freq : Table Nat} {v : Byte} : (codeTable freq).get v ≠ [] ↔ 0 < freq.get v :=
  (codeTableIsPrefixFreeAndComplete freq).1 v

theorem symbols_length_le (freq : Table Nat) : (symbols freq).length ≤ 256 :=
  (List.length_filter_le _ _).trans_eq (by rw [allBytes, List.length_map, List.length_range])

theorem codeTable_length_le (freq : Table Nat) (v : Byte) : ((codeTable freq).get v).length ≤ 255 := by
  obtain ⟨-, hlen, -⟩ := codeTableIsPrefixFreeAndComplete freq
  have hsym := symbols_length_le freq
  have hv := hlen v
  omega

/-- A code begins with no other symbol's code (R127). -/
theorem eq_of_codeTable_prefix {freq : Table Nat} {v w : Byte} (hv : 0 < freq.get v)
    (h : (codeTable freq).get v <+: (codeTable freq).get w) : v = w := by
  obtain ⟨-, -, hfree, -⟩ := codeTableIsPrefixFreeAndComplete freq
  have hw : 0 < freq.get w := codeTable_ne_nil.mp fun hnil =>
    codeTable_ne_nil.mpr hv (List.prefix_nil.mp (hnil ▸ h))
  exact by_contra fun hne => hfree v w hv hw hne h

/-- The candidate that is a symbol's code matches that symbol (R155). -/
theorem matchCode_code {freq : Table Nat} {v : Byte} (hv : 0 < freq.get v) :
    matchCode (codeTable freq) ((codeTable freq).get v) = some v := by
  cases hm : matchCode (codeTable freq) ((codeTable freq).get v) with
  | some w =>
    have hw := List.find?_some hm
    rw [beq_iff_eq] at hw
    rw [eq_of_codeTable_prefix hv (by rw [hw])]
  | none => exact absurd (beq_self_eq_true _) (List.find?_eq_none.mp hm v (mem_allBytes v))

/-- A candidate that is no symbol's code matches nothing (R155). -/
theorem matchCode_eq_none {freq : Table Nat} {cand : List Bool} (hne : cand ≠ [])
    (h : ∀ v, 0 < freq.get v → (codeTable freq).get v ≠ cand) : matchCode (codeTable freq) cand = none :=
  List.find?_eq_none.mpr fun v _ hv => by
    obtain rfl := eq_of_beq hv
    exact h v (codeTable_ne_nil.mp hne) rfl

theorem payloadBits_cons (code : Table (List Bool)) (v : Byte) (out : List Byte) :
    payloadBits code (v :: out) = code.get v ++ payloadBits code out := List.flatMap_cons

/-- Every bit sequence is a run of codes and a rest that begins with no code (R155, R156). -/
theorem exists_parse (freq : Table Nat) (bits : List Bool) : ∃ out rest, allSymbols freq out
    ∧ bits = payloadBits (codeTable freq) out ++ rest ∧ ∀ v, 0 < freq.get v → ¬ (codeTable freq).get v <+: rest := by
  by_cases h : ∃ v, 0 < freq.get v ∧ (codeTable freq).get v <+: bits
  · obtain ⟨v, hv, more, hbits⟩ := h
    have hpos : 0 < ((codeTable freq).get v).length := List.length_pos_iff.mpr (codeTable_ne_nil.mpr hv)
    have hlt : more.length < bits.length := by rw [← hbits, List.length_append]; omega
    obtain ⟨out, rest, hall, hmore, hrest⟩ := exists_parse freq more
    exact ⟨v :: out, rest, List.forall_mem_cons.mpr ⟨hv, hall⟩,
      by rw [payloadBits_cons, List.append_assoc, ← hmore, hbits], hrest⟩
  · exact ⟨[], bits, fun _ hv => absurd hv List.not_mem_nil, rfl, fun v hv hp => h ⟨v, hv, hp⟩⟩
termination_by bits.length

/-! ### The bits ahead of the decode loop -/

/-- The next `n` payload bits (R87, R155). -/
def State.nextBits (n : Nat) (s : State) : List Bool := (List.range' s.bitpos n).map (getBit s s.pbase)

/-- `BITPOS` moved past `n` bits (R29). -/
def State.pastBits (n : Nat) (s : State) : State := { s with bitpos := s.bitpos + n }

@[simp] theorem State.nextBits_zero (s : State) : s.nextBits 0 = [] := rfl

@[simp] theorem State.takeBit_code (s : State) : s.takeBit.code = s.code := rfl

theorem State.takeBit_cand_ne_nil (s : State) : s.takeBit.cand ≠ [] := List.append_ne_nil_of_right_ne_nil _ (by simp)

/-- Reading a bit moves it from the payload to the candidate (R155). -/
theorem State.takeBit_cand_append (n : Nat) (s : State) :
    s.takeBit.cand ++ s.takeBit.nextBits n = s.cand ++ s.nextBits (n + 1) := by
  rw [State.nextBits, State.nextBits, List.range'_succ, List.map_cons, List.append_cons]
  rfl

theorem State.takeBit_pastBits (n : Nat) (s : State) :
    s.takeBit.pastBits n = { s.pastBits (n + 1) with cand := s.takeBit.cand } := by
  simp only [State.pastBits, State.takeBit, Nat.add_assoc, Nat.add_comm 1]

@[simp] theorem State.pastBits_code (n : Nat) (s : State) : (s.pastBits n).code = s.code := rfl
@[simp] theorem State.pastBits_cand (n : Nat) (s : State) : (s.pastBits n).cand = s.cand := rfl

theorem State.pastBits_pastBits (m n : Nat) (s : State) : (s.pastBits m).pastBits n = s.pastBits (m + n) := by
  simp only [State.pastBits, Nat.add_assoc]

theorem State.pastBits_push (n : Nat) (b : Byte) (s : State) : (s.push b).pastBits n = (s.pastBits n).push b := rfl

@[simp] theorem State.nextBits_length (n : Nat) (s : State) : (s.nextBits n).length = n := by
  rw [State.nextBits, List.length_map, List.length_range']

theorem State.nextBits_add (m n : Nat) (s : State) :
    s.nextBits (m + n) = s.nextBits m ++ (s.pastBits m).nextBits n := by
  rw [State.nextBits, ← List.range'_append_1, List.map_append]
  rfl

/-! ### Turns of the decode loop -/

/-- `n` turns of the decode loop (R155). -/
def readBits : Nat → State → Run State
  | 0, s => .ok s
  | n + 1, s => decodeBit s >>= readBits n

theorem readBits_add (m n : Nat) (s : State) : readBits (m + n) s = readBits m s >>= readBits n := by
  induction m generalizing s with
  | zero => rw [Nat.zero_add]; rfl
  | succ m ih => rw [Nat.succ_add, readBits, funext ih, ← bind_assoc]; rfl

/-- The loop is its turns and the check for a dangling fragment after them (R155, R156). -/
theorem decodeBits_add (m n : Nat) (s : State) : decodeBits (m + n) s = readBits m s >>= decodeBits n := by
  induction m generalizing s with
  | zero => rw [Nat.zero_add]; rfl
  | succ m ih => rw [Nat.succ_add, decodeBits, funext ih, ← bind_assoc]; rfl

theorem decodeBit_of_short {s : State} (h : matchCode s.takeBit.code s.takeBit.cand = none)
    (hlen : s.takeBit.cand.length < 255) : decodeBit s = .ok s.takeBit := by
  rw [decodeBit_of_no_match h, if_neg hlen.ne]

section
variable {freq : Table Nat} {s : State}

/-- The turns over the rest of a symbol's code append the symbol and empty the candidate (R155). -/
theorem readBits_restOfCode {v : Byte} {n : Nat} (hcode : s.code = codeTable freq) (hv : 0 < freq.get v)
    (h : s.cand ++ s.nextBits (n + 1) = (codeTable freq).get v) :
    Delivers s { (s.pastBits (n + 1)).push v with cand := [] } (readBits (n + 1) s) := by
  induction n generalizing s with
  | zero =>
    rw [← s.takeBit_cand_append, State.nextBits_zero, List.append_nil] at h
    have hm : matchCode s.takeBit.code s.takeBit.cand = some v := by
      rw [State.takeBit_code, hcode, h, matchCode_code hv]
    rw [readBits, decodeBit_of_match hm]
    have hout := (outByte_delivers v s.takeBit).thenUpdate (fun t => { t with cand := [] })
    exact (hout.bind (.pure _)).after
  | succ n ih =>
    rw [← s.takeBit_cand_append] at h
    have hlen : s.takeBit.cand.length + (n + 1) = ((codeTable freq).get v).length := by
      rw [← h, List.length_append, State.nextBits_length]
    have hle := codeTable_length_le freq v
    have hm : matchCode s.takeBit.code s.takeBit.cand = none := by
      rw [State.takeBit_code, hcode]
      refine matchCode_eq_none s.takeBit_cand_ne_nil fun w hw heq => ?_
      obtain rfl : w = v := eq_of_codeTable_prefix hw ⟨_, heq ▸ h⟩
      rw [heq] at hlen
      omega
    have hrest := ih (s := s.takeBit) hcode h
    rw [State.takeBit_pastBits] at hrest
    rw [readBits, decodeBit_of_short hm (by omega)]
    exact hrest.after

/-- The turns over a symbol's code append the symbol (R155). -/
theorem readBits_code {v : Byte} (hcode : s.code = codeTable freq) (hcand : s.cand = []) (hv : 0 < freq.get v)
    (h : s.nextBits ((codeTable freq).get v).length = (codeTable freq).get v) :
    Delivers s ((s.pastBits ((codeTable freq).get v).length).push v) (readBits ((codeTable freq).get v).length s) := by
  obtain ⟨n, hn⟩ : ∃ n, ((codeTable freq).get v).length = n + 1 :=
    Nat.exists_eq_succ_of_ne_zero (mt List.eq_nil_of_length_eq_zero (codeTable_ne_nil.mpr hv))
  rw [hn] at h ⊢
  have hread := readBits_restOfCode hcode hv (by rw [hcand, List.nil_append, h])
  rw [← hcand] at hread
  exact hread

/-- The turns over a run of codes append its bytes (R155). -/
theorem readBits_payload {out : List Byte} (hcode : s.code = codeTable freq) (hcand : s.cand = [])
    (hall : allSymbols freq out)
    (h : s.nextBits (payloadBits (codeTable freq) out).length = payloadBits (codeTable freq) out) :
    Delivers s ((s.pastBits (payloadBits (codeTable freq) out).length).pushAll out)
      (readBits (payloadBits (codeTable freq) out).length s) := by
  induction out generalizing s with
  | nil => exact .pure s
  | cons v out ih =>
    obtain ⟨hv, hall⟩ := List.forall_mem_cons.mp hall
    rw [payloadBits_cons, List.length_append, State.nextBits_add] at h
    obtain ⟨hfirst, hrest⟩ := List.append_inj h (State.nextBits_length _ s)
    have hbytes := ih (s := (s.pastBits ((codeTable freq).get v).length).push v)
      (by rw [State.push_code, State.pastBits_code, hcode]) (by rw [State.push_cand, State.pastBits_cand, hcand]) hall hrest
    rw [State.pastBits_push, State.pastBits_pastBits, ← State.pushAll_cons, ← List.length_append] at hbytes
    rw [payloadBits_cons, List.length_append, readBits_add, ← List.length_append]
    exact (readBits_code hcode hcand hv hfirst).bind hbytes

end

/-- Bits that begin with no code are read without a match, and the fragment they leave is refused (R156). -/
theorem decodeBits_dangling {freq : Table Nat} {s : State} {n : Nat} (hcode : s.code = codeTable freq)
    (hne : s.cand ++ s.nextBits n ≠ []) (h : ∀ v, 0 < freq.get v → ¬ (codeTable freq).get v <+: s.cand ++ s.nextBits n) :
    ∃ u, decodeBits n s = .error (.decode, u) := by
  induction n generalizing s with
  | zero =>
    rw [State.nextBits_zero, List.append_nil] at hne
    exact ⟨s, if_neg hne⟩
  | succ n ih =>
    rw [← s.takeBit_cand_append] at hne h
    have hm : matchCode s.takeBit.code s.takeBit.cand = none := by
      rw [State.takeBit_code, hcode]
      exact matchCode_eq_none s.takeBit_cand_ne_nil fun v hv heq => h v hv (heq ▸ List.prefix_append _ _)
    rw [decodeBits, decodeBit_of_no_match hm]
    split
    · exact ⟨_, rfl⟩
    · exact ih hcode hne h

/-! ### The command -/

/-- `H_DECODE` before its first bit (R155). -/
def State.startDecode (s : State) : State := { s with phase := .hDecode, cand := [], bitpos := 0 }

@[simp] theorem State.startDecode_code (s : State) : s.startDecode.code = s.code := rfl

/-- `HUF_UNPACK` with its header read and its tables made, before the first payload bit (R154, R155). -/
def hufUnpackCoded (s : State) : State :=
  (codesPhase (buildPhase ((hufUnpackIssued s).headerRead (containerCount (hufUnpackIssued s)).toNat))).startDecode

theorem codesPhase_buildPhase_code {s : State} (hcode : s.code = Vector.replicate 256 []) :
    (codesPhase (buildPhase s)).code = codeTable s.freq := by
  rw [codeTable, ← hcode]
  rfl

/-- The decoder's code table is the one of the stored frequencies (R154). -/
theorem hufUnpackCoded_code (s : State) : (hufUnpackCoded s).code = codeTable (containerTable s) := by
  obtain ⟨-, htable, -⟩ := hufUnpackIssued_container s
  have hempty : (hufUnpackIssued s).code = Vector.replicate 256 [] := rfl
  rw [hufUnpackCoded, State.startDecode_code, codesPhase_buildPhase_code (by rw [State.headerRead_code, hempty]),
    State.headerRead_freq, ← containerTable_eq, htable]

/-- The bits ahead are the meaningful payload bits; the padding is not among them (R157). -/
theorem hufUnpackCoded_nextBits (s : State) :
    (hufUnpackCoded s).nextBits (containerBits s).length = containerBits s := by
  obtain ⟨-, -, hbits⟩ := hufUnpackIssued_container s
  rw [← hbits, containerBits, List.length_map, List.length_range, List.range_eq_range']
  rfl

theorem hufUnpackEngine_of_containerOk {s : State} (hlen : 4 ≤ s.inLen.toNat) (hok : containerOk s = true) :
    hufUnpackEngine (hufUnpackIssued s) = decodeBits (containerBits s).length (hufUnpackCoded s) := by
  obtain ⟨hissued, -, hbits⟩ := hufUnpackIssued_container s
  have hheader := (headerInPhase_checks (s := hufUnpackIssued s) hlen rfl).ok (hissued.trans hok)
  rw [hufUnpackEngine, hheader, ← hbits, containerBits, List.length_map, List.length_range]
  rfl

/-- The decode loop after the codes of `out` (R155). -/
def hufUnpacked (s : State) (out : List Byte) : State :=
  ((hufUnpackCoded s).pastBits (payloadBits (codeTable (containerTable s)) out).length).pushAll out

@[simp] theorem hufUnpacked_code (s : State) (out : List Byte) :
    (hufUnpacked s out).code = codeTable (containerTable s) := by
  rw [hufUnpacked, State.pushAll_code, State.pastBits_code, hufUnpackCoded_code]

@[simp] theorem hufUnpacked_cand (s : State) (out : List Byte) : (hufUnpacked s out).cand = [] := by
  rw [hufUnpacked, State.pushAll_frame]
  rfl

theorem hufUnpacked_opos (s : State) (out : List Byte) : (hufUnpacked s out).opos = out.length :=
  (State.pushAll_opos _ _).trans (Nat.zero_add _)

section
variable {s : State} {out : List Byte} {rest : List Bool}

/-- The payload is cut where the codes of `out` end. -/
theorem nextBits_payload (hbits : containerBits s = payloadBits (codeTable (containerTable s)) out ++ rest) :
    (hufUnpackCoded s).nextBits (payloadBits (codeTable (containerTable s)) out).length
        = payloadBits (codeTable (containerTable s)) out
      ∧ (hufUnpacked s out).nextBits rest.length = rest := by
  have hnext := hufUnpackCoded_nextBits s
  rw [hbits, List.length_append, State.nextBits_add] at hnext
  rw [hufUnpacked, State.pushAll_frame]
  exact List.append_inj hnext (State.nextBits_length _ _)

/-- The engine first appends the bytes whose codes begin the payload, then reads the rest (R155). -/
theorem hufUnpackEngine_delivers (hlen : 4 ≤ s.inLen.toNat) (hok : containerOk s = true)
    (hall : allSymbols (containerTable s) out)
    (hbits : containerBits s = payloadBits (codeTable (containerTable s)) out ++ rest) :
    ∃ r, hufUnpackEngine (hufUnpackIssued s) = (r >>= decodeBits rest.length)
      ∧ Delivers (hufUnpackCoded s) (hufUnpacked s out) r := by
  obtain ⟨hcodes, -⟩ := nextBits_payload hbits
  refine ⟨_, ?_, readBits_payload (hufUnpackCoded_code s) rfl hall hcodes⟩
  rw [hufUnpackEngine_of_containerOk hlen hok, hbits, List.length_append, decodeBits_add]

theorem hufUnpackEngine_of_fits (hlen : 4 ≤ s.inLen.toNat) (hok : containerOk s = true)
    (hall : allSymbols (containerTable s) out)
    (hbits : containerBits s = payloadBits (codeTable (containerTable s)) out ++ rest)
    (hroom : out.length ≤ s.params.outCap) :
    hufUnpackEngine (hufUnpackIssued s) = decodeBits rest.length (hufUnpacked s out) := by
  obtain ⟨r, hengine, hr⟩ := hufUnpackEngine_delivers hlen hok hall hbits
  rw [hengine, hr.ok (by rw [hufUnpacked_opos]; exact hroom)]
  rfl

end

/-- Settles O40: after the codes of `out` no bit is left and the candidate is empty. -/
theorem hufUnpackDecodesThePayload : Obligations.HufUnpackDecodesThePayload := by
  intro s out hwf hin hlen hok hall hbits hroom
  have hrun : hufUnpackEngine (hufUnpackIssued s) = .ok (hufUnpacked s out) :=
    (hufUnpackEngine_of_fits (rest := []) hlen hok hall (by rw [hbits, List.append_nil]) hroom).trans
      (if_pos (hufUnpacked_cand s out))
  have hfits : 0 + out.length ≤ s.params.outCap := by omega
  exact succeeds_of_appended rfl hwf hin hrun (Appended.trans (as := []) {} (Appended.pushAll hfits))

/-- Settles O41: the longest run of codes at the front fits, and what follows it begins with no code. -/
theorem hufUnpackOfStrayBitsIsADecodeError : Obligations.HufUnpackOfStrayBitsIsADecodeError := by
  intro s _ hin hlen hok hstray hlong
  obtain ⟨out, rest, hall, hbits, hrest⟩ := exists_parse (containerTable s) (containerBits s)
  have hroom : out.length ≤ s.params.outCap := by
    by_contra hout
    have hprefix : payloadBits (codeTable (containerTable s)) (out.take (s.params.outCap + 1)) <+: containerBits s :=
      hbits ▸ ((List.take_prefix _ out).flatMap _).trans (List.prefix_append _ rest)
    exact hlong _ (fun v hv => hall v (List.mem_of_mem_take hv)) (List.length_take_of_le (by omega)) hprefix
  have hne : rest ≠ [] := fun hnil => hstray out hall (by rw [hbits, hnil, List.append_nil])
  have hahead : (hufUnpacked s out).cand ++ (hufUnpacked s out).nextBits rest.length = rest := by
    rw [hufUnpacked_cand, List.nil_append, (nextBits_payload hbits).2]
  obtain ⟨u, hu⟩ := decodeBits_dangling (hufUnpacked_code s out) (hahead.symm ▸ hne) (hahead.symm ▸ hrest)
  exact fails_of_raise rfl hin ((hufUnpackEngine_of_fits hlen hok hall hbits hroom).trans hu)

/-- Settles O42: the byte beyond `OUT_CAP` is refused. -/
theorem hufUnpackWithoutRoomIsACapacityError : Obligations.HufUnpackWithoutRoomIsACapacityError := by
  intro s out _ hin hlen hok hall hlong hprefix
  obtain ⟨rest, hbits⟩ := hprefix
  obtain ⟨r, hengine, hr⟩ := hufUnpackEngine_delivers hlen hok hall hbits.symm
  have hfull : s.params.outCap < out.length := by omega
  obtain ⟨u, hu⟩ := hr.error (Nat.zero_le _) (by rw [hufUnpacked_opos]; exact hfull)
  exact fails_of_raise rfl hin (hengine.trans (Run.bind_error.mpr (.inl hu)))

end Sys2Proof.Machine
end

section
/-! O43: `HUF_UNPACK` of the container `HUF_PACK` writes (R160). The container reads back field by field, so the decoder's
code table is the encoder's (R154) and its meaningful bits are the code stream (R88). -/

namespace Sys2Proof.Machine

/-! ### Reading the input back -/

theorem State.inByte_of_input {s : State} {a : Nat} {b : Byte} (h : s.input[a]? = some b) : s.inByte a = b := by
  obtain ⟨ha, rfl⟩ := List.getElem?_eq_some_iff.mp h
  simp [State.input]

/-- An int32 that stands in the input reads back (R64). -/
theorem int32At_of_input {s : State} {pre post : List Byte} {w : Word}
    (h : s.input = pre ++ (int32Bytes s.params.endian w ++ post)) : int32At s pre.length = w.toInt := by
  obtain ⟨b0, b1, b2, b3, hb, rfl⟩ := int32Bytes_eq s.params.endian w
  rw [hb] at h
  rw [int32At, State.inByte_of_input (b := b0) (by simp [h]), State.inByte_of_input (b := b1) (by simp [h]),
    State.inByte_of_input (b := b2) (by simp [h]), State.inByte_of_input (b := b3) (by simp [h])]

theorem toInt_ofNat_of_lt {n : Nat} (h : n < 2 ^ 31) : (BitVec.ofNat 32 n).toInt = n := by
  have hn : (BitVec.ofNat 32 n).toNat = n := by rw [BitVec.toNat_ofNat]; omega
  rw [BitVec.toInt_eq_toNat_of_lt (by omega), hn]

theorem Table.ext_get {α : Type} {t u : Table α} (h : ∀ v, t.get v = u.get v) : t = u :=
  Vector.ext fun i hi => by
    have hi' : (BitVec.ofNat 8 i).toNat = i := by rw [BitVec.toNat_ofNat]; omega
    simpa only [Table.get, hi'] using h (BitVec.ofNat 8 i)

/-- An accepted entry's symbol has the entry's frequency (R152). -/
theorem tableOfEntries_get_entrySymbol {s : State} {n k : Nat} (h : ∀ j, j < n → entryOk s j) (hk : k < n) :
    (tableOfEntries s n).get (entrySymbol s k) = (entryFrequency s k).toNat := by
  induction n with
  | zero => exact absurd hk k.not_lt_zero
  | succ n ih =>
    rw [tableOfEntries_succ]
    rcases Nat.lt_succ_iff_lt_or_eq.mp hk with hlt | rfl
    · obtain ⟨-, hdistinct⟩ := h n n.lt_succ_self
      rw [Table.get_set_ne _ _ (hdistinct k hlt), ih (fun j hj => h j (hj.trans n.lt_succ_self)) hlt]
    · rw [Table.get_set_same]

/-! ### The fields of the container -/

theorem entryBytes_length (e : Endian) (freq : Table Nat) (v : Byte) : (entryBytes e freq v).length = 5 := by
  rw [entryBytes, List.length_cons, int32Bytes_length]

theorem entriesBytes_length (e : Endian) (freq : Table Nat) (vs : List Byte) :
    (vs.flatMap (entryBytes e freq)).length = 5 * vs.length := entries_length e freq.get vs

theorem headerBytes_length (e : Endian) (freq : Table Nat) :
    (headerBytes e freq).length = 4 + 5 * (symbols freq).length := by
  rw [headerBytes, List.length_append, int32Bytes_length, entriesBytes_length]

/-- Entry `k` of the table stands at `4 + 5·k` (R42, R67). -/
theorem exists_headerBytes_split (e : Endian) (freq : Table Nat) {k : Nat} (hk : k < (symbols freq).length) :
    ∃ pre post, headerBytes e freq = pre ++ (entryBytes e freq (symbols freq)[k] ++ post) ∧ pre.length = 4 + 5 * k := by
  refine ⟨int32Bytes e (BitVec.ofNat 32 (symbols freq).length) ++ ((symbols freq).take k).flatMap (entryBytes e freq),
    ((symbols freq).drop (k + 1)).flatMap (entryBytes e freq), ?_, ?_⟩
  · rw [List.append_assoc, ← List.flatMap_cons, List.getElem_cons_drop, ← List.flatMap_append, List.take_append_drop,
      headerBytes]
  · rw [List.length_append, int32Bytes_length, entriesBytes_length, List.length_take_of_le hk.le]

/-! The input is the header of the table `freq` followed by the payload and the trailer of `bits`. -/

section
variable {u : State} {freq : Table Nat} {bits : List Bool}
  (hu : u.input = headerBytes u.params.endian freq ++ payloadBytes bits)
include hu

theorem containerCount_of_input : containerCount u = (symbols freq).length := by
  have hsym := symbols_length_le freq
  rw [headerBytes, List.append_assoc, ← List.nil_append (_ ++ _)] at hu
  exact (int32At_of_input hu).trans (toInt_ofNat_of_lt (by omega))

theorem inLen_of_input : u.inLen.toNat = 4 + 5 * (symbols freq).length + (bits.length + 7) / 8 + 1 := by
  rw [← State.input_length, hu, List.length_append, headerBytes_length, payloadBytes, List.length_append, packBits_length,
    padded_length, Nat.mul_div_cancel_left _ (by decide), List.length_singleton, ← Nat.add_assoc]

/-- Entry `k` is the `k`-th symbol with its frequency, which fits an int32 (R67). -/
theorem entry_of_input {k : Nat} (hk : k < (symbols freq).length) (hfreq : freq.get (symbols freq)[k] < 2 ^ 31) :
    entrySymbol u k = (symbols freq)[k] ∧ entryFrequency u k = freq.get (symbols freq)[k] := by
  obtain ⟨pre, post, hsplit, hpre⟩ := exists_headerBytes_split u.params.endian freq hk
  rw [hsplit, entryBytes, List.append_assoc, List.append_assoc, List.cons_append] at hu
  constructor
  · rw [entrySymbol, ← hpre]
    exact State.inByte_of_input (by simp [hu])
  · rw [List.append_cons] at hu
    have hword := int32At_of_input hu
    rw [List.length_append, List.length_singleton, hpre] at hword
    have haddr : 5 + 5 * k = 4 + 5 * k + 1 := by omega
    rw [entryFrequency, haddr, hword, toInt_ofNat_of_lt hfreq]

/-- The payload stands after the table, and the padding count after the payload (R42, R68, R69). -/
theorem payload_of_input (j : Nat) : u.input[4 + 5 * (symbols freq).length + j]? = (payloadBytes bits)[j]? := by
  rw [hu, ← headerBytes_length u.params.endian freq, List.getElem?_append_right (Nat.le_add_right _ _),
    Nat.add_sub_cancel_left]

theorem containerPadding_of_input : containerPadding u = padBits bits := by
  have hlast : (payloadBytes bits)[(bits.length + 7) / 8]? = some (BitVec.ofNat 8 (padBits bits)) := by
    have hlen : (bits.length + 7) / 8 = (packBits (padded bits)).length := by
      rw [packBits_length, padded_length, Nat.mul_div_cancel_left _ (by decide)]
    rw [payloadBytes, hlen, List.getElem?_concat_length]
  have hpad : padBits bits < 8 := Nat.mod_lt _ (by decide)
  rw [← payload_of_input hu] at hlast
  rw [containerPadding, inLen_of_input hu, Nat.add_sub_cancel, State.inByte_of_input hlast, BitVec.toNat_ofNat]
  omega

/-- The meaningful bits are the code stream (R88, R153). -/
theorem containerBits_of_input : containerBits u = bits := by
  have hpad : padBits bits = (8 - bits.length % 8) % 8 := rfl
  have hlen : (containerBits u).length = bits.length := by
    rw [containerBits, List.length_map, List.length_range, containerPadding_of_input hu, inLen_of_input hu,
      containerCount_of_input hu, Int.toNat_natCast]
    omega
  refine List.ext_getElem hlen fun k _ hk => ?_
  obtain ⟨b, hb, hbit⟩ := getElem?_packBits (bits := padded bits) (k := k) (by rw [padded_length]; omega)
  have hbyte : u.inByte (4 + 5 * (symbols freq).length + k / 8) = b := State.inByte_of_input <| by
    rw [payload_of_input hu, payloadBytes, List.getElem?_append_left (by rw [packBits_length, padded_length]; omega), hb]
  rw [getD_padded (by omega), List.getD_eq_getElem _ _ hk] at hbit
  simpa [containerBits, containerCount_of_input hu, hbyte] using hbit

section
variable (hfreq : ∀ v, freq.get v < 2 ^ 31)
include hfreq

theorem entryOk_of_input {k : Nat} (hk : k < (symbols freq).length) : entryOk u k := by
  obtain ⟨hsym, hcount⟩ := entry_of_input hu hk (hfreq _)
  have hpos : 0 < freq.get (symbols freq)[k] := mem_symbols.mp (List.getElem_mem hk)
  refine ⟨by omega, fun j hj heq => ?_⟩
  obtain ⟨hsym', -⟩ := entry_of_input hu (hj.trans hk) (hfreq _)
  rw [hsym, hsym', (symbols_nodup freq).getElem_inj_iff] at heq
  exact absurd heq hj.ne

/-- The decoder loads the encoder's table (R154). -/
theorem containerTable_of_input : containerTable u = freq := by
  have hentry : ∀ k, k < (symbols freq).length → entryOk u k := fun k => entryOk_of_input hu hfreq
  rw [containerTable_eq, containerCount_of_input hu, Int.toNat_natCast]
  refine Table.ext_get fun v => ?_
  by_cases hv : v ∈ symbols freq
  · obtain ⟨k, hk, rfl⟩ := List.getElem_of_mem hv
    obtain ⟨hsym, hcount⟩ := entry_of_input hu hk (hfreq _)
    rw [← hsym, tableOfEntries_get_entrySymbol hentry hk, hcount, Int.toNat_natCast, hsym]
  · have hzero : freq.get v = 0 := by rw [mem_symbols] at hv; omega
    rw [hzero, tableOfEntries_get_eq_zero hentry]
    rintro k hk rfl
    exact hv ((entry_of_input hu hk (hfreq _)).1 ▸ List.getElem_mem hk)

/-- The container passes every check (R151 to R153). -/
theorem containerOk_of_input : containerOk u = true := by
  have hcount := containerCount_of_input hu
  have hlen := inLen_of_input hu
  have hsym := symbols_length_le freq
  have hpad : padBits bits = (8 - bits.length % 8) % 8 := rfl
  rw [containerOk_iff, countOk, paddingCountOk, containerPadding_of_input hu, hcount, Int.toNat_natCast]
  exact ⟨⟨⟨by omega, by omega, by omega⟩, by omega, by omega⟩, fun k => entryOk_of_input hu hfreq⟩

end

end

/-- Settles O43: the input of the second command reads back as the container of the first one's input. -/
theorem huffmanRoundTrip : Obligations.HuffmanRoundTrip := by
  intro s hwf hin hout hfit hfeed
  obtain ⟨t, ht, -, hstatus, -, houtput, -⟩ := hufPackWritesTheContainer s hwf hin hfit
  refine ⟨t, ht, hstatus, fun u hp hinput => ?_⟩
  have hlen : u.inLen.toNat = (hufEncode s.params.endian s.input).length := by rw [← State.input_length, hinput, houtput]
  have hcap : s.params.inCap ≤ 2 ^ 31 - 1 := by
    simp only [Params.wf, decide_eq_true_eq] at hwf
    omega
  have hfreq : ∀ v, (countBytes noCounts s.input).get v < 2 ^ 31 := fun v => by
    have hcount := s.input.count_le_length (a := v)
    rw [get_countBytes_noCounts]
    rw [State.input_length] at hcount
    omega
  have hu : u.input = headerBytes u.params.endian (countBytes noCounts s.input)
      ++ payloadBytes (payloadBits (codeTable (countBytes noCounts s.input)) s.input) := by
    rw [hinput, houtput, hp, hufEncode_eq]
  have htable := containerTable_of_input hu hfreq
  have hsize := inLen_of_input hu
  refine hufUnpackDecodesThePayload u s.input (hp ▸ hwf) (by rw [hp, hlen]; exact hfeed) (by omega)
    (containerOk_of_input hu hfreq) (fun v hv => ?_) (by rw [htable, containerBits_of_input hu])
    (by rw [hp, State.input_length]; exact hout)
  rw [htable, get_countBytes_noCounts]
  exact List.count_pos_iff.mpr hv

end Sys2Proof.Machine
end

section
/-! O50 to O53: the match search of `LZ_PACK` (R174 to R178). The candidate of a pattern length is decodable because its
pattern stands in the history and, past the end of the history, repeats in the lookahead; the search keeps the longest
candidate it has met. -/

namespace Sys2Proof.Machine

/-! ### The first occurrence -/

theorem firstOccurrence_some {pat hist : List Byte} {p : Nat} (h : firstOccurrence pat hist = some p) :
    pat <+: hist.drop p ∧ ∀ q, q < p → ¬ pat <+: hist.drop q := by
  induction hist generalizing p with
  | nil =>
    simp only [firstOccurrence] at h
    split at h <;> cases h
    next hpat => exact ⟨by simp [hpat], fun q hq => absurd hq q.not_lt_zero⟩
  | cons b hist ih =>
    simp only [firstOccurrence] at h
    split at h
    · next hpre =>
      cases h
      exact ⟨List.isPrefixOf_iff_prefix.mp hpre, fun q hq => absurd hq q.not_lt_zero⟩
    · next hpre =>
      obtain ⟨p', hp', rfl⟩ := Option.map_eq_some_iff.mp h
      obtain ⟨hat, hbefore⟩ := ih hp'
      refine ⟨hat, fun q hq => ?_⟩
      cases q with
      | zero => exact fun h0 => hpre (List.isPrefixOf_iff_prefix.mpr h0)
      | succ q => exact hbefore q (by omega)

theorem firstOccurrence_none {pat hist : List Byte} (h : firstOccurrence pat hist = none) (q : Nat) :
    ¬ pat <+: hist.drop q := by
  induction hist generalizing q with
  | nil =>
    simp only [firstOccurrence] at h
    split at h <;> cases h
    next hpat => simpa using hpat
  | cons b hist ih =>
    simp only [firstOccurrence] at h
    split at h
    · cases h
    · next hpre =>
      cases q with
      | zero => exact fun h0 => hpre (List.isPrefixOf_iff_prefix.mpr h0)
      | succ q => exact ih (Option.map_eq_none_iff.mp h) q

/-- A pattern that is not empty stands wholly inside the list it occurs in. -/
theorem prefix_drop_inside {pat hist : List Byte} {p : Nat} (hpos : pat ≠ []) (h : pat <+: hist.drop p) :
    p + pat.length ≤ hist.length := by
  have hlen := h.length_le
  have hp := List.length_pos_iff.mpr hpos
  rw [List.length_drop] at hlen
  omega

/-- Settles O50, by induction on the history. -/
theorem firstOccurrenceIsTheSmallest : Obligations.FirstOccurrenceIsTheSmallest := by
  intro pat hist hpos
  have slice : ∀ q, (hist.drop q).take pat.length = pat ↔ pat <+: hist.drop q := fun q =>
    eq_comm.trans List.prefix_iff_eq_take.symm
  simp only [ne_eq, slice]
  refine ⟨fun p hp => ?_, fun hnone => ⟨firstOccurrence_none hnone, fun more => ?_⟩⟩
  · obtain ⟨hat, hbefore⟩ := firstOccurrence_some hp
    exact ⟨prefix_drop_inside hpos hat, hat, hbefore⟩
  · refine Option.eq_none_iff_forall_ne_some.mpr fun p hp => ?_
    obtain ⟨hat, -⟩ := firstOccurrence_some hp
    exact firstOccurrence_none hnone p ((List.prefix_append pat more).trans hat)

/-! ### The extension -/

/-- The first `l` bytes repeat the pattern of the first `i`. -/
def Repeats (look : List Byte) (i l : Nat) : Prop := ∀ t, t < l → look[t]? = look[t % i]?

theorem Repeats.shift {look : List Byte} {i l t : Nat} (h : Repeats look i l) (hi : i ≤ t) (ht : t < l) (hpos : 1 ≤ i) :
    look[t]? = look[t - i]? := by
  rw [h t ht, h (t - i) (by omega), Nat.mod_eq_sub_mod hi]

theorem Repeats.pattern (look : List Byte) (i : Nat) : Repeats look i i := fun t ht => by rw [Nat.mod_eq_of_lt ht]

/-- One more whole pattern (R177). -/
theorem Repeats.addWhole {look : List Byte} {i l : Nat} (h : Repeats look i l) (hd : i ∣ l)
    (heq : (look.drop l).take i = look.take i) : Repeats look i (l + i) := fun t ht => by
  rcases Nat.lt_or_ge t l with hl | hl
  · exact h t hl
  · obtain ⟨d, rfl⟩ := Nat.exists_eq_add_of_le hl
    have hbyte := congrArg (·[d]?) heq
    simp only [List.getElem?_take, show d < i by omega, if_true, List.getElem?_drop] at hbyte
    rw [hbyte, Nat.add_mod, Nat.mod_eq_zero_of_dvd hd, Nat.zero_add, Nat.mod_mod, Nat.mod_eq_of_lt (by omega)]

/-- One more byte (R177). -/
theorem Repeats.addByte {look : List Byte} {i l : Nat} (h : Repeats look i l) (heq : look[l]? = look[l % i]?) :
    Repeats look i (l + 1) := fun t ht => by
  rcases Nat.lt_succ_iff_lt_or_eq.mp ht with hl | rfl
  · exact h t hl
  · exact heq

/-- The whole-pattern increments keep the repetition and one byte for the literal. -/
theorem extendWhole_spec {look : List Byte} {i : Nat} (k : Nat) {l : Nat} (h : Repeats look i l) (hd : i ∣ l)
    (hl : l ≤ look.length - 1) :
    l ≤ extendWhole look i k l ∧ extendWhole look i k l ≤ look.length - 1
      ∧ Repeats look i (extendWhole look i k l) := by
  induction k generalizing l with
  | zero => exact ⟨le_rfl, hl, h⟩
  | succ k ih =>
    simp only [extendWhole]
    split
    · next hc =>
      obtain ⟨hroom, heq⟩ := hc
      obtain ⟨hle, hrest⟩ := ih (h.addWhole hd heq) (Nat.dvd_add_self_right.mpr hd) hroom
      exact ⟨by omega, hrest⟩
    · exact ⟨le_rfl, hl, h⟩

/-- The one-byte increments go on to the first byte that breaks the repetition, or to the literal. -/
theorem extendPartial_spec {look : List Byte} {i k l : Nat} (h : Repeats look i l) (hl : l ≤ look.length - 1)
    (hk : look.length ≤ l + k) :
    l ≤ extendPartial look i k l ∧ extendPartial look i k l ≤ look.length - 1
      ∧ Repeats look i (extendPartial look i k l)
      ∧ (extendPartial look i k l = look.length - 1
        ∨ look[extendPartial look i k l]? ≠ look[extendPartial look i k l % i]?) := by
  induction k generalizing l with
  | zero => exact ⟨le_rfl, hl, h, .inl (by simp only [extendPartial]; omega)⟩
  | succ k ih =>
    simp only [extendPartial]
    split
    · next hc =>
      obtain ⟨hroom, heq⟩ := hc
      obtain ⟨hle, hrest⟩ := ih (h.addByte heq) (by omega) (by omega)
      exact ⟨by omega, hrest⟩
    · next hc =>
      refine ⟨le_rfl, hl, h, ?_⟩
      rcases Nat.lt_or_ge l (look.length - 1) with hlt | hge
      · exact .inr fun heq => hc ⟨hlt, heq⟩
      · exact .inl (le_antisymm hl hge)

/-- Settles O51: both loops keep the repetition, and the second stops where it cannot go on. -/
theorem extensionIsTheLongestRepetition : Obligations.ExtensionIsTheLongestRepetition := by
  intro look i hpos hi
  obtain ⟨hwlow, hwhigh, hwrep⟩ := extendWhole_spec look.length (.pattern look i) (dvd_refl i) hi
  obtain ⟨hlow, hhigh, hrep, hend⟩ := extendPartial_spec hwrep hwhigh (Nat.le_add_left look.length _)
  have hle : i ≤ extend look i := hwlow.trans hlow
  refine ⟨hle, hhigh, fun t hit ht => hrep.shift hit ht hpos, hend.imp_right fun hne heq => hne ?_⟩
  -- the byte one pattern back has the same place in the pattern
  have hback : look[extend look i - i]? = look[extend look i % i]? := by
    rw [hrep (extend look i - i) (by simp only [extend] at hle ⊢; omega), ← Nat.mod_eq_sub_mod hle]
  exact heq.trans hback

/-! ### The candidates -/

/-- The match offered by the pattern length `i` with its occurrence at `p` (R174). -/
def candidate (hist look : List Byte) (i p : Nat) : Match where
  offset := hist.length - p
  length := candidateLength hist look i p
  literal := look.getD (candidateLength hist look i p) 0

theorem considerLength_of_none {hist look : List Byte} {i : Nat} (h : occurrence hist look i = none) (best : Match) :
    considerLength hist look best i = best := by
  simp only [considerLength, h]

/-- R178. -/
theorem considerLength_of_some {hist look : List Byte} {i p : Nat} (h : occurrence hist look i = some p) (best : Match) :
    considerLength hist look best i
      = if best.length ≤ candidateLength hist look i p then candidate hist look i p else best := by
  simp only [considerLength, h]
  rfl

/-- The pattern stands at the place the candidate is taken at, inside the history (R175, R176). -/
theorem occurrence_some {hist look : List Byte} {i p : Nat} (hpos : 1 ≤ i) (hk : i ≤ look.length - 1)
    (hh : i ≤ hist.length) (h : occurrence hist look i = some p) :
    look.take i <+: hist.drop p ∧ p + i ≤ hist.length := by
  have hlen : (look.take i).length = i := by rw [List.length_take]; omega
  simp only [occurrence] at h
  split at h
  · cases h
  · next q hq =>
    split at h <;> cases h
    · next hself =>
      simp only [selfReferential, Bool.and_eq_true, beq_iff_eq] at hself
      obtain ⟨hsuffix, -⟩ := hself
      exact ⟨hsuffix ▸ List.prefix_rfl, by omega⟩
    · obtain ⟨hat, -⟩ := firstOccurrence_some hq
      have hinside := prefix_drop_inside (List.ne_nil_of_length_pos (by omega)) hat
      exact ⟨hat, by omega⟩

/-- What makes a match decodable: its literal follows it in the lookahead, length and offset are 0 together, and the bytes
it stands for are those `offset` places back in history and lookahead (R174). -/
structure Decodable (hist look : List Byte) (m : Match) : Prop where
  literal : look[m.length]? = some m.literal
  zero : m.length = 0 ↔ m.offset = 0
  offset : m.offset ≤ hist.length
  copied : ∀ t, t < m.length → look[t]? = (hist ++ look)[hist.length - m.offset + t]?

theorem Decodable.length_lt {hist look : List Byte} {m : Match} (h : Decodable hist look m) : m.length < look.length :=
  (List.getElem?_eq_some_iff.mp h.literal).1

/-- A candidate copies its pattern from the history and what it is extended by from the lookahead. -/
theorem candidate_decodable {hist look : List Byte} {i p : Nat} (hpos : 1 ≤ i) (hk : i ≤ look.length - 1)
    (hh : i ≤ hist.length) (h : occurrence hist look i = some p) : Decodable hist look (candidate hist look i p) := by
  obtain ⟨⟨rest, hrest⟩, hin⟩ := occurrence_some hpos hk hh h
  obtain ⟨hlow, hhigh, hrep, -⟩ := extensionIsTheLongestRepetition look i hpos hk
  obtain ⟨hle, hlt⟩ : i ≤ candidateLength hist look i p ∧ candidateLength hist look i p < look.length := by
    unfold candidateLength
    split <;> omega
  have hpattern : ∀ t, t < i → look[t]? = hist[p + t]? := fun t ht => by
    rw [← List.getElem?_take_of_lt ht, ← List.getElem?_drop, ← hrest,
      List.getElem?_append_left (by rw [List.length_take]; omega)]
  refine ⟨?_, ?_, ?_, fun t ht => ?_⟩
  · simp [candidate, List.getElem?_eq_getElem hlt]
  · simp only [candidate]; omega
  · simp only [candidate]; omega
  · simp only [candidate] at ht ⊢
    rw [show hist.length - (hist.length - p) + t = p + t by omega]
    rcases Nat.lt_or_ge t i with hti | hti
    · rw [List.getElem?_append_left (by omega)]
      exact hpattern t hti
    · have hend : p + i = hist.length := by
        by_contra hne
        simp only [candidateLength, if_neg hne] at ht
        omega
      rw [candidateLength, if_pos hend] at ht
      rw [List.getElem?_append_right (by omega), hrep t hti ht]
      congr 1
      omega

/-! ### The search -/

/-- The best match after the pattern lengths up to `n` (R174). -/
def searchTo (hist look : List Byte) (n : Nat) : Match :=
  (List.range' 1 n).foldl (considerLength hist look) { offset := 0, length := 0, literal := look.headD 0 }

theorem findMaximumMatch_eq (hist look : List Byte) :
    findMaximumMatch hist look = searchTo hist look (min (look.length - 1) hist.length) := rfl

theorem searchTo_succ (hist look : List Byte) (n : Nat) :
    searchTo hist look (n + 1) = considerLength hist look (searchTo hist look n) (n + 1) := by
  simp [searchTo, List.range'_1_concat, Nat.add_comm 1]

theorem searchTo_decodable {hist look : List Byte} {n : Nat} (hlook : look ≠ [])
    (hn : n ≤ min (look.length - 1) hist.length) : Decodable hist look (searchTo hist look n) := by
  induction n with
  | zero =>
    obtain ⟨b, rest, rfl⟩ := List.exists_cons_of_ne_nil hlook
    exact ⟨rfl, by simp [searchTo], Nat.zero_le _, fun t ht => absurd ht t.not_lt_zero⟩
  | succ n ih =>
    have hprev := ih (by omega)
    rw [searchTo_succ]
    cases ho : occurrence hist look (n + 1) with
    | none => rwa [considerLength_of_none ho]
    | some p =>
      rw [considerLength_of_some ho]
      split
      · exact candidate_decodable (by omega) (by omega) (by omega) ho
      · exact hprev

theorem findMaximumMatch_decodable (hist : List Byte) {look : List Byte} (hlook : look ≠ []) :
    Decodable hist look (findMaximumMatch hist look) := searchTo_decodable hlook le_rfl

/-- Settles O52: the default and every candidate are decodable. -/
theorem matchCanBeDecoded : Obligations.MatchCanBeDecoded := by
  rintro hist look m hlook rfl
  have h := findMaximumMatch_decodable hist hlook
  exact ⟨Nat.le_sub_one_of_lt h.length_lt, h.literal, h.zero, h.offset, h.copied⟩

/-- `m` is the choice of R178 among the candidates of the pattern lengths up to `n`: none is longer, and `m`, unless it is
the default, is the one of its length with the largest pattern. -/
structure Chosen (hist look : List Byte) (n : Nat) (m : Match) : Prop where
  longest : ∀ i p, 1 ≤ i → i ≤ n → occurrence hist look i = some p → candidateLength hist look i p ≤ m.length
  latest : 0 < m.length → ∃ i p, 1 ≤ i ∧ i ≤ n ∧ occurrence hist look i = some p
    ∧ candidateLength hist look i p = m.length ∧ m.offset = hist.length - p
    ∧ ∀ j q, i < j → j ≤ n → occurrence hist look j = some q → candidateLength hist look j q < m.length

/-- A pattern length whose candidate, if it has one, is shorter changes nothing. -/
theorem Chosen.skip {hist look : List Byte} {n : Nat} {m : Match} (h : Chosen hist look n m)
    (hnew : ∀ p, occurrence hist look (n + 1) = some p → candidateLength hist look (n + 1) p < m.length) :
    Chosen hist look (n + 1) m where
  longest := fun i p hi hin ho => by
    rcases Nat.le_succ_iff.mp hin with hle | rfl
    · exact h.longest i p hi hle ho
    · exact (hnew p ho).le
  latest := fun hm => by
    obtain ⟨i, p, hi, hin, ho, hlen, hoff, hlater⟩ := h.latest hm
    refine ⟨i, p, hi, by omega, ho, hlen, hoff, fun j q hij hjn hj => ?_⟩
    rcases Nat.le_succ_iff.mp hjn with hle | rfl
    · exact hlater j q hij hle hj
    · exact hnew q hj

/-- A candidate that is at least as long replaces the match. -/
theorem Chosen.replace {hist look : List Byte} {n p : Nat} {m : Match} (h : Chosen hist look n m)
    (ho : occurrence hist look (n + 1) = some p) (hle : m.length ≤ candidateLength hist look (n + 1) p) :
    Chosen hist look (n + 1) (candidate hist look (n + 1) p) where
  longest := fun i q hi hin hq => by
    rcases Nat.le_succ_iff.mp hin with hin | rfl
    · exact (h.longest i q hi hin hq).trans hle
    · cases ho.symm.trans hq
      exact le_rfl
  latest := fun _ => ⟨n + 1, p, by omega, le_rfl, ho, rfl, rfl, fun j q hlt hj _ => by omega⟩

theorem searchTo_chosen (hist look : List Byte) (n : Nat) : Chosen hist look n (searchTo hist look n) := by
  induction n with
  | zero => exact ⟨fun i p hi hin _ => by omega, fun h => absurd h (Nat.lt_irrefl 0)⟩
  | succ n ih =>
    rw [searchTo_succ]
    cases ho : occurrence hist look (n + 1) with
    | none =>
      rw [considerLength_of_none ho]
      exact ih.skip fun p hp => by cases ho.symm.trans hp
    | some p =>
      rw [considerLength_of_some ho]
      split
      · next hle => exact ih.replace ho hle
      · next hlt =>
        refine ih.skip fun q hq => ?_
        cases ho.symm.trans hq
        exact Nat.lt_of_not_le hlt

/-- Settles O53: each turn of the search makes the choice over one more pattern length. -/
theorem matchIsTheLongestLatestCandidate : Obligations.MatchIsTheLongestLatestCandidate := by
  rintro hist look m - rfl
  obtain ⟨hlongest, hlatest⟩ := searchTo_chosen hist look (min (look.length - 1) hist.length)
  exact ⟨hlongest, hlatest⟩

end Sys2Proof.Machine
end

section
/-! O54: the triplets of an encoding (R182, R184). Each is the decodable match at its place in the input, and they cover the
input one after the other. -/

namespace Sys2Proof.Machine

/-! ### One triplet at its place in the input -/

/-- The history of the search at `pos` (R184). -/
def histAt (hMax : Nat) (bytes : List Byte) (pos : Nat) : List Byte := (bytes.take pos).drop (pos - hMax)

/-- The lookahead of the search at `pos` (R184). -/
def lookAt (pMax : Nat) (bytes : List Byte) (pos : Nat) : List Byte := (bytes.drop pos).take pMax

/-- R182 (b) to (f) for the triplet `m` at `pos`. -/
structure TripletAt (hMax pMax : Nat) (bytes : List Byte) (pos : Nat) (m : Match) : Prop where
  length : m.length ≤ pMax - 1
  offset : m.offset ≤ min hMax pos
  zero : m.length = 0 ↔ m.offset = 0
  literal : bytes[pos + m.length]? = some m.literal
  copied : ∀ t, t < m.length → bytes[pos + t]? = bytes[pos + t - m.offset]?

section

variable {hMax pMax pos : Nat} {bytes : List Byte} {m : Match}

theorem TripletAt.inside (h : TripletAt hMax pMax bytes pos m) : pos + m.length < bytes.length :=
  (List.getElem?_eq_some_iff.mp h.literal).1

@[simp] theorem histAt_length (hpos : pos ≤ bytes.length) : (histAt hMax bytes pos).length = min hMax pos := by
  simp only [histAt, List.length_drop, List.length_take]
  omega

theorem lookAt_ne_nil (hp : 1 ≤ pMax) (hpos : pos < bytes.length) : lookAt pMax bytes pos ≠ [] :=
  List.ne_nil_of_length_pos (by simp only [lookAt, List.length_take, List.length_drop]; omega)

theorem lookAt_length_le : (lookAt pMax bytes pos).length ≤ pMax := List.length_take_le _ _

theorem lookAt_getElem? {t : Nat} (ht : t < (lookAt pMax bytes pos).length) :
    (lookAt pMax bytes pos)[t]? = bytes[pos + t]? := by
  rw [lookAt, List.getElem?_take_of_lt (ht.trans_le lookAt_length_le), List.getElem?_drop]

/-- History and lookahead are one stretch of the input. -/
theorem histAt_append_lookAt_getElem? {t : Nat} (hpos : pos ≤ bytes.length)
    (ht : t < min hMax pos + (lookAt pMax bytes pos).length) :
    (histAt hMax bytes pos ++ lookAt pMax bytes pos)[t]? = bytes[pos - min hMax pos + t]? := by
  have hlen : (histAt hMax bytes pos).length = min hMax pos := histAt_length hpos
  rcases Nat.lt_or_ge t (min hMax pos) with h | h
  · rw [List.getElem?_append_left (by omega), histAt, List.getElem?_drop, List.getElem?_take_of_lt (by omega)]
    congr 1
    omega
  · rw [List.getElem?_append_right (by omega), lookAt_getElem? (by omega)]
    congr 1
    omega

/-- The match found at a place of the input, said of the input. -/
theorem findMaximumMatch_tripletAt (hp : 1 ≤ pMax) (hpos : pos < bytes.length) :
    TripletAt hMax pMax bytes pos (findMaximumMatch (histAt hMax bytes pos) (lookAt pMax bytes pos)) := by
  have h := findMaximumMatch_decodable (histAt hMax bytes pos) (lookAt_ne_nil hp hpos)
  have hin := h.length_lt
  have hlook : (lookAt pMax bytes pos).length ≤ pMax := lookAt_length_le
  obtain ⟨hlit, hzero, hoff, hcopied⟩ := h
  rw [histAt_length hpos.le] at hoff hcopied
  refine ⟨by omega, hoff, hzero, (lookAt_getElem? hin).symm.trans hlit, fun t ht => ?_⟩
  rw [← lookAt_getElem? (pMax := pMax) (by omega), hcopied t ht, histAt_append_lookAt_getElem? hpos.le (by omega)]
  congr 1
  omega

/-! ### The triplets in sequence -/

/-- The triplets cover the input from `pos` to its end, each of them at its place (R182). -/
inductive Covers (hMax pMax : Nat) (bytes : List Byte) : Nat → List Match → Prop
  | done : Covers hMax pMax bytes bytes.length []
  | cons {pos : Nat} {m : Match} {ms : List Match} (head : TripletAt hMax pMax bytes pos m)
      (tail : Covers hMax pMax bytes (pos + m.length + 1) ms) : Covers hMax pMax bytes pos (m :: ms)

theorem lzTripletsFrom_of_end (k : Nat) : lzTripletsFrom hMax pMax bytes k bytes.length = [] := by
  cases k <;> simp [lzTripletsFrom]

theorem lzTripletsFrom_succ (k : Nat) (hpos : pos < bytes.length)
    (hm : m = findMaximumMatch (histAt hMax bytes pos) (lookAt pMax bytes pos)) :
    lzTripletsFrom hMax pMax bytes (k + 1) pos = m :: lzTripletsFrom hMax pMax bytes k (pos + m.length + 1) := by
  subst hm
  exact if_pos hpos

/-- Turns enough for every byte reach the end of the input (R181). -/
theorem lzTripletsFrom_covers (hp : 1 ≤ pMax) {k : Nat} (hpos : pos ≤ bytes.length) (hk : bytes.length ≤ pos + k) :
    Covers hMax pMax bytes pos (lzTripletsFrom hMax pMax bytes k pos) := by
  induction k generalizing pos with
  | zero =>
    obtain rfl : pos = bytes.length := by omega
    exact .done
  | succ k ih =>
    rcases hpos.lt_or_eq with hlt | rfl
    · have hm : TripletAt hMax pMax bytes pos _ := findMaximumMatch_tripletAt hp hlt
      have hin := hm.inside
      rw [lzTripletsFrom_succ k hlt rfl]
      exact .cons hm (ih (by omega) (by omega))
    · rw [lzTripletsFrom_of_end]
      exact .done

theorem lzTriplets_covers (hMax : Nat) (hp : 1 ≤ pMax) (bytes : List Byte) :
    Covers hMax pMax bytes 0 (lzTriplets hMax pMax bytes) :=
  lzTripletsFrom_covers hp (Nat.zero_le _) (by omega)

/-- The input bytes the triplets consume (R182 (a)). -/
def consumed (ms : List Match) : Nat := (ms.map fun m => m.length + 1).sum

@[simp] theorem consumed_nil : consumed [] = 0 := rfl

@[simp] theorem consumed_cons (m : Match) (ms : List Match) : consumed (m :: ms) = m.length + 1 + consumed ms := by
  simp [consumed]

theorem Covers.consumed_eq {ms : List Match} (h : Covers hMax pMax bytes pos ms) : pos + consumed ms = bytes.length := by
  induction h with
  | done => rfl
  | cons _ _ ih => rw [consumed_cons]; omega

theorem Covers.tripletAt {ms : List Match} {k : Nat} (h : Covers hMax pMax bytes pos ms) (hk : ms[k]? = some m) :
    TripletAt hMax pMax bytes (pos + consumed (ms.take k)) m := by
  induction h generalizing k with
  | done => cases hk
  | cons head _ ih =>
    cases k with
    | zero => cases hk; exact head
    | succ k =>
      rw [List.take_succ_cons, consumed_cons, ← Nat.add_assoc, ← Nat.add_assoc]
      exact ih hk

/-- A back-reference into the input that repeats it copies the bytes that follow (R193). -/
theorem copyOut_take {off n : Nat} (hin : pos + n ≤ bytes.length) (hoff : 0 < n → 1 ≤ off ∧ off ≤ pos)
    (hcopied : ∀ t, t < n → bytes[pos + t]? = bytes[pos + t - off]?) :
    copyOut off n (bytes.take pos) = bytes.take (pos + n) := by
  induction n generalizing pos with
  | zero => rfl
  | succ n ih =>
    obtain ⟨hlow, hhigh⟩ := hoff n.succ_pos
    have hbyte : (bytes.take pos).getD ((bytes.take pos).length - off) 0 = bytes[pos] := by
      have h0 := hcopied 0 n.succ_pos
      rw [Nat.add_zero, List.getElem?_eq_getElem (by omega)] at h0
      rw [List.getD_eq_getElem?_getD, List.length_take_of_le (by omega), List.getElem?_take_of_lt (by omega), ← h0]
      rfl
    rw [copyOut, hbyte, List.take_concat_get' bytes pos (by omega), ih (by omega) (fun _ => ⟨hlow, by omega⟩)]
    · rw [Nat.add_assoc, Nat.add_comm 1]
    · intro t ht
      rw [Nat.add_assoc, Nat.add_comm 1]
      exact hcopied (t + 1) (by omega)

/-- Expanding the triplets from `pos` on completes the input (R182 (f)). -/
theorem Covers.expandAll_take {ms : List Match} (h : Covers hMax pMax bytes pos ms) :
    expandAll ms (bytes.take pos) = bytes := by
  induction h with
  | done => exact List.take_length
  | @cons pos m _ head _ ih =>
    have hin := head.inside
    obtain ⟨-, hoff, hzero, hlit, hcopied⟩ := head
    obtain ⟨hlt, hget⟩ := List.getElem?_eq_some_iff.mp hlit
    rw [expandAll, copyOut_take hin.le (by omega) hcopied, ← hget, List.take_concat_get' bytes _ hlt]
    exact ih

end

/-- Settles O54: the triplets cover the input from its start. -/
theorem tripletsReconstructTheInput : Obligations.TripletsReconstructTheInput := by
  rintro hMax pMax bytes ms hp rfl
  have h := lzTriplets_covers hMax hp bytes
  refine ⟨(Nat.zero_add _).symm.trans h.consumed_eq, fun k m hk => ?_, h.expandAll_take⟩
  have hm := h.tripletAt hk
  rw [Nat.zero_add] at hm
  exact ⟨hm.length, hm.offset, hm.zero, hm.literal⟩

end Sys2Proof.Machine
end

section
/-! O47 to O49: `LZ_PACK` refuses illegal windows (R171), writes `LzEncode` of its input when it fits (R170, R184) and
raises `CapacityError` when it does not (R207). At the top of each turn the windows are the slices of the input that R172
names, so the machine's search is the one of `LzEncode`. -/

namespace Sys2Proof.Machine

/-! ### Pieces that append a run beside transient changes -/

/-- The piece appends `bs` to `OUT`, with any change of transient state, when there is room, and raises `CapacityError` when
there is not. -/
def Packs (bs : List Byte) (s : State) (r : Run State) : Prop :=
  ∃ t, Delivers s t r ∧ t.opos = s.opos + bs.length ∧ (s.opos + bs.length ≤ s.params.outCap → Appended bs s t)

theorem Packs.pure (s : State) : Packs [] s (.ok s) := ⟨s, .pure s, rfl, fun _ => {}⟩

theorem Packs.after {bs : List Byte} {s s' : State} {r : Run State} (h : Packs bs s' r)
    (ht : Appended [] s s' := by exact {}) : Packs bs s r := by
  obtain ⟨t, hd, ho, ha⟩ := h
  rw [ht.opos, List.length_nil, Nat.add_zero, ht.params] at ha
  exact ⟨t, hd.after ht.params ht.opos, by rw [ho, ht.opos]; rfl, fun hroom => ht.trans (ha hroom)⟩

/-- A piece that appends `as` and nothing else, and then another. -/
theorem Packs.bind {as bs : List Byte} {s : State} {x : Run State} {f : State → Run State}
    (hx : Delivers s (s.pushAll as) x) (hf : Packs bs (s.pushAll as) (f (s.pushAll as))) :
    Packs (as ++ bs) s (x >>= f) := by
  obtain ⟨t, hd, ho, ha⟩ := hf
  rw [State.pushAll_opos] at ho ha
  rw [State.pushAll_params] at ha
  refine ⟨t, hx.bind hd, by rw [ho, List.length_append, Nat.add_assoc], fun hroom => ?_⟩
  rw [List.length_append] at hroom
  exact (Appended.pushAll (by omega)).trans (ha (by omega))

/-- A data command whose engine packs a run that fits succeeds with it (R98, R99). -/
theorem Packs.succeeds {i : Instr} {w : Word} {engine : State → Run State} {s : State} {out : List Byte}
    (h : Packs out ((s.start w).prologue.setPhase .check) (engine ((s.start w).prologue.setPhase .check)))
    (hi : exec i s = .next (dataCommand w engine s)) (hwf : s.params.wf = true) (hin : s.inLen.toNat ≤ s.params.inCap)
    (hroom : out.length ≤ s.params.outCap) : Succeeds i s out := by
  obtain ⟨t, hd, ho, ha⟩ := h
  have hfits : 0 + out.length ≤ s.params.outCap := by omega
  exact succeeds_of_appended hi hwf hin (hd.ok (ho ▸ hfits)) (ha hfits)

/-- One whose run does not fit ends in `CapacityError` (R207). -/
theorem Packs.fails {i : Instr} {w : Word} {engine : State → Run State} {s : State} {out : List Byte}
    (h : Packs out ((s.start w).prologue.setPhase .check) (engine ((s.start w).prologue.setPhase .check)))
    (hi : exec i s = .next (dataCommand w engine s)) (hin : s.inLen.toNat ≤ s.params.inCap)
    (hfull : s.params.outCap < out.length) : Fails i s .capacity := by
  obtain ⟨t, hd, ho, -⟩ := h
  have hlong : s.params.outCap < 0 + out.length := by omega
  obtain ⟨u, hu⟩ := hd.error (Nat.zero_le _) (ho ▸ hlong)
  exact fails_of_raise hi hin hu

/-! ### The windows -/

/-- R172: the bytes before `pos` are encoded, and the windows are the slices of the input before and after it. The
lookahead has room for `n` bytes. -/
structure Windows (hMax pMax : Nat) (bytes : List Byte) (n pos : Nat) (s : State) : Prop where
  histMax : s.hMax = hMax
  lookMax : s.pMax = pMax
  input : s.input = bytes
  hist : s.hist = histAt hMax bytes pos
  look : s.look = lookAt n bytes pos
  ipos : s.ipos = pos + s.look.length

section

variable {hMax pMax n pos : Nat} {bytes : List Byte} {s : State}

theorem Windows.pushAll (h : Windows hMax pMax bytes n pos s) (bs : List Byte) :
    Windows hMax pMax bytes n pos (s.pushAll bs) := by
  rw [State.pushAll_frame]
  exact ⟨h.histMax, h.lookMax, h.input, h.hist, h.look, h.ipos⟩

theorem Windows.searchStep (h : Windows hMax pMax bytes n pos s) : Windows hMax pMax bytes n pos (searchStep s) :=
  ⟨h.histMax, h.lookMax, h.input, h.hist, h.look, h.ipos⟩

/-- After a refill the lookahead holds all that R173 lets it hold. -/
theorem Windows.refill (h : Windows hMax pMax bytes n pos s) (hn : n ≤ pMax) :
    Windows hMax pMax bytes pMax pos (refill s) := by
  obtain ⟨hh, hp, hin, hhist, hlook, hipos⟩ := h
  have hlen : s.inLen.toNat = bytes.length := by rw [← hin, State.input_length]
  have hle : s.look.length ≤ pMax := by rw [hlook]; exact lookAt_length_le.trans hn
  have hself : s.look = (bytes.drop pos).take s.look.length := by
    rw [hlook]
    exact List.prefix_iff_eq_take.mp (List.take_prefix _ _)
  rw [refill_spec, hp, hin, hlen, hipos]
  refine ⟨hh, rfl, hin, hhist, ?_, ?_⟩
  · calc s.look ++ (bytes.drop (pos + s.look.length)).take (pMax - s.look.length)
        = (bytes.drop pos).take s.look.length ++ ((bytes.drop pos).drop s.look.length).take (pMax - s.look.length) := by
          rw [← hself, List.drop_drop]
      _ = (bytes.drop pos).take (s.look.length + (pMax - s.look.length)) := List.take_add.symm
      _ = lookAt pMax bytes pos := by rw [Nat.add_sub_cancel' hle, lookAt]
  · simp only [List.length_append, List.length_take, List.length_drop]
    omega

/-- Sliding by `m` moves both windows on by `m` bytes of the input (R179). -/
theorem Windows.slide {m : Nat} (h : Windows hMax pMax bytes n pos s) (hm : m ≤ s.look.length)
    (hpos : pos ≤ bytes.length) : Windows hMax pMax bytes (n - m) (pos + m) (slide m s) := by
  obtain ⟨hh, hp, hin, hhist, hlook, hipos⟩ := h
  have hmn : m ≤ n := hm.trans (by rw [hlook]; exact lookAt_length_le)
  have hhistlen : s.hist.length = min hMax pos := by rw [hhist, histAt_length hpos]
  have happend : s.hist ++ s.look.take m = (bytes.take (pos + m)).drop (pos - hMax) := by
    rw [hhist, hlook, lookAt, List.take_take, Nat.min_eq_left hmn, List.take_add, histAt,
      List.drop_append_of_le_length (by rw [List.length_take]; omega)]
  refine ⟨hh, hp, hin, ?_, ?_, ?_⟩
  · show (s.hist ++ s.look.take m).drop ((s.hist ++ s.look.take m).length - s.hMax) = _
    rw [List.length_append, List.length_take_of_le hm, happend, List.drop_drop, hhistlen, hh, histAt]
    congr 1
    omega
  · show s.look.drop m = _
    rw [hlook, lookAt, List.drop_take, List.drop_drop, lookAt]
  · show s.ipos = pos + m + (s.look.drop m).length
    rw [List.length_drop]
    omega

/-! ### The encode loop -/

theorem emitTriplet_delivers (m : Match) (s : State) :
    Delivers s (s.pushAll (tripletBytes s.params.endian m)) (emitTriplet m.offset m.literal m.length s) := by
  have hlast := (outByte_delivers m.literal _).bind (writeInt32_delivers m.length
    ((s.pushAll (int32Bytes s.params.endian (BitVec.ofNat 32 m.offset))).push m.literal))
  rw [State.push_params, State.pushAll_params, ← State.pushAll_cons, ← State.pushAll_append] at hlast
  exact (writeInt32_delivers m.offset s).bind hlast

/-- The block after the search and the slide of a turn, before it writes (R174, R179). -/
def turned (s : State) : State := slide ((searchStep s).bestLen + 1) (searchStep s)

theorem encodeTriplet_delivers (s : State) :
    Delivers (turned s) ((turned s).pushAll (tripletBytes s.params.endian (findMaximumMatch s.hist s.look)))
      (encodeTriplet s) :=
  emitTriplet_delivers (findMaximumMatch s.hist s.look) (turned s)

/-- With a full lookahead a turn finds the match of R184 and moves the windows past it. -/
theorem Windows.turned {m : Match} (h : Windows hMax pMax bytes pMax pos s) (hp : 1 ≤ pMax) (hpos : pos < bytes.length)
    (hm : m = findMaximumMatch (histAt hMax bytes pos) (lookAt pMax bytes pos)) :
    findMaximumMatch s.hist s.look = m
      ∧ Windows hMax pMax bytes (pMax - (m.length + 1)) (pos + m.length + 1) (turned s) := by
  have hfound : findMaximumMatch s.hist s.look = m := by rw [h.hist, h.look, hm]
  have hin : m.length < s.look.length :=
    hfound ▸ (findMaximumMatch_decodable _ (h.look ▸ lookAt_ne_nil hp hpos)).length_lt
  have hslid := h.searchStep.slide (m := m.length + 1) hin hpos.le
  rw [← hfound] at hslid ⊢
  exact ⟨rfl, hslid⟩

/-- At the end of the input the loop is over (R181). -/
theorem lzPackLoop_packs_of_end (h : Windows hMax pMax bytes n bytes.length s) (hn : n ≤ pMax) (k : Nat) :
    Packs [] s (lzPackLoop (k + 1) s) := by
  have hlook : (refill s).look = [] := by rw [(h.refill hn).look, lookAt, List.drop_length, List.take_nil]
  have hloop : lzPackLoop (k + 1) s = .ok (refill s) := if_pos hlook
  rw [hloop]
  exact (Packs.pure (refill s)).after (by rw [refill_spec]; exact {})

theorem lzPackLoop_of_look {k : Nat} (h : (refill s).look ≠ []) :
    lzPackLoop (k + 1) s = (encodeTriplet (refill s) >>= lzPackLoop k) := if_neg h

/-- The loop writes the triplets from `pos` on (R170, R184). -/
theorem lzPackLoop_packs {k : Nat} (h : Windows hMax pMax bytes n pos s) (hn : n ≤ pMax) (hp : 1 ≤ pMax)
    (hpos : pos ≤ bytes.length) (hk : bytes.length ≤ pos + k) :
    Packs ((lzTripletsFrom hMax pMax bytes k pos).flatMap (tripletBytes s.params.endian)) s (lzPackLoop (k + 1) s) := by
  induction k generalizing n pos s with
  | zero =>
    obtain rfl : pos = bytes.length := by omega
    exact lzPackLoop_packs_of_end h hn 0
  | succ k ih =>
    rcases hpos.lt_or_eq with hlt | rfl
    · obtain ⟨m, hm⟩ : ∃ m, m = findMaximumMatch (histAt hMax bytes pos) (lookAt pMax bytes pos) := ⟨_, rfl⟩
      have hin : pos + m.length < bytes.length := hm ▸ (findMaximumMatch_tripletAt hp hlt).inside
      have hfull : Windows hMax pMax bytes pMax pos (refill s) := h.refill hn
      have hparams : (refill s).params = s.params := (refill_advances s).kept.params
      obtain ⟨hfound, hnext⟩ := hfull.turned hp hlt hm
      have hemit := encodeTriplet_delivers (refill s)
      have hrest := ih (hnext.pushAll (tripletBytes (refill s).params.endian m)) (Nat.sub_le _ _) (by omega) (by omega)
      rw [hfound] at hemit
      rw [State.pushAll_params] at hrest
      rw [lzTripletsFrom_succ k hlt hm, List.flatMap_cons, ← hparams,
        lzPackLoop_of_look (hfull.look ▸ lookAt_ne_nil hp hlt)]
      exact (Packs.bind hemit hrest).after (by rw [turned, refill_spec]; exact {})
    · rw [lzTripletsFrom_of_end]
      exact lzPackLoop_packs_of_end h hn (k + 1)

end

/-! ### The command -/

/-- The window registers latched for the command (R171). -/
def State.latched (s : State) : State := { s with hMax := s.cfgHist.toNat, pMax := s.cfgPreview.toNat }

theorem checkWindows_of_ok {s : State} (h : windowsOk s = true) : checkWindows s = .ok s.latched := by
  simp only [windowsOk, decide_eq_true_eq] at h
  rw [checkWindows, if_neg (by omega), if_neg (by omega), State.latched]

theorem checkWindows_of_bad {s : State} (h : windowsOk s = false) : checkWindows s = .error (.config, s) := by
  simp only [windowsOk, decide_eq_false_iff_not] at h
  unfold checkWindows raise
  split
  · rfl
  · rw [if_pos (by omega)]

theorem lzPackEngine_of_ok {s : State} (h : windowsOk s = true) :
    lzPackEngine s = lzPackLoop (s.input.length + 1) (s.latched.setPhase .lEncode) := by
  rw [State.input_length, lzPackEngine, checkWindows_of_ok h]
  rfl

/-- `LZ_PACK` from an emptied block with legal windows (R97, R171, R172). -/
theorem lzPackEngine_packs {s : State} (h : windowsOk s = true) (hhist : s.hist = []) (hlook : s.look = [])
    (hipos : s.ipos = 0) :
    Packs (lzEncode s.params.endian s.cfgHist.toNat s.cfgPreview.toNat s.input) s (lzPackEngine s) := by
  have hstart : Windows s.cfgHist.toNat s.cfgPreview.toNat s.input 0 0 (s.latched.setPhase .lEncode) :=
    ⟨rfl, rfl, rfl, hhist.trans (by simp [histAt]), hlook.trans (by simp [lookAt]), by
      simp [State.latched, hlook, hipos]⟩
  have hp : 1 ≤ s.cfgPreview.toNat := by
    simp only [windowsOk, decide_eq_true_eq] at h
    omega
  rw [lzPackEngine_of_ok h]
  exact (lzPackLoop_packs hstart (Nat.zero_le _) hp (Nat.zero_le _) (Nat.le_add_left _ _)).after

/-- `LZ_PACK` after its input check (R97, R101). -/
theorem lzPackEngine_packs_issued {s : State} (h : windowsOk s = true) :
    Packs (lzEncode s.params.endian s.cfgHist.toNat s.cfgPreview.toNat s.input)
      ((s.start 3).prologue.setPhase .check) (lzPackEngine ((s.start 3).prologue.setPhase .check)) :=
  lzPackEngine_packs (s := (s.start 3).prologue.setPhase .check) h rfl rfl rfl

/-- Settles O48: with room the loop appends the stream, triplet by triplet. -/
theorem lzPackWritesTheTriplets : Obligations.LzPackWritesTheTriplets := fun _ hwf hin hok hroom =>
  (lzPackEngine_packs_issued hok).succeeds rfl hwf hin hroom

/-- Settles O49: without room some byte of the stream is refused. -/
theorem lzPackWithoutRoomIsACapacityError : Obligations.LzPackWithoutRoomIsACapacityError := fun _ _ hin hok hfull =>
  (lzPackEngine_packs_issued hok).fails rfl hin hfull

/-- Settles O47: the window check comes before the first turn. -/
theorem lzPackWithBadWindowsIsAConfigError : Obligations.LzPackWithBadWindowsIsAConfigError := by
  intro s hin hbad
  have hw : windowsOk s = false := by
    simp only [windowsOk, decide_eq_false_iff_not]
    omega
  have hr : lzPackEngine ((s.start 3).prologue.setPhase .check)
      = .error (.config, (s.start 3).prologue.setPhase .check) := Run.bind_error.mpr (.inl (checkWindows_of_bad hw))
  refine ⟨fails_of_raise rfl hin hr, fun t ht => ?_⟩
  have he : exec .lzPack s = .next (((s.start 3).prologue.setPhase .check).errorEntry .config) := by
    rw [exec, execLzPack, dataCommand_of_fits _ _ hin, hr, complete_error]
  cases he.symm.trans ht
  rfl

end Sys2Proof.Machine
end

section
/-! O55 to O57: `LZ_UNPACK` refuses a cut stream (R191), and its decode loop is `expandStream` record by record (R190 to
R194): the output so far stands in `OUT` from address 0, so a back-reference into it reads what `copyOut` reads. -/

namespace Sys2Proof.Machine

/-! ### The expansion of one record -/

@[simp] theorem copyOut_length (off n : Nat) (out : List Byte) : (copyOut off n out).length = out.length + n := by
  induction n generalizing out with
  | zero => rfl
  | succ n ih => rw [copyOut, ih, List.length_append, List.length_singleton, Nat.add_assoc, Nat.add_comm 1]

/-- The output of a record after `out` (R193, R194). -/
def RawTriplet.expand (r : RawTriplet) (out : List Byte) : List Byte :=
  copyOut r.offset.toNat r.length.toNat out ++ [r.literal]

theorem RawTriplet.expand_length (r : RawTriplet) (out : List Byte) :
    (r.expand out).length = out.length + r.length.toNat + 1 := by
  rw [expand, List.length_append, copyOut_length, List.length_singleton]

/-- A copy of an accepted record reads the output before it (R192). -/
theorem offset_of_not_tripletBad {r : RawTriplet} {n : Nat} (h : tripletBad r n = false) (hpos : 0 < r.length.toNat) :
    1 ≤ r.offset.toNat ∧ r.offset.toNat ≤ n := by
  simp only [tripletBad, decide_eq_false_iff_not] at h
  omega

theorem expandStream_of_bad (cap : Nat) {r : RawTriplet} {rs : List RawTriplet} {out : List Byte}
    (h : tripletBad r out.length = true) : expandStream cap (r :: rs) out = .error .format := if_pos h

/-- R209: the capacity counts for accepted records only. -/
theorem expandStream_of_not_bad (cap : Nat) {r : RawTriplet} {rs : List RawTriplet} {out : List Byte}
    (h : tripletBad r out.length = false) : expandStream cap (r :: rs) out
      = if cap < (r.expand out).length then .error .capacity else expandStream cap rs (r.expand out) := by
  rw [RawTriplet.expand_length, expandStream, h]
  rfl

/-! ### The block between two records -/

/-- Record `k` of the stream (R42, R71). -/
def recordAt (s : State) (k : Nat) : RawTriplet where
  offset := int32At s (9 * k)
  literal := s.inByte (9 * k + 4)
  length := int32At s (9 * k + 5)

theorem streamTriplets_eq (s : State) : streamTriplets s = (List.range' 0 (s.inLen.toNat / 9)).map (recordAt s) :=
  congrArg (List.map (recordAt s)) List.range_eq_range'

/-- `s` with the output `out` appended and the cursor at record `k` (R190). -/
def State.decoded (k : Nat) (out : List Byte) (s : State) : State := { s.pushAll out with ipos := 9 * k }

section

variable {k : Nat} {out : List Byte} {s : State}

@[simp] theorem State.decoded_params : (s.decoded k out).params = s.params := State.pushAll_params out s

theorem State.decoded_opos (hs : s.opos = 0) : (s.decoded k out).opos = out.length := by
  rw [← Nat.zero_add out.length, ← hs]
  exact State.pushAll_opos out s

@[simp] theorem State.decoded_inLen : (s.decoded k out).inLen = s.inLen := by
  rw [State.decoded, State.pushAll_frame]

/-- The records ahead are those of the stream. -/
@[simp] theorem recordAt_decoded (j : Nat) : recordAt (s.decoded k out) j = recordAt s j := by
  rw [State.decoded, State.pushAll_frame]
  rfl

theorem State.decoded_push (b : Byte) : (s.decoded k out).push b = s.decoded k (out ++ [b]) := by
  rw [State.decoded, State.decoded, State.pushAll_append]
  rfl

theorem State.passTriplet_decoded : passTriplet (s.decoded k out) = s.decoded (k + 1) out := rfl

/-- What stands in `OUT` below `OPOS` is the output so far. -/
theorem State.decoded_outByte {a : Nat} (hs : s.opos = 0) (ha : a < out.length) :
    (s.decoded k out).outByte a = out.getD a 0 := by
  have hread : Memory.read? (s.decoded k out).outBuf a = some out[a] := by
    rw [State.decoded, State.pushAll_read, hs, if_pos ⟨Nat.zero_le a, by omega⟩, Nat.sub_zero,
      List.getElem?_eq_getElem ha]
  rw [State.outByte_of_read hread, List.getD_eq_getElem _ _ ha]

theorem State.appended_decoded (hroom : s.opos + out.length ≤ s.params.outCap) : Appended out s (s.decoded k out) := by
  have hupdate : Appended [] (s.pushAll out) (s.decoded k out) := {}
  have h := (Appended.pushAll hroom).trans hupdate
  rwa [List.append_nil] at h

/-! ### One record -/

/-- A copy out of the output so far (R193). -/
theorem copyBack_delivers {off n : Nat} (hs : s.opos = 0) (hoff : 0 < n → 1 ≤ off ∧ off ≤ out.length) :
    Delivers (s.decoded k out) (s.decoded k (copyOut off n out)) (copyBack off n (s.decoded k out)) := by
  induction n generalizing out with
  | zero => exact .pure _
  | succ n ih =>
    obtain ⟨hlow, hhigh⟩ := hoff n.succ_pos
    have hbyte : (s.decoded k out).outByte ((s.decoded k out).opos - off) = out.getD (out.length - off) 0 := by
      rw [State.decoded_opos hs, State.decoded_outByte hs (by omega)]
    have hput := outByte_delivers (out.getD (out.length - off) 0) (s.decoded k out)
    rw [State.decoded_push] at hput
    rw [copyBack, copyOut, hbyte]
    exact hput.bind (ih fun _ => ⟨hlow, by rw [List.length_append]; omega⟩)

/-- What the machine does with a record it has read (R190). -/
def expandRecord (r : RawTriplet) (s : State) : Run State := expandTriplet r.offset r.literal r.length s

/-- An accepted record appends its expansion (R190, R193, R194). -/
theorem expandRecord_delivers {r : RawTriplet} (hs : s.opos = 0) (hok : tripletBad r out.length = false) :
    Delivers (s.decoded k out) (s.decoded k (r.expand out)) (expandRecord r (s.decoded k out)) := by
  have hlit := outByte_delivers r.literal (s.decoded k (copyOut r.offset.toNat r.length.toNat out))
  rw [State.decoded_push] at hlit
  rcases expandTriplet_spec r.offset r.literal r.length (s.decoded k out) with ⟨hbad, -⟩ | ⟨-, he⟩
  · rw [State.decoded_opos hs, hok] at hbad
    cases hbad
  · rw [expandRecord, he]
    exact (copyBack_delivers hs (offset_of_not_tripletBad hok)).bind hlit

/-- R192. -/
theorem expandRecord_of_bad {r : RawTriplet} (hs : s.opos = 0) (hbad : tripletBad r out.length = true) :
    expandRecord r (s.decoded k out) = .error (.format, s.decoded k out) := by
  rcases expandTriplet_spec r.offset r.literal r.length (s.decoded k out) with ⟨-, he⟩ | ⟨hok, -⟩
  · exact he
  · rw [State.decoded_opos hs, hbad] at hok
    cases hok

/-- A turn of the loop reads record `k` and expands it (R190). -/
theorem decodeOneTriplet_eq (hk : 9 * (k + 1) ≤ s.inLen.toNat) :
    decodeOneTriplet (s.decoded k out) = expandRecord (recordAt s k) (s.decoded (k + 1) out) := by
  have hoff : readInt32 (9 * k) (s.decoded k out) = .ok (recordAt (s.decoded k out) k).offset :=
    readInt32_ok (by rw [State.decoded_inLen]; omega)
  have hlen : readInt32 (9 * k + 5) (s.decoded k out) = .ok (recordAt (s.decoded k out) k).length :=
    readInt32_ok (by rw [State.decoded_inLen]; omega)
  rw [← recordAt_decoded (k := k) (out := out) (s := s) k, ← State.passTriplet_decoded]
  calc decodeOneTriplet (s.decoded k out)
      = (readInt32 (9 * k) (s.decoded k out) >>= fun off => readInt32 (9 * k + 5) (s.decoded k out) >>= fun len =>
          expandTriplet off (recordAt (s.decoded k out) k).literal len (passTriplet (s.decoded k out))) := rfl
    _ = _ := by rw [hoff, hlen]; rfl

/-! ### The decode loop -/

/-- The run ends as the expansion does: with its output appended to `s`, or in its error. -/
def EndsAs (s : State) (r : Run State) : Except CodecError (List Byte) → Prop
  | .ok out => ∃ t, r = .ok t ∧ Appended out s t
  | .error e => ∃ t, r = .error (e, t)

/-- The loop expands the records from `k` on (R190, R209). -/
theorem lzUnpackLoop_endsAs {n : Nat} (hs : s.opos = 0) (hroom : out.length ≤ s.params.outCap)
    (hn : 9 * (k + n) ≤ s.inLen.toNat) : EndsAs s (lzUnpackLoop n (s.decoded k out))
      (expandStream s.params.outCap ((List.range' k n).map (recordAt s)) out) := by
  induction n generalizing k out with
  | zero => exact ⟨_, rfl, State.appended_decoded (by omega)⟩
  | succ n ih =>
    have hturn : lzUnpackLoop (n + 1) (s.decoded k out)
        = (expandRecord (recordAt s k) (s.decoded (k + 1) out) >>= lzUnpackLoop n) :=
      congrArg (· >>= lzUnpackLoop n) (decodeOneTriplet_eq (by omega))
    rw [hturn, List.range'_succ, List.map_cons]
    cases hbad : tripletBad (recordAt s k) out.length with
    | true =>
      rw [expandStream_of_bad _ hbad, expandRecord_of_bad hs hbad]
      exact ⟨_, rfl⟩
    | false =>
      obtain ⟨-, -, hok, herror⟩ := expandRecord_delivers (k := k + 1) hs hbad
      rw [State.decoded_params, State.decoded_opos hs] at hok herror
      rw [State.decoded_opos hs] at herror
      rw [expandStream_of_not_bad _ hbad]
      split
      · next hfull =>
        obtain ⟨t, ht⟩ := herror hroom hfull
        exact ⟨t, Run.bind_error.mpr (.inl ht)⟩
      · next hfits =>
        rw [hok (by omega)]
        exact ih (by omega) (by omega)

end

/-! ### The command -/

/-- `LZ_UNPACK` after its input check, in the emptied block (R97, R101). -/
def lzUnpackIssued (s : State) : State := (s.start 4).prologue.setPhase .check

/-- A stream of whole records passes the length check (R191), and the loop starts at its first record. -/
theorem lzUnpackEngine_of_whole {s : State} (hm : s.inLen.toNat % 9 = 0) : lzUnpackEngine (lzUnpackIssued s)
    = lzUnpackLoop (s.inLen.toNat / 9) (((lzUnpackIssued s).setPhase .lDecode).decoded 0 []) := by
  have hcheck : checkStreamLength (lzUnpackIssued s) = .ok ((lzUnpackIssued s).setPhase .lDecode) :=
    if_neg (not_not.mpr hm)
  rw [lzUnpackEngine, hcheck]
  rfl

theorem lzUnpackEngine_of_cut {s : State} (hm : s.inLen.toNat % 9 ≠ 0) : lzUnpackEngine (lzUnpackIssued s)
    = .error (.io, (lzUnpackIssued s).setPhase .lDecode) :=
  Run.bind_error.mpr (.inl (if_pos hm))

/-- The engine decodes what stands in `IN` (R190). -/
theorem lzUnpackEngine_endsAs {s : State} (hm : s.inLen.toNat % 9 = 0) :
    EndsAs ((lzUnpackIssued s).setPhase .lDecode) (lzUnpackEngine (lzUnpackIssued s))
      (expandStream s.params.outCap (streamTriplets s) []) := by
  have hwhole : 9 * (0 + s.inLen.toNat / 9) ≤ s.inLen.toNat := by omega
  rw [lzUnpackEngine_of_whole hm, streamTriplets_eq]
  exact lzUnpackLoop_endsAs (s := (lzUnpackIssued s).setPhase .lDecode) rfl (Nat.zero_le _) hwhole

/-- Settles O56: the loop appends the expansion of the stream. -/
theorem lzUnpackExpandsTheStream : Obligations.LzUnpackExpandsTheStream := by
  intro s out hwf hin hm hexp
  have hends := lzUnpackEngine_endsAs hm
  rw [hexp] at hends
  obtain ⟨t, ht, happ⟩ := hends
  exact succeeds_of_appended rfl hwf hin ht (Appended.trans (as := []) {} happ)

/-- Settles O57: the loop raises the error of the expansion. -/
theorem lzUnpackEndsAtTheFirstBadRecord : Obligations.LzUnpackEndsAtTheFirstBadRecord := by
  intro s e _ hin hm hexp
  have hends := lzUnpackEngine_endsAs hm
  rw [hexp] at hends
  obtain ⟨t, ht⟩ := hends
  exact fails_of_raise rfl hin ht

/-- Settles O55: the length check comes before the first record is read. -/
theorem lzUnpackOfACutStreamIsAnIoError : Obligations.LzUnpackOfACutStreamIsAnIoError := by
  intro s hin hm
  have hrun : lzUnpackEngine ((s.start 4).prologue.setPhase .check)
      = .error (.io, (lzUnpackIssued s).setPhase .lDecode) := lzUnpackEngine_of_cut hm
  refine ⟨fails_of_raise rfl hin hrun, fun t ht => ?_⟩
  have he : exec .lzUnpack s = .next (((lzUnpackIssued s).setPhase .lDecode).errorEntry .io) := by
    rw [exec, execLzUnpack, dataCommand_of_fits _ _ hin, hrun, complete_error]
  cases he.symm.trans ht
  rfl

end Sys2Proof.Machine
end

section
/-! O60: `LZ_UNPACK` of the stream `LZ_PACK` writes (R196). The stream reads back triplet by triplet, each copies from the
output before it (R182 (c), (d)), and the triplets expand to the input (R182 (f)). -/

namespace Sys2Proof.Machine

/-! ### The records of an encoding -/

/-- A triplet as the decoder reads it (R71). -/
def Match.record (m : Match) : RawTriplet where
  offset := m.offset
  literal := m.literal
  length := m.length

theorem Match.expand_record (m : Match) (out : List Byte) :
    m.record.expand out = copyOut m.offset m.length out ++ [m.literal] := rfl

theorem tripletBytes_length (e : Endian) (m : Match) : (tripletBytes e m).length = 9 := by
  rw [tripletBytes, List.length_append, List.length_cons, int32Bytes_length, int32Bytes_length]

theorem tripletsBytes_length (e : Endian) (ms : List Match) : (ms.flatMap (tripletBytes e)).length = 9 * ms.length := by
  induction ms with
  | nil => rfl
  | cons m ms ih => rw [List.flatMap_cons, List.length_append, tripletBytes_length, ih, List.length_cons]; omega

/-- The three fields of a triplet that stands at record `k` read back (R71). -/
theorem recordAt_of_input {u : State} {pre post : List Byte} {m : Match} {k : Nat} (hpre : pre.length = 9 * k)
    (hu : u.input = pre ++ (tripletBytes u.params.endian m ++ post)) (hoff : m.offset < 2 ^ 31)
    (hlen : m.length < 2 ^ 31) : recordAt u k = m.record := by
  rw [tripletBytes, List.append_assoc, List.cons_append] at hu
  have hoffset := int32At_of_input hu
  rw [← List.append_assoc] at hu
  have hsize : (pre ++ int32Bytes u.params.endian (BitVec.ofNat 32 m.offset)).length = 9 * k + 4 := by
    rw [List.length_append, int32Bytes_length, hpre]
  have hliteral : u.inByte (9 * k + 4) = m.literal := State.inByte_of_input (by
    rw [hu, ← hsize, List.getElem?_append_right le_rfl, Nat.sub_self, List.getElem?_cons_zero])
  rw [List.append_cons] at hu
  have hlength := int32At_of_input hu
  rw [List.length_append, List.length_singleton, hsize] at hlength
  rw [hpre, toInt_ofNat_of_lt hoff] at hoffset
  rw [toInt_ofNat_of_lt hlen] at hlength
  rw [recordAt, hoffset, hliteral, hlength, Match.record]

/-- A stream of triplets whose fields fit an int32 reads back (R71). -/
theorem streamTriplets_of_input {u : State} {ms : List Match} (hu : u.input = ms.flatMap (tripletBytes u.params.endian))
    (hsmall : ∀ m ∈ ms, m.offset < 2 ^ 31 ∧ m.length < 2 ^ 31) : streamTriplets u = ms.map Match.record := by
  have hcount : u.inLen.toNat / 9 = ms.length := by
    rw [← State.input_length, hu, tripletsBytes_length, Nat.mul_div_cancel_left _ (by decide)]
  have hlen : (streamTriplets u).length = (ms.map Match.record).length := by
    rw [streamTriplets, List.length_map, List.length_range, hcount, List.length_map]
  refine List.ext_getElem hlen fun k _ hk => ?_
  rw [List.length_map] at hk
  obtain ⟨hoff, hlength⟩ := hsmall ms[k] (List.getElem_mem hk)
  have hsplit : ms.flatMap (tripletBytes u.params.endian) = (ms.take k).flatMap (tripletBytes u.params.endian)
      ++ (tripletBytes u.params.endian ms[k] ++ (ms.drop (k + 1)).flatMap (tripletBytes u.params.endian)) := by
    rw [← List.flatMap_cons, List.getElem_cons_drop, ← List.flatMap_append, List.take_append_drop]
  have hpre : ((ms.take k).flatMap (tripletBytes u.params.endian)).length = 9 * k := by
    rw [tripletsBytes_length, List.length_take_of_le hk.le]
  have hrecord : recordAt u k = ms[k].record := recordAt_of_input hpre (hu.trans hsplit) hoff hlength
  simpa [streamTriplets_eq] using hrecord

/-! ### The expansion of an encoding -/

section

variable {hMax pMax pos : Nat} {bytes : List Byte} {m : Match} {ms : List Match}

/-- A triplet at its place is accepted after the input before it (R192). -/
theorem TripletAt.not_bad (h : TripletAt hMax pMax bytes pos m) : tripletBad m.record pos = false := by
  have hzero := h.zero
  have hoff := h.offset
  rw [tripletBad, decide_eq_false_iff_not]
  simp only [Match.record]
  omega

/-- A triplet at its place expands the input before it by its own stretch (R182 (f)). -/
theorem TripletAt.expand (h : TripletAt hMax pMax bytes pos m) :
    m.record.expand (bytes.take pos) = bytes.take (pos + m.length + 1) := by
  obtain ⟨hlt, hget⟩ := List.getElem?_eq_some_iff.mp h.literal
  have hoff : 0 < m.length → 1 ≤ m.offset ∧ m.offset ≤ pos := offset_of_not_tripletBad h.not_bad
  rw [Match.expand_record, copyOut_take hlt.le hoff h.copied, ← hget, List.take_concat_get' bytes _ hlt]

/-- The records that cover the input from `pos` on complete it, in a buffer that holds it (R182 (f)). -/
theorem Covers.expandStream_take {cap : Nat} (h : Covers hMax pMax bytes pos ms) (hroom : bytes.length ≤ cap) :
    expandStream cap (ms.map Match.record) (bytes.take pos) = .ok bytes := by
  induction h with
  | done => rw [List.take_length]; rfl
  | @cons pos m _ head _ ih =>
    have hin := head.inside
    have hbad : tripletBad m.record (bytes.take pos).length = false := by
      rw [List.length_take_of_le (by omega)]
      exact head.not_bad
    rw [List.map_cons, expandStream_of_not_bad cap hbad, head.expand,
      if_neg (by rw [List.length_take_of_le (by omega)]; omega), ih]

/-- No field of the triplets is longer than the input (R182 (b), (c)). -/
theorem Covers.fields_lt (h : Covers hMax pMax bytes pos ms) (hm : m ∈ ms) :
    m.offset < bytes.length ∧ m.length < bytes.length := by
  obtain ⟨k, hk⟩ := List.mem_iff_getElem?.mp hm
  have hat := h.tripletAt hk
  have hin := hat.inside
  have hoff := hat.offset
  omega

end

/-- Settles O60: the input of the second command reads back as the triplets of the first one's input. -/
theorem lz77RoundTrip : Obligations.Lz77RoundTrip := by
  intro s hwf hin hout hok hfit hfeed
  obtain ⟨t, ht, -, hstatus, -, houtput, -⟩ := lzPackWritesTheTriplets s hwf hin hok hfit
  refine ⟨t, ht, hstatus, fun u hp hinput => ?_⟩
  rw [houtput] at hinput
  have hlen : u.inLen.toNat = (lzEncode s.params.endian s.cfgHist.toNat s.cfgPreview.toNat s.input).length := by
    rw [← State.input_length, hinput]
  have hwhole : u.inLen.toNat % 9 = 0 := by rw [hlen, lzEncode, tripletsBytes_length, Nat.mul_mod_right]
  have hpreview : 1 ≤ s.cfgPreview.toNat := by
    simp only [windowsOk, decide_eq_true_eq] at hok
    omega
  have hcap : s.params.inCap ≤ 2 ^ 31 - 1 := by
    simp only [Params.wf, decide_eq_true_eq] at hwf
    omega
  have hcovers := lzTriplets_covers s.cfgHist.toNat hpreview s.input
  have hsize : s.input.length = s.inLen.toNat := State.input_length s
  have hsmall : ∀ m ∈ lzTriplets s.cfgHist.toNat s.cfgPreview.toNat s.input, m.offset < 2 ^ 31 ∧ m.length < 2 ^ 31 :=
    fun m hm => by
      have hfields := hcovers.fields_lt hm
      omega
  have hstream : expandStream u.params.outCap (streamTriplets u) [] = .ok s.input := by
    rw [streamTriplets_of_input (by rw [hinput, lzEncode, hp]) hsmall, hp]
    exact hcovers.expandStream_take (hsize ▸ hout)
  exact lzUnpackExpandsTheStream u s.input (hp ▸ hwf) (by rw [hp, hlen]; exact hfeed) hwhole hstream

end Sys2Proof.Machine
end

section
/-! The reset event (R230): every field but the host's side and the count of resets is as after power-on with the same
parameters, so the reset values of R37 carry over. -/

namespace Sys2Proof.Machine

/-- Settles O3: the step is the reset event, which leaves the reset values of O1 for the block's own parameters. -/
theorem hardwareResetEvent : Obligations.HardwareResetEvent := by
  intro s rest hwf hp hh
  have hstep : step s = .next (State.hardReset { s with host := rest }) := step_of_host hp hh
  obtain ⟨hstatus, hout, hin, hhist, hpreview, hcmd, hphase, htransient⟩ := resetHoldsTheSpecValues.1 s.params hwf
  exact ⟨_, hstep, rfl, rfl, hphase, hcmd, hstatus, hout, hin, hhist, hpreview, htransient⟩

end Sys2Proof.Machine
end
